-- ==== Sys2Proof/Word.lean ====
section
/-! DEFINITION. The word types of the ATSAMD DMA channel block: what the spec treats as bits has a
bit-vector type of its width (00_scope.md R7, R8), and a vector number, which software never sees as
bits, is a bounded number (60_exceptions.md R310). -/

namespace Sys2Proof

/-- A 32-bit command word, argument word, address or result (R7, R90). -/
abbrev Word := BitVec 32

/-- One byte of `Mem` (R60). -/
abbrev Byte := BitVec 8

/-- A channel id as the command word carries it, 5 bits (R99). -/
abbrev Chan := BitVec 5

/-- A flag set `{TERR, TCMPL, SUSP}`: TERR bit 0, TCMPL bit 1, SUSP bit 2 (R8, R94). -/
abbrev FlagSet := BitVec 3

/-- A vector number. There are V + 1 vectors with V <= N <= 32, so at most 33 (R310). -/
abbrev VecNum := Fin 33

end Sys2Proof
end

