-- ==== Sys2Proof/Config.lean ====
section
/-! DEFINITION. What an implementation fixes (the launch parameters of 00_scope.md R7, as plain data)
and the free values of the environment (opaque: nothing is known of them). -/

namespace Sys2Proof

/-- The addresses `base` to `base + size - 1`. A predicate on 32-bit addresses is a finite list of
these (notes/assumptions/2.md). -/
structure Region where
  base : Nat
  size : Nat
deriving DecidableEq, Repr, Inhabited

/-- One choice of the scheduler (60_exceptions.md R315): which agent takes the next step.
`context` is the running context (Isr while a handler is active, else Main); `entry v` is the
interrupt controller taking vector `v` (R313); the others are the engine steps of a channel
(44_dma_engine_agent.md R240 to R252). -/
inductive Pick where
  | context
  | entry (v : VecNum)
  | eRst (c : Chan)
  | eSwt (c : Chan)
  | ePtrig (c : Chan)
  | eBeat (c : Chan)
  | eErr (c : Chan)
  | eSusp (c : Chan)
  | eDack (c : Chan)
deriving DecidableEq, Repr, Inhabited

/-- The launch parameters of R7. They are arguments of the step relation (10_state.md R46); the model
carries them in the state, where no step changes them (notes/assumptions/1.md). NESTING is fixed
false and has no field. M0 is the memory a launch state holds (notes/assumptions/3.md). -/
structure Params where
  /-- N, the number of channels. -/
  numChannels : Nat
  /-- HAS_BURST_FIFO: burst length and FIFO threshold exist. -/
  hasBurstFifo : Bool
  /-- V, the number of dedicated channel vectors; vector V is the shared one. -/
  numVectors : Nat
  /-- REG_BASE, the address of the register port. -/
  regBase : Word
  /-- DMA_OK(a, 1): the start addresses of accessible one-byte accesses. -/
  dmaOk1 : List Region
  /-- DMA_OK(a, 2). -/
  dmaOk2 : List Region
  /-- DMA_OK(a, 4). -/
  dmaOk4 : List Region
  /-- DEV(a): peripheral register bytes. -/
  dev : List Region
  /-- CODE_REGION(a): bytes that hold program code. -/
  codeRegion : List Region
  /-- MAY_ERROR: the environment may raise transfer errors. -/
  mayError : Bool
  /-- MAY_SUSPEND: the environment may suspend a channel. -/
  maySuspend : Bool
  /-- CLOCK_READY: the bus clock reaches the DMA peripheral. -/
  clockReady : Bool
  /-- VEC_EN(v): the platform interrupt controller has vector v enabled. -/
  vecEn : Vector Bool 33
  /-- P_MAIN, the main command program. -/
  pMain : List Word
  /-- H(v), the handler program of vector v. -/
  handlers : Vector (List Word) 33
deriving DecidableEq, Repr

/-- The bounds R7 puts on N and V. -/
def Params.wf (p : Params) : Bool :=
  decide (1 ≤ p.numChannels) && decide (p.numChannels ≤ 32) && decide (p.numVectors ≤ p.numChannels)

/-- Every address of the 32-bit space. -/
def Region.all : List Region := [⟨0, 4294967296⟩]

/-- The default parameters of 95_test_vectors.md section 0, with no program loaded
(DESIGN CHOICE, notes/assumptions/1.md and 10.md). -/
def Params.default : Params where
  numChannels := 4
  hasBurstFifo := false
  numVectors := 4
  regBase := 0
  dmaOk1 := Region.all
  dmaOk2 := Region.all
  dmaOk4 := Region.all
  dev := []
  codeRegion := []
  mayError := false
  maySuspend := false
  clockReady := true
  vecEn := Vector.replicate 33 true
  pMain := []
  handlers := Vector.replicate 33 []

/-- The scheduler's k-th free pick (R315): a FREE VALUE, used when the state lists no pending pick
(notes/assumptions/4.md). -/
opaque Config.freePick : Nat → Pick

/-- The k-th draw of a device byte (`draw_8` of R245, R68): a FREE VALUE (notes/assumptions/6.md). -/
opaque Config.freeByte : Nat → Byte

end Sys2Proof
end

