-- ==== Sys2Proof/Syntax.lean ====
section
/-! DEFINITION. The command set: one constructor per row of spec/opcode_table.json, carrying the
fields of its format and its argument words (30_encoding.md R92 to R102). -/

namespace Sys2Proof

/-- The 23 commands of R102, in the table's order. `c` is CH; fields have the widths of R92. -/
inductive Instr where
  /-- Format G, OPC 0x01 (R120). -/
  | split
  /-- Format P, OPC 0x02: priority level LVL (R121, R93). -/
  | init (c : Chan) (lvl : BitVec 2)
  /-- Format N, OPC 0x03 (R125). -/
  | reset (c : Chan)
  /-- Format B, OPC 0x04: burst length minus one (R128, R96). -/
  | setburst (c : Chan) (blen : BitVec 4)
  /-- Format H, OPC 0x05: log2 of the FIFO threshold (R131, R97). -/
  | setthr (c : Chan) (thr : BitVec 2)
  /-- Format T, OPC 0x06: trigger source and action (R134, R95). -/
  | start (c : Chan) (trigsrc : BitVec 7) (trigact : BitVec 2)
  /-- Format N, OPC 0x07 (R138). -/
  | xferdone (c : Chan)
  /-- Format N, OPC 0x08 (R141). -/
  | free (c : Chan)
  /-- Format N, OPC 0x09 (R146). -/
  | restart (c : Chan)
  /-- Format D, OPC 0x0A: SRCADDR, DSTADDR, BTCNT, BTCTRL (R170, R100). -/
  | bind (c : Chan) (src dst cnt ctl : Word)
  /-- Format N, OPC 0x0B (R172). -/
  | wait (c : Chan)
  /-- Format S, OPC 0x0C: access size and address word (R176, R98, R101). -/
  | memrd (size : BitVec 2) (addr : Word)
  /-- Format S, OPC 0x0D: access size, address word and data word (R177, R98, R101). -/
  | memwr (size : BitVec 2) (addr data : Word)
  /-- Format M, OPC 0x0E: MASK (R190, R94). -/
  | intenset (c : Chan) (mask : FlagSet)
  /-- Format M, OPC 0x0F (R191). -/
  | intenclr (c : Chan) (mask : FlagSet)
  /-- Format M, OPC 0x10 (R192). -/
  | chkclr (c : Chan) (mask : FlagSet)
  /-- Format N, OPC 0x11 (R195). -/
  | callback (c : Chan)
  /-- Format G, OPC 0x12 (R210). -/
  | csenter
  /-- Format G, OPC 0x13 (R212). -/
  | csexit
  /-- Format G, OPC 0x14 (R215). -/
  | cellput
  /-- Format G, OPC 0x15 (R217). -/
  | cellborrow
  /-- Format G, OPC 0x16 (R220). -/
  | cellrelease
  /-- Format G, OPC 0x17 (R227). -/
  | iret
deriving DecidableEq, Repr

end Sys2Proof
end

