-- ==== Sys2Proof/WellFormed.lean ====
section
/-! DEFINITION. Which terms of `Instr` a command word can encode: a term is ill-formed exactly when
its word meets R103 (c) (TRIGACT = 3) or R103 (d) (SIZE = 3). R103 (e) depends on a parameter and is
checked at execution (notes/assumptions/12.md); the descriptor words of BIND are data and are checked
at execution too (R100). -/

namespace Sys2Proof

/-- The command's word is legal by R103 (a) to (d). -/
def Instr.wf : Instr → Bool
  | .start _ _ act => act != 3
  | .memrd size _ => size != 3
  | .memwr size _ _ => size != 3
  | .split | .init _ _ | .reset _ | .setburst _ _ | .setthr _ _ | .xferdone _ | .free _
  | .restart _ | .bind _ _ _ _ _ | .wait _ | .intenset _ _ | .intenclr _ _ | .chkclr _ _
  | .callback _ | .csenter | .csexit | .cellput | .cellborrow | .cellrelease | .iret => true

end Sys2Proof
end

