-- ==== Sys2Proof/Decode.lean ====
section
/-! DEFINITION. The decoder and, after it, the encoder of 30_encoding.md. A program is a list of
32-bit words (R60), so the decoder reads words: the command word, then the argument words the opcode
calls for (R91). It is total, and a word it refuses is refused by name (R103). -/

namespace Sys2Proof

/-- Why the decoder refuses, in the order of R103. -/
inductive DecodeReject where
  /-- There is no command word to read. -/
  | noWord
  /-- R103 (a): OPC = 0x00 or OPC >= 0x18. -/
  | reservedOpcode
  /-- R103 (b): a bit the format requires to be 0 is 1. -/
  | reservedBits
  /-- R103 (c): format T with TRIGACT = 3. -/
  | reservedTrigAct
  /-- R103 (d): format S with SIZE = 3. -/
  | reservedSize
  /-- R103 (f): the argument words run past the end of the program. -/
  | missingArgument
deriving DecidableEq, Repr

/-- What the decoder answers: a command and the words after it, or a named refusal. -/
inductive Decoded where
  | ok (i : Instr) (rest : List Word)
  | reject (why : DecodeReject)
deriving DecidableEq, Repr

/-! ### The fields of a command word (R90, R92) -/

/-- OPC = w[5:0]. -/
def opcodeOf (w : Word) : BitVec 6 := w.extractLsb' 0 6

/-- CH = w[10:6] (R99). -/
def chanField (w : Word) : Chan := w.extractLsb' 6 5

/-- The two operand bits w[12:11]: LVL (R93), THR (R97) or SIZE (R98). -/
def pairField (w : Word) : BitVec 2 := w.extractLsb' 11 2

/-- MASK = w[13:11] (R94). -/
def maskField (w : Word) : FlagSet := w.extractLsb' 11 3

/-- BLEN = w[14:11] (R96). -/
def blenField (w : Word) : BitVec 4 := w.extractLsb' 11 4

/-- TRIGSRC = w[17:11] (R95). -/
def trigsrcField (w : Word) : BitVec 7 := w.extractLsb' 11 7

/-- TRIGACT = w[19:18] (R95). -/
def trigactField (w : Word) : BitVec 2 := w.extractLsb' 18 2

/-! ### One function per format (R92) -/

/-- Format G: every bit above OPC is 0, CH included. -/
def decodeG (w : Word) (i : Instr) (args : List Word) : Decoded :=
  if w.extractLsb' 6 26 = 0 then .ok i args else .reject .reservedBits

/-- Format N: w[31:11] = 0. -/
def decodeN (w : Word) (mk : Chan → Instr) (args : List Word) : Decoded :=
  if w.extractLsb' 11 21 = 0 then .ok (mk (chanField w)) args else .reject .reservedBits

/-- Formats P and H: w[31:13] = 0, two operand bits. -/
def decodePair (w : Word) (mk : Chan → BitVec 2 → Instr) (args : List Word) : Decoded :=
  if w.extractLsb' 13 19 = 0 then .ok (mk (chanField w) (pairField w)) args
  else .reject .reservedBits

/-- Format M: w[31:14] = 0. -/
def decodeM (w : Word) (mk : Chan → FlagSet → Instr) (args : List Word) : Decoded :=
  if w.extractLsb' 14 18 = 0 then .ok (mk (chanField w) (maskField w)) args
  else .reject .reservedBits

/-- Format B: w[31:15] = 0. -/
def decodeB (w : Word) (mk : Chan → BitVec 4 → Instr) (args : List Word) : Decoded :=
  if w.extractLsb' 15 17 = 0 then .ok (mk (chanField w) (blenField w)) args
  else .reject .reservedBits

/-- Format T: w[31:20] = 0, and TRIGACT = 3 is reserved. -/
def decodeT (w : Word) (args : List Word) : Decoded :=
  if w.extractLsb' 20 12 = 0 then
    if trigactField w = 3 then .reject .reservedTrigAct
    else .ok (.start (chanField w) (trigsrcField w) (trigactField w)) args
  else .reject .reservedBits

/-- Format D: w[31:11] = 0, then four argument words (R100). -/
def decodeD (w : Word) (args : List Word) : Decoded :=
  if w.extractLsb' 11 21 = 0 then
    match args with
    | src :: dst :: cnt :: ctl :: rest => .ok (.bind (chanField w) src dst cnt ctl) rest
    | _ => .reject .missingArgument
  else .reject .reservedBits

/-- The command word of format S: w[31:13] = 0, w[10:6] = 0, and SIZE = 3 is reserved. Answers
the refusal, or none where the word is legal. -/
def rejectS (w : Word) : Option DecodeReject :=
  if w.extractLsb' 13 19 = 0 ∧ w.extractLsb' 6 5 = 0 then
    if pairField w = 3 then some .reservedSize else none
  else some .reservedBits

/-- MEMRD: format S with the address word (R101). -/
def decodeMemrd (w : Word) (args : List Word) : Decoded :=
  match rejectS w with
  | some r => .reject r
  | none =>
    match args with
    | addr :: rest => .ok (.memrd (pairField w) addr) rest
    | _ => .reject .missingArgument

/-- MEMWR: format S with the address word and the data word (R101). -/
def decodeMemwr (w : Word) (args : List Word) : Decoded :=
  match rejectS w with
  | some r => .reject r
  | none =>
    match args with
    | addr :: data :: rest => .ok (.memwr (pairField w) addr data) rest
    | _ => .reject .missingArgument

/-- The opcode map of R102 over one command word and the words after it. -/
def decodeWord (w : Word) (args : List Word) : Decoded :=
  match (opcodeOf w).toNat with
  | 0x01 => decodeG w .split args
  | 0x02 => decodePair w .init args
  | 0x03 => decodeN w .reset args
  | 0x04 => decodeB w .setburst args
  | 0x05 => decodePair w .setthr args
  | 0x06 => decodeT w args
  | 0x07 => decodeN w .xferdone args
  | 0x08 => decodeN w .free args
  | 0x09 => decodeN w .restart args
  | 0x0A => decodeD w args
  | 0x0B => decodeN w .wait args
  | 0x0C => decodeMemrd w args
  | 0x0D => decodeMemwr w args
  | 0x0E => decodeM w .intenset args
  | 0x0F => decodeM w .intenclr args
  | 0x10 => decodeM w .chkclr args
  | 0x11 => decodeN w .callback args
  | 0x12 => decodeG w .csenter args
  | 0x13 => decodeG w .csexit args
  | 0x14 => decodeG w .cellput args
  | 0x15 => decodeG w .cellborrow args
  | 0x16 => decodeG w .cellrelease args
  | 0x17 => decodeG w .iret args
  | _ => .reject .reservedOpcode

/-- The decoder: total on any list of words (R103, R104). -/
def decode : List Word → Decoded
  | [] => .reject .noWord
  | w :: args => decodeWord w args

/-! ### The encoder (R92, R102) -/

/-- Formats G and N with no operand bits. -/
def wordN (c : Chan) (opc : BitVec 6) : Word := 0#21 ++ c ++ opc

/-- Formats P and H; format S is this with channel bits 0. -/
def wordPair (x : BitVec 2) (c : Chan) (opc : BitVec 6) : Word := 0#19 ++ x ++ c ++ opc

/-- Format M. -/
def wordM (mask : FlagSet) (c : Chan) (opc : BitVec 6) : Word := 0#18 ++ mask ++ c ++ opc

/-- Format B. -/
def wordB (blen : BitVec 4) (c : Chan) (opc : BitVec 6) : Word := 0#17 ++ blen ++ c ++ opc

/-- Format T. -/
def wordT (act : BitVec 2) (src : BitVec 7) (c : Chan) (opc : BitVec 6) : Word :=
  0#12 ++ act ++ src ++ c ++ opc

/-- The command word of a command. Fault records carry it (R300). -/
def commandWord : Instr → Word
  | .split => wordN 0 0x01
  | .init c lvl => wordPair lvl c 0x02
  | .reset c => wordN c 0x03
  | .setburst c blen => wordB blen c 0x04
  | .setthr c thr => wordPair thr c 0x05
  | .start c src act => wordT act src c 0x06
  | .xferdone c => wordN c 0x07
  | .free c => wordN c 0x08
  | .restart c => wordN c 0x09
  | .bind c _ _ _ _ => wordN c 0x0A
  | .wait c => wordN c 0x0B
  | .memrd size _ => wordPair size 0 0x0C
  | .memwr size _ _ => wordPair size 0 0x0D
  | .intenset c mask => wordM mask c 0x0E
  | .intenclr c mask => wordM mask c 0x0F
  | .chkclr c mask => wordM mask c 0x10
  | .callback c => wordN c 0x11
  | .csenter => wordN 0 0x12
  | .csexit => wordN 0 0x13
  | .cellput => wordN 0 0x14
  | .cellborrow => wordN 0 0x15
  | .cellrelease => wordN 0 0x16
  | .iret => wordN 0 0x17

/-- The argument words of a command, in program order (R91, R100, R101). -/
def argWords : Instr → List Word
  | .bind _ src dst cnt ctl => [src, dst, cnt, ctl]
  | .memrd _ addr => [addr]
  | .memwr _ addr data => [addr, data]
  | .split | .init _ _ | .reset _ | .setburst _ _ | .setthr _ _ | .start _ _ _ | .xferdone _
  | .free _ | .restart _ | .wait _ | .intenset _ _ | .intenclr _ _ | .chkclr _ _ | .callback _
  | .csenter | .csexit | .cellput | .cellborrow | .cellrelease | .iret => []

/-- The words of a command as a program holds them. -/
def encode (i : Instr) : List Word := commandWord i :: argWords i

/-- The length of a command in words, fixed by its opcode (R91). -/
def lengthOf (i : Instr) : Nat := (encode i).length

/-! ### The opcode table's numbering of bits -/

/-- An instruction's bits as program words: word k is bits 32k+31 .. 32k, the first word lowest.
Five words, the longest command's length (BIND, R91); bits above `nbits` are 0. -/
def tableWords (nbits w : Nat) : List Word :=
  (List.range 5).map fun k => BitVec.ofNat 32 ((w % 2 ^ nbits) / 2 ^ (32 * k))

/-- What the decoder reads from an instruction whose bits, numbered as spec/opcode_table.json numbers
them, are `w`. -/
def decodeTableWord (nbits w : Nat) : Option Instr :=
  match decode (tableWords nbits w) with
  | .ok i _ => some i
  | .reject _ => none

end Sys2Proof
end

