-- ==== Sys2Proof/Machine/State.lean ====
section
/-! DEFINITION. The state of the machine, as plain data: everything 10_state.md gives it, the launch
parameters of 00_scope.md R7, and the model's own fields for the environment's free choices. -/

namespace Sys2Proof.Machine

/-- The two execution contexts (R20). -/
inductive Ctx where
  | main
  | isr
deriving DecidableEq, Repr

/-- The lifecycle tag of a channel (R22). -/
inductive Status where
  | uninitialized
  | ready
  | busy
deriving DecidableEq, Repr

/-- TRIGACT: how much a trigger releases (R26). The value 3 is refused at decode and never stored. -/
inductive TrigAct where
  | beat
  | burst
  | transaction
deriving DecidableEq, Repr

/-- A beat or access size (R35, R98). The value 3 is refused and never stored. -/
inductive Size where
  | byte
  | half
  | word
deriving DecidableEq, Repr

/-- Everything the block keeps for one channel: the lifecycle tag (R22), the register port (R23 to
R32), the hidden engine state (R29) and the descriptor with its progress registers (R35). The field
values given here are the power-on values of R44; `status` has none before SPLIT
(notes/assumptions/8.md). -/
structure Channel where
  status : Status := .uninitialized
  swrst : Bool := false
  enable : Bool := false
  trigsrc : BitVec 7 := 0
  trigact : TrigAct := .beat
  /-- Burst length minus one; reads as 0 without HAS_BURST_FIFO (R27). -/
  burstlen : BitVec 4 := 0
  /-- log2 of the FIFO threshold; reads as 0 without HAS_BURST_FIFO (R27). -/
  threshold : BitVec 2 := 0
  prilvl : BitVec 2 := 0
  inten : FlagSet := 0
  intflag : FlagSet := 0
  swtrig : Bool := false
  disableReq : Bool := false
  suspended : Bool := false
  /-- Authorised beats: released by a trigger, not yet moved. -/
  auth : BitVec 16 := 0
  /-- Beats left in the burst in progress; 0 at a burst boundary. -/
  burstLeft : BitVec 5 := 0
  trigPend : Bool := false
  bound : Bool := false
  dSrc : Word := 0
  dDst : Word := 0
  dCnt : BitVec 16 := 0
  dSize : Size := .byte
  dSinc : Bool := false
  dDinc : Bool := false
  /-- Beats still to move. -/
  rem : BitVec 16 := 0
  curSrc : Word := 0
  curDst : Word := 0
deriving DecidableEq, Repr

/-- A blocking phase (R34). -/
inductive Hold where
  | initWait (c : Chan) (lvl : BitVec 2)
  | resetWait (c : Chan)
  | freeWait (c : Chan)
  | waitPoll (c : Chan)
deriving DecidableEq, Repr

/-- The state of one context (R34, R38): command pointer, result register, blocking phase and the
saved `primask` values of its open critical sections, the outermost first. -/
structure CtxState where
  pc : Nat := 0
  res : Word := 0
  hold : Option Hold := none
  csStack : List Bool := []
deriving DecidableEq, Repr

/-- Where the controller value is (R36): held by the main context, or moved into the shared slot. -/
inductive CtrlLoc where
  | main
  | cell
deriving DecidableEq, Repr

/-- The fields the register-access log names (R37). -/
inductive PortField where
  | swrst
  | enable
  | trigsrc
  | trigact
  | burstlen
  | threshold
  | prilvl
  | intenset
  | intenclr
  | intflag
  | swtrig
  | desc
deriving DecidableEq, Repr

/-- A logged value: a field's value, or the four words of a descriptor write (R37, R170). -/
inductive LogValue where
  | val (v : Word)
  | desc (src dst cnt ctl : Word)
deriving DecidableEq, Repr

/-- One event of the register-access log: `W(c, F, v)` or `R(c, F, v)` (R37). -/
inductive Event where
  | write (c : Chan) (f : PortField) (v : LogValue)
  | read (c : Chan) (f : PortField) (v : LogValue)
deriving DecidableEq, Repr

/-- The fault codes of R301, in the order of their numbers 1 to 20. -/
inductive FaultCode where
  | illegalCommand
  | badChannel
  | notOwner
  | notSplit
  | illegalState
  | badDescriptor
  | misaligned
  | notBound
  | bufferRace
  | unguardedAccess
  | cellEmpty
  | reentrantBorrow
  | notBorrowed
  | borrowOutlivesCS
  | csUnderflow
  | iretOutsideIsr
  | csOpenAtIret
  | noIret
  | codeWrite
  | deviceAccess
deriving DecidableEq, Repr

/-- The info of a fault (R300): of a command, its context, pc, command word and, for IllegalState,
the lifecycle tag; of an engine step, the channel and the address. -/
inductive FaultInfo where
  | command (ctx : Ctx) (pc : Nat) (w : Word) (extra : Option Status)
  | engine (c : Chan) (addr : Word)
deriving DecidableEq, Repr

/-- The sticky fault record (R39, R300). -/
structure FaultRecord where
  code : FaultCode
  info : FaultInfo
deriving DecidableEq, Repr

/-- Why a step stops the machine. -/
inductive Fault where
  /-- Raised by `step` at a state whose `fault` is set: "no agent takes another step" (R300). The
  step that RAISED the fault was a next state that recorded it (notes/assumptions/7.md). Safe: the
  machine stops where the spec says it is quiescent. -/
  | sticky (r : FaultRecord)
deriving DecidableEq, Repr

/-- Why an instruction has no meaning. -/
inductive Refusal where
  /-- Raised by an arm of `exec` for an instruction without a meaning; no arm of this model is one.
  Safe: nothing can be proved of what the instruction would do. -/
  | notModelled (mnemonic : String)
deriving DecidableEq, Repr

/-- Memory as the bytes that differ from 0, by strictly rising address (R40). -/
abbrev Memory := List Host.Cell

/-- What an unlisted address reads as (DESIGN CHOICE, notes/assumptions/3.md). -/
def unlistedByte : Byte := 0

/-- The canonical form of a memory: strictly rising 32-bit addresses, no byte equal to what an
unlisted address reads as. -/
def Memory.wf : Memory → Bool
  | [] => true
  | (a, b) :: rest =>
    decide (a < 4294967296) && decide (b ≠ unlistedByte)
      && rest.all (fun cell => decide (a < cell.1)) && Memory.wf rest

/-- The state of the machine. -/
structure State where
  /-- The launch parameters (R7, R46); no step changes them. -/
  params : Params
  /-- The 32 channel slots; channel c exists when c < N (R21, notes/assumptions/13.md). -/
  chans : Vector Channel 32
  /-- The main context (R34). -/
  main : CtxState
  /-- The interrupt context; its fields mean something only while `isrActive` is set (R20). -/
  isr : CtxState
  /-- The controller has been split (R36). -/
  split : Bool
  ctrlLoc : CtrlLoc
  /-- The context holding the one borrow of the slot (R36). -/
  borrowedBy : Option Ctx
  /-- The critical-section depth at which the borrow was taken (R36). -/
  borrowDepth : Nat
  /-- Maskable interrupts are disabled (R38). -/
  primask : Bool
  /-- The vector being handled (R38). -/
  isrActive : Option VecNum
  /-- The pending latches; vector v exists when v <= V (R38, R311, notes/assumptions/14.md). -/
  nvicPend : Vector Bool 33
  /-- `Mem` (R40). -/
  mem : Memory
  /-- The register-access log, oldest event first (R37). -/
  log : List Event
  /-- The sticky fault (R39). -/
  fault : Option FaultRecord
  /-- The MODEL's own: scheduler picks waiting to be taken, the next one first
  (notes/assumptions/4.md). -/
  sched : List Pick
  /-- The MODEL's own: how many free picks have been taken (notes/assumptions/4.md). -/
  pickIdx : Nat
  /-- The MODEL's own: how many device bytes have been drawn (notes/assumptions/6.md). -/
  drawIdx : Nat
deriving DecidableEq, Repr

/-- The machine at launch: the power-on values of R44 and R350 to R352, with the default parameters
and no program loaded (notes/assumptions/1.md, 10.md). -/
def State.reset : State where
  params := Params.default
  chans := Vector.replicate 32 {}
  main := {}
  isr := {}
  split := false
  ctrlLoc := .main
  borrowedBy := none
  borrowDepth := 0
  primask := false
  isrActive := none
  nvicPend := Vector.replicate 33 false
  mem := []
  log := []
  fault := none
  sched := []
  pickIdx := 0
  drawIdx := 0

end Sys2Proof.Machine
end

