-- ==== Sys2Proof/Machine/Ops.lean ====
section
/-! DEFINITION. The named operations over memory, channels, contexts, the log, the fault record and
the interrupt context. Every meaning and every engine step is written from these. -/

namespace Sys2Proof.Machine

/-- What a meaning or a step answers. -/
abbrev StepResult := Host.Outcome State Fault Refusal

/-! ### Memory (20_memory.md) -/

/-- The byte at an address (R40): the listed one, else what an unlisted address reads as. -/
def readByte : Memory → Nat → Byte
  | [], _ => unlistedByte
  | (k, b) :: rest, a => if k = a then b else readByte rest a

/-- List a byte at its place in the rising order, unless it equals what an unlisted address reads
as. -/
def insertByte (m : Memory) (a : Nat) (b : Byte) : Memory :=
  if b = unlistedByte then m
  else
    match m with
    | [] => [(a, b)]
    | (k, v) :: rest => if a < k then (a, b) :: (k, v) :: rest else (k, v) :: insertByte rest a b

/-- Write one byte (R61): the old entry of the address goes, the new one is listed in order. -/
def writeByte (m : Memory) (a : Nat) (b : Byte) : Memory :=
  insertByte (m.filter fun cell => decide (cell.1 ≠ a)) a b

/-- The number of bytes of an access: 1, 2 or 4 (R66). -/
def sizeBytes : Size → Nat
  | .byte => 1
  | .half => 2
  | .word => 4

/-- The bytes at `a .. a+n-1`, the lowest address first; addresses are modulo 2^32 (R61, R8). -/
def readBytes (m : Memory) (a : Word) : Nat → List Byte
  | 0 => []
  | n + 1 => readByte m a.toNat :: readBytes m (a + 1) n

/-- Write bytes at `a`, `a+1`, ... (R61). -/
def writeBytes (m : Memory) (a : Word) : List Byte → Memory
  | [] => m
  | b :: bs => writeBytes (writeByte m a.toNat b) (a + 1) bs

/-- Bytes as a word, the first byte least significant, zero-extended (R61). -/
def wordOfBytes : List Byte → Word
  | [] => 0
  | b :: bs => (wordOfBytes bs <<< 8) ||| b.zeroExtend 32

/-- The low n bytes of a word, the least significant first (R61). -/
def bytesOfWord (v : Word) : Nat → List Byte
  | 0 => []
  | n + 1 => v.extractLsb' 0 8 :: bytesOfWord (v >>> 8) n

/-- `MemRead(a, n)`, zero-extended to 32 bits (R10, R61). -/
def memRead (m : Memory) (a : Word) (size : Size) : Word :=
  wordOfBytes (readBytes m a (sizeBytes size))

/-- `MemWrite(a, n, v)`: the low n bytes of v (R10, R61). -/
def memWrite (m : Memory) (a : Word) (size : Size) (v : Word) : Memory :=
  writeBytes m a (bytesOfWord v (sizeBytes size))

/-- An address lies in one of the regions (notes/assumptions/2.md). -/
def inRegions (rs : List Region) (a : Nat) : Bool :=
  rs.any fun r => decide (r.base ≤ a) && decide (a < r.base + r.size)

/-- DEV(a) (R68). -/
def isDev (p : Params) (a : Word) : Bool := inRegions p.dev a.toNat

/-- CODE_REGION(a) (R77). -/
def isCode (p : Params) (a : Word) : Bool := inRegions p.codeRegion a.toNat

/-- DMA_OK(a, n) (R70, R246). -/
def dmaOk (p : Params) (a : Word) : Size → Bool
  | .byte => inRegions p.dmaOk1 a.toNat
  | .half => inRegions p.dmaOk2 a.toNat
  | .word => inRegions p.dmaOk4 a.toNat

/-- Some byte of `a .. a+n-1` satisfies the predicate. -/
def anyByte (f : Word → Bool) (a : Word) : Nat → Bool
  | 0 => false
  | n + 1 => f a || anyByte f (a + 1) n

/-- The address is a multiple of the size (R64, R65). -/
def aligned (a : Word) (size : Size) : Bool := decide (a.toNat % sizeBytes size = 0)

/-- The bytes a beat reads: a device byte is a fresh draw, any other the byte of `Mem` (R68, R245).
Answers the bytes and the next draw's number. -/
def beatLoad (p : Params) (m : Memory) (k : Nat) (a : Word) : Nat → List Byte × Nat
  | 0 => ([], k)
  | n + 1 =>
    if isDev p a then
      let r := beatLoad p m (k + 1) (a + 1) n
      (Config.freeByte k :: r.1, r.2)
    else
      let r := beatLoad p m k (a + 1) n
      (readByte m a.toNat :: r.1, r.2)

/-- The bytes a beat writes: a device byte leaves `Mem` unchanged (R68, R245). -/
def beatStore (p : Params) (m : Memory) (a : Word) : List Byte → Memory
  | [] => m
  | b :: bs => beatStore p (if isDev p a then m else writeByte m a.toNat b) (a + 1) bs

/-! ### Channels (10_state.md) -/

/-- `ch[c]`, with `status[c]` among its fields (R9). -/
def State.ch (s : State) (c : Chan) : Channel := s.chans[c.toNat]'c.isLt

/-- Write a channel's fields (R9). -/
def State.setCh (s : State) (c : Chan) (x : Channel) : State :=
  { s with chans := s.chans.set c.toNat x c.isLt }

/-- The 32 values of a channel field. -/
def allChans : List Chan := (List.range 32).map (BitVec.ofNat 5)

/-- Channel c exists: `0 <= c < N` (R21). -/
def chanValid (p : Params) (c : Chan) : Bool := decide (c.toNat < p.numChannels)

/-- Some channel that exists satisfies the predicate. -/
def existsChan (p : Params) (f : Chan → Bool) : Bool := allChans.any fun c => chanValid p c && f c

/-- The first SPLIT gives every channel that exists the tag Uninitialized (R120). -/
def splitChannels (p : Params) (v : Vector Channel 32) : Vector Channel 32 :=
  v.mapFinIdx fun i ch _ => if i < p.numChannels then { ch with status := .uninitialized } else ch

/-- An address lies in a bound range of `len` bytes from `start`, modulo 2^32 (R171). -/
def inRange (start : Word) (len : Nat) (a : Word) : Bool := decide ((a - start).toNat < len)

/-- The length of a channel's range at an end that advances or stays (R171). -/
def rangeLen (ch : Channel) (inc : Bool) : Nat :=
  sizeBytes ch.dSize * (if inc then ch.dCnt.toNat else 1)

/-- SR(c) (R171). -/
def inSourceRange (ch : Channel) (a : Word) : Bool :=
  ch.bound && inRange ch.dSrc (rangeLen ch ch.dSinc) a

/-- DR(c) (R171). -/
def inDestRange (ch : Channel) (a : Word) : Bool :=
  ch.bound && inRange ch.dDst (rangeLen ch ch.dDinc) a

/-- `race_write(a, n)` (R178). -/
def raceWrite (s : State) (a : Word) (n : Nat) : Bool :=
  existsChan s.params fun c =>
    decide ((s.ch c).status = .busy)
      && anyByte (fun x => inSourceRange (s.ch c) x || inDestRange (s.ch c) x) a n

/-- `race_read(a, n)` (R178). -/
def raceRead (s : State) (a : Word) (n : Nat) : Bool :=
  existsChan s.params fun c =>
    decide ((s.ch c).status = .busy) && anyByte (inDestRange (s.ch c)) a n

/-! ### Contexts (R34) -/

/-- The context that runs: Isr while a handler is active, else Main (R315). -/
def State.ctx (s : State) : Ctx := if s.isrActive.isSome then .isr else .main

/-- The state of a context. -/
def State.ctxOf (s : State) : Ctx → CtxState
  | .main => s.main
  | .isr => s.isr

/-- Write the state of a context. -/
def State.setCtx (s : State) (x : Ctx) (v : CtxState) : State :=
  match x with
  | .main => { s with main := v }
  | .isr => { s with isr := v }

/-- The running context's own state. -/
def State.cur (s : State) : CtxState := s.ctxOf s.ctx

/-- `pc[ctx] <- pc[ctx] + k` (R9). -/
def State.advance (s : State) (k : Nat) : State :=
  s.setCtx s.ctx { s.cur with pc := s.cur.pc + k }

/-- `RES[ctx] <- v` (R9). -/
def State.setRes (s : State) (v : Word) : State := s.setCtx s.ctx { s.cur with res := v }

/-- `hold[ctx] <- h` (R9). -/
def State.setHold (s : State) (h : Option Hold) : State := s.setCtx s.ctx { s.cur with hold := h }

/-- `cs_stack[ctx] <- l` (R38). -/
def State.setCsStack (s : State) (l : List Bool) : State :=
  s.setCtx s.ctx { s.cur with csStack := l }

/-- The program a context runs: P_MAIN, or H(v) of the active vector (R34, R312). -/
def State.program (s : State) : List Word :=
  match s.isrActive with
  | none => s.params.pMain
  | some v => s.params.handlers[v]

/-! ### The log (R37) -/

/-- A one-bit field's value as the log records it. -/
def bitValue (b : Bool) : Word := if b then 1 else 0

/-- `log W(c, F, v)`. -/
def State.logWrite (s : State) (c : Chan) (f : PortField) (v : Word) : State :=
  { s with log := s.log ++ [.write c f (.val v)] }

/-- `log R(c, F, v)`. -/
def State.logRead (s : State) (c : Chan) (f : PortField) (v : Word) : State :=
  { s with log := s.log ++ [.read c f (.val v)] }

/-- `log W(c, DESC, (s, d, cnt, ctl))` (R170). -/
def State.logDesc (s : State) (c : Chan) (src dst cnt ctl : Word) : State :=
  { s with log := s.log ++ [.write c .desc (.desc src dst cnt ctl)] }

/-! ### Faults (R300) -/

/-- The fault's number (R301). -/
def faultNumber : FaultCode → Nat
  | .illegalCommand => 1
  | .badChannel => 2
  | .notOwner => 3
  | .notSplit => 4
  | .illegalState => 5
  | .badDescriptor => 6
  | .misaligned => 7
  | .notBound => 8
  | .bufferRace => 9
  | .unguardedAccess => 10
  | .cellEmpty => 11
  | .reentrantBorrow => 12
  | .notBorrowed => 13
  | .borrowOutlivesCS => 14
  | .csUnderflow => 15
  | .iretOutsideIsr => 16
  | .csOpenAtIret => 17
  | .noIret => 18
  | .codeWrite => 19
  | .deviceAccess => 20

/-- The record of a command's fault: `(code, (ctx, pc[ctx], w[, extra]))`. -/
def commandFault (s : State) (code : FaultCode) (w : Word) (extra : Option Status) : FaultRecord :=
  ⟨code, .command s.ctx s.cur.pc w extra⟩

/-- Set the sticky fault and nothing else: `raise` has no other effect (R10, R300). -/
def State.withFault (s : State) (r : FaultRecord) : State := { s with fault := some r }

/-- `raise Fault(code, (ctx, pc[ctx], w))` of a command. -/
def raise (s : State) (code : FaultCode) (w : Word) : StepResult :=
  .next (s.withFault (commandFault s code w none))

/-! ### Ownership and the channel checks -/

/-- `owner(ctx)` (R225). -/
def owner (s : State) (x : Ctx) : Bool :=
  (decide (x = .main) && decide (s.ctrlLoc = .main))
    || (decide (s.ctrlLoc = .cell) && decide (s.borrowedBy = some x))

/-- `chan_checks(ctx, c, S)` (R109): the first check that fails, in the rule's order. -/
def chanFault (s : State) (w : Word) (c : Chan) (allowed : Status → Bool) : Option FaultRecord :=
  if chanValid s.params c = false then some (commandFault s .badChannel w none)
  else if owner s s.ctx = false then some (commandFault s .notOwner w none)
  else if s.split = false then some (commandFault s .notSplit w none)
  else if allowed (s.ch c).status = false then
    some (commandFault s .illegalState w (some (s.ch c).status))
  else none

/-- Run a command's effect after its channel checks (R109). -/
def onChannel (s : State) (w : Word) (c : Chan) (allowed : Status → Bool) (k : StepResult) :
    StepResult :=
  match chanFault s w c allowed with
  | some r => .next (s.withFault r)
  | none => k

/-- The tag sets the rules name. -/
def onlyUninitialized (t : Status) : Bool := decide (t = .uninitialized)

/-- `{Ready}`. -/
def onlyReady (t : Status) : Bool := decide (t = .ready)

/-- `{Busy}`. -/
def onlyBusy (t : Status) : Bool := decide (t = .busy)

/-- ANY = {Uninitialized, Ready, Busy} (42_interrupt_flag_decoder.md). -/
def anyStatus (_ : Status) : Bool := true

/-! ### Entering and leaving the interrupt context -/

/-- Taking an interrupt (R313): the vector becomes active, its latch is cleared, the interrupt
context starts afresh, and nothing of the main context changes. `primask` is not changed (R211). -/
def takeInterrupt (s : State) (v : VecNum) : State :=
  { s with
    isrActive := some v
    nvicPend := s.nvicPend.set v.val false
    isr := { pc := 0, res := 0, hold := none, csStack := [] } }

/-- Returning from the handler (R227, R317): the main context goes on from its kept state and
`primask` is not changed. -/
def returnFromInterrupt (s : State) : State := { s with isrActive := none }

end Sys2Proof.Machine
end

