-- ==== Sys2Proof/Machine/Flags.lean ====
section
/-! DEFINITION. Every computation on INTFLAG and INTEN, the interrupt lines they drive, and the
pending latches (42_interrupt_flag_decoder.md, 60_exceptions.md R310, R311). -/

namespace Sys2Proof.Machine

/-- TERR, bit 0 (R31). -/
def flagTerr : FlagSet := 0b001

/-- TCMPL, bit 1 (R31). -/
def flagTcmpl : FlagSet := 0b010

/-- SUSP, bit 2 (R31). -/
def flagSusp : FlagSet := 0b100

/-- A flag set as a logged or returned 32-bit value. -/
def flagsValue (f : FlagSet) : Word := f.zeroExtend 32

/-- `INTFLAG & MASK`: what CHKCLR returns and clears (R192). -/
def requestedFlags (f mask : FlagSet) : FlagSet := f &&& mask

/-- Write-1-to-clear of exactly r (R192). -/
def clearFlags (f r : FlagSet) : FlagSet := f &&& ~~~r

/-- The decoder's report (R194). -/
inductive CallbackStatus where
  | transferComplete
  | transferError
  | transferSuspended
deriving DecidableEq, Repr

/-- The code CALLBACK writes to RES (R194). -/
def callbackCode : CallbackStatus → Word
  | .transferComplete => 0
  | .transferError => 1
  | .transferSuspended => 2

/-- The decoder (R195): complete before error before suspended; with no flag set it reports an error
and clears nothing. Answers the report and the one flag it clears, if any. -/
def decodeFlags (f : FlagSet) : CallbackStatus × Option FlagSet :=
  if f.getLsbD 1 then (.transferComplete, some flagTcmpl)
  else if f.getLsbD 0 then (.transferError, some flagTerr)
  else if f.getLsbD 2 then (.transferSuspended, some flagSusp)
  else (.transferError, none)

/-- `line(c)`: some enabled flag is set (R310). -/
def channelLine (ch : Channel) : Bool := decide (ch.intflag &&& ch.inten ≠ 0)

/-- `route(c)`: channel c's own vector when c < V, else the shared vector V (R310). -/
def routeOf (p : Params) (c : Chan) : Nat :=
  if c.toNat < p.numVectors then c.toNat else p.numVectors

/-- `vline(v)`: the line of some channel routed to v is high (R310). -/
def vectorLine (s : State) (v : VecNum) : Bool :=
  existsChan s.params fun c => decide (routeOf s.params c = v.val) && channelLine (s.ch c)

/-- Vector v exists: 0 <= v <= V (R310). -/
def vectorValid (p : Params) (v : VecNum) : Bool := decide (v.val ≤ p.numVectors)

/-- The pending latch at the end of a step (R311): every vector that is not active and whose line is
high becomes pending; no latch is cleared. -/
def latchPending (s : State) : State :=
  { s with
    nvicPend := s.nvicPend.mapFinIdx fun i pend h =>
      pend
        || (vectorValid s.params ⟨i, h⟩ && decide (s.isrActive ≠ some ⟨i, h⟩)
          && vectorLine s ⟨i, h⟩) }

/-- The end of a step of an agent: the latches follow the lines (R311), except that a step that
raised a fault has no other effect (R300, notes/assumptions/11.md). -/
def settle : StepResult → StepResult
  | .next t => .next (if t.fault.isSome then t else latchPending t)
  | .fault f => .fault f
  | .refused r => .refused r

end Sys2Proof.Machine
end

