-- ==== Sys2Proof/Machine/Operands.lean ====
section
/-! DEFINITION. The operand forms: what the operand bits of a command word and the argument words
mean (30_encoding.md R93 to R101). -/

namespace Sys2Proof.Machine

/-- SIZE and BEATSIZE: 0 byte, 1 halfword, 2 word; 3 is reserved (R98, R100). -/
def sizeOfBits (b : BitVec 2) : Option Size :=
  if b = 0 then some .byte
  else if b = 1 then some .half
  else if b = 2 then some .word
  else none

/-- The number of a size (R35). -/
def sizeCode : Size → BitVec 2
  | .byte => 0
  | .half => 1
  | .word => 2

/-- TRIGACT: 0 BEAT, 1 BURST, 2 TRANSACTION; 3 is reserved (R95). -/
def trigActOfBits (b : BitVec 2) : Option TrigAct :=
  if b = 0 then some .beat
  else if b = 1 then some .burst
  else if b = 2 then some .transaction
  else none

/-- The number of a trigger action (R26). -/
def trigActCode : TrigAct → BitVec 2
  | .beat => 0
  | .burst => 1
  | .transaction => 2

/-- A BIND descriptor block whose words are legal (R100). -/
structure Descriptor where
  src : Word
  dst : Word
  cnt : BitVec 16
  size : Size
  sinc : Bool
  dinc : Bool
deriving DecidableEq, Repr

/-- The descriptor the four argument words form; none is BadDescriptor (R100, R170): BTCNT[31:16] or
BTCTRL[31:4] not 0, BTCNT = 0, or BEATSIZE = 3. -/
def descriptorOf (src dst cnt ctl : Word) : Option Descriptor :=
  if cnt.extractLsb' 16 16 ≠ 0 ∨ cnt.extractLsb' 0 16 = 0 ∨ ctl.extractLsb' 4 28 ≠ 0 then none
  else
    match sizeOfBits (ctl.extractLsb' 0 2) with
    | none => none
    | some size =>
      some ⟨src, dst, cnt.extractLsb' 0 16, size, ctl.getLsbD 2, ctl.getLsbD 3⟩

/-- Both addresses are multiples of the beat size (R64, R170). -/
def Descriptor.isAligned (d : Descriptor) : Bool := aligned d.src d.size && aligned d.dst d.size

/-- The channel fields BIND writes (R170). -/
def bindChannel (ch : Channel) (d : Descriptor) : Channel :=
  { ch with
    bound := true
    dSrc := d.src, dDst := d.dst, dCnt := d.cnt
    dSize := d.size, dSinc := d.sinc, dDinc := d.dinc
    rem := d.cnt, curSrc := d.src, curDst := d.dst }

end Sys2Proof.Machine
end

