-- ==== Sys2Proof/Machine/ChannelFsm.lean ====
section
/-! DEFINITION. The commands of 40_channel_state_machine.md: SPLIT, INIT, RESET, SETBURST, SETTHR,
START, XFERDONE, FREE, RESTART. A blocking command's meaning is its issue step; its poll steps are in
Machine/Poll.lean. -/

namespace Sys2Proof.Machine

/-- SPLIT (R120). A second SPLIT changes nothing but the command pointer. -/
def execSplit (s : State) : StepResult :=
  if owner s s.ctx = false then raise s .notOwner (commandWord .split)
  else if s.split = false then
    .next (({ s with split := true, chans := splitChannels s.params s.chans } : State).advance 1)
  else .next (s.advance 1)

/-- The issue of a software reset (R121, R125): log the write, set SWRST, park the context. -/
def issueReset (s : State) (c : Chan) (h : Hold) : State :=
  ((s.logWrite c .swrst 1).setCh c { s.ch c with swrst := true }).setHold (some h)

/-- INIT, issue step (R121). -/
def execInit (c : Chan) (lvl : BitVec 2) (s : State) : StepResult :=
  onChannel s (commandWord (.init c lvl)) c onlyUninitialized
    (.next (issueReset s c (.initWait c lvl)))

/-- RESET, issue step (R125). -/
def execReset (c : Chan) (s : State) : StepResult :=
  onChannel s (commandWord (.reset c)) c onlyReady (.next (issueReset s c (.resetWait c)))

/-- SETBURST (R128); illegal without HAS_BURST_FIFO (R103 e). -/
def execSetburst (c : Chan) (blen : BitVec 4) (s : State) : StepResult :=
  let w := commandWord (.setburst c blen)
  if s.params.hasBurstFifo = false then raise s .illegalCommand w
  else
    onChannel s w c onlyReady
      (.next (((s.logWrite c .burstlen (blen.zeroExtend 32)).setCh c
        { s.ch c with burstlen := blen }).advance 1))

/-- SETTHR (R131); illegal without HAS_BURST_FIFO (R103 e). -/
def execSetthr (c : Chan) (thr : BitVec 2) (s : State) : StepResult :=
  let w := commandWord (.setthr c thr)
  if s.params.hasBurstFifo = false then raise s .illegalCommand w
  else
    onChannel s w c onlyReady
      (.next (((s.logWrite c .threshold (thr.zeroExtend 32)).setCh c
        { s.ch c with threshold := thr }).advance 1))

/-- The log of a START (R134): W TRIGSRC, W TRIGACT, W ENABLE, and W SWTRIG with the DISABLE
source. -/
def logStart (s : State) (c : Chan) (src : BitVec 7) (act : TrigAct) : State :=
  let t := ((s.logWrite c .trigsrc (src.zeroExtend 32)).logWrite c .trigact
    ((trigActCode act).zeroExtend 32)).logWrite c .enable 1
  if src = 0 then t.logWrite c .swtrig 1 else t

/-- The channel after a START (R134). -/
def startChannel (ch : Channel) (src : BitVec 7) (act : TrigAct) : Channel :=
  { ch with
    trigsrc := src, trigact := act, enable := true
    swtrig := if src = 0 then true else ch.swtrig
    status := .busy }

/-- START (R134); TRIGACT = 3 is illegal (R103 c). -/
def execStart (c : Chan) (trigsrc : BitVec 7) (trigact : BitVec 2) (s : State) : StepResult :=
  let w := commandWord (.start c trigsrc trigact)
  match trigActOfBits trigact with
  | none => raise s .illegalCommand w
  | some act =>
    onChannel s w c onlyReady
      (.next (((logStart s c trigsrc act).setCh c (startChannel (s.ch c) trigsrc act)).advance 1))

/-- XFERDONE (R138): RES is 1 when ENABLE reads 0. -/
def execXferdone (c : Chan) (s : State) : StepResult :=
  onChannel s (commandWord (.xferdone c)) c onlyBusy
    (.next (((s.logRead c .enable (bitValue (s.ch c).enable)).setRes
      (if (s.ch c).enable then 0 else 1)).advance 1))

/-- A write of 0 to ENABLE (R25, R141): a request the engine acknowledges, if ENABLE reads 1. -/
def requestDisable (ch : Channel) : Channel :=
  { ch with disableReq := if ch.enable then true else ch.disableReq }

/-- FREE, issue step (R141). -/
def execFree (c : Chan) (s : State) : StepResult :=
  onChannel s (commandWord (.free c)) c onlyBusy
    (.next (((s.logWrite c .enable 0).setCh c (requestDisable (s.ch c))).setHold
      (some (.freeWait c))))

/-- The channel after a RESTART (R146, R150): a suspended channel resumes, a stopped one re-runs its
descriptor from the start, any other is unchanged. -/
def restartChannel (ch : Channel) : Channel :=
  if ch.suspended = true then { ch with suspended := false }
  else if ch.enable = false then
    if ch.bound = true then
      { ch with enable := true, rem := ch.dCnt, curSrc := ch.dSrc, curDst := ch.dDst }
    else { ch with enable := true }
  else ch

/-- RESTART (R146). -/
def execRestart (c : Chan) (s : State) : StepResult :=
  onChannel s (commandWord (.restart c)) c onlyBusy
    (.next (((s.logWrite c .enable 1).setCh c (restartChannel (s.ch c))).advance 1))

end Sys2Proof.Machine
end

