-- ==== Sys2Proof/Machine/Interrupts.lean ====
section
/-! DEFINITION. The commands of 42_interrupt_flag_decoder.md: INTENSET, INTENCLR, CHKCLR, CALLBACK. -/

namespace Sys2Proof.Machine

/-- INTENSET (R190). -/
def execIntenset (c : Chan) (mask : FlagSet) (s : State) : StepResult :=
  onChannel s (commandWord (.intenset c mask)) c anyStatus
    (.next (((s.logWrite c .intenset (flagsValue mask)).setCh c
      { s.ch c with inten := (s.ch c).inten ||| mask }).advance 1))

/-- INTENCLR (R191). -/
def execIntenclr (c : Chan) (mask : FlagSet) (s : State) : StepResult :=
  onChannel s (commandWord (.intenclr c mask)) c anyStatus
    (.next (((s.logWrite c .intenclr (flagsValue mask)).setCh c
      { s.ch c with inten := clearFlags (s.ch c).inten mask }).advance 1))

/-- CHKCLR (R192): one step reads INTFLAG, clears exactly the requested flags that were set, and
returns them. -/
def execChkclr (c : Chan) (mask : FlagSet) (s : State) : StepResult :=
  let f := (s.ch c).intflag
  let r := requestedFlags f mask
  onChannel s (commandWord (.chkclr c mask)) c anyStatus
    (.next (((((s.logRead c .intflag (flagsValue f)).logWrite c .intflag (flagsValue r)).setCh c
      { s.ch c with intflag := clearFlags f r }).setRes (flagsValue r)).advance 1))

/-- CALLBACK (R195): one step reads INTFLAG, clears the one flag it reports, and returns the report. -/
def execCallback (c : Chan) (s : State) : StepResult :=
  let f := (s.ch c).intflag
  let read := s.logRead c .intflag (flagsValue f)
  let cleared :=
    match (decodeFlags f).2 with
    | some r =>
      (read.logWrite c .intflag (flagsValue r)).setCh c { s.ch c with intflag := clearFlags f r }
    | none => read
  onChannel s (commandWord (.callback c)) c anyStatus
    (.next ((cleared.setRes (callbackCode (decodeFlags f).1)).advance 1))

end Sys2Proof.Machine
end

