-- ==== Sys2Proof/Machine/Registry.lean ====
section
/-! DEFINITION. The commands of 43_shared_controller_registry.md: CSENTER, CSEXIT, CELLPUT, CELLBORROW,
CELLRELEASE, IRET. -/

namespace Sys2Proof.Machine

/-- CSENTER (R210): save the mask, disable maskable interrupts. -/
def execCsenter (s : State) : StepResult :=
  .next (({ s.setCsStack (s.cur.csStack ++ [s.primask]) with primask := true } : State).advance 1)

/-- CSEXIT (R212): restore the mask the section saved, unless the section's borrow is still held. -/
def execCsexit (s : State) : StepResult :=
  match s.cur.csStack.getLast? with
  | none => raise s .csUnderflow (commandWord .csexit)
  | some saved =>
    if s.borrowedBy = some s.ctx ∧ s.cur.csStack.length = s.borrowDepth then
      raise s .borrowOutlivesCS (commandWord .csexit)
    else
      .next (({ s.setCsStack s.cur.csStack.dropLast with primask := saved } : State).advance 1)

/-- CELLPUT (R215): the main context moves the controller into the slot, once. -/
def execCellput (s : State) : StepResult :=
  if s.cur.csStack = [] then raise s .unguardedAccess (commandWord .cellput)
  else if s.ctx ≠ .main ∨ s.ctrlLoc ≠ .main then raise s .notOwner (commandWord .cellput)
  else .next (({ s with ctrlLoc := .cell } : State).advance 1)

/-- CELLBORROW (R217). -/
def execCellborrow (s : State) : StepResult :=
  if s.cur.csStack = [] then raise s .unguardedAccess (commandWord .cellborrow)
  else if s.ctrlLoc ≠ .cell then raise s .cellEmpty (commandWord .cellborrow)
  else if s.borrowedBy ≠ none then raise s .reentrantBorrow (commandWord .cellborrow)
  else
    .next (({ s with borrowedBy := some s.ctx, borrowDepth := s.cur.csStack.length } : State).advance 1)

/-- CELLRELEASE (R220). -/
def execCellrelease (s : State) : StepResult :=
  if s.borrowedBy ≠ some s.ctx then raise s .notBorrowed (commandWord .cellrelease)
  else .next (({ s with borrowedBy := none, borrowDepth := 0 } : State).advance 1)

/-- IRET (R227): the handler returns, with its borrow released and its sections closed. -/
def execIret (s : State) : StepResult :=
  if s.ctx ≠ .isr then raise s .iretOutsideIsr (commandWord .iret)
  else if s.borrowedBy = some .isr then raise s .borrowOutlivesCS (commandWord .iret)
  else if s.isr.csStack ≠ [] then raise s .csOpenAtIret (commandWord .iret)
  else .next (returnFromInterrupt s)

end Sys2Proof.Machine
end

