-- ==== Sys2Proof/Machine/Transfer.lean ====
section
/-! DEFINITION. The commands of 41_transfer_coordinator.md: BIND, WAIT, MEMRD, MEMWR. -/

namespace Sys2Proof.Machine

/-- BIND (R170): BadDescriptor before Misaligned, both after the channel checks. -/
def execBind (c : Chan) (src dst cnt ctl : Word) (s : State) : StepResult :=
  let w := commandWord (.bind c src dst cnt ctl)
  onChannel s w c onlyReady
    (match descriptorOf src dst cnt ctl with
     | none => raise s .badDescriptor w
     | some d =>
       if d.isAligned = false then raise s .misaligned w
       else
         .next (((s.logDesc c src dst cnt ctl).setCh c (bindChannel (s.ch c) d)).advance 5))

/-- WAIT, issue step (R172). -/
def execWait (c : Chan) (s : State) : StepResult :=
  let w := commandWord (.wait c)
  onChannel s w c onlyBusy
    (if (s.ch c).bound = false then raise s .notBound w
     else .next (s.setHold (some (.waitPoll c))))

/-- MEMRD (R176): Misaligned, DeviceAccess, BufferRace, in that order; SIZE = 3 is illegal (R103 d). -/
def execMemrd (size : BitVec 2) (addr : Word) (s : State) : StepResult :=
  let w := commandWord (.memrd size addr)
  match sizeOfBits size with
  | none => raise s .illegalCommand w
  | some n =>
    if aligned addr n = false then raise s .misaligned w
    else if anyByte (isDev s.params) addr (sizeBytes n) = true then raise s .deviceAccess w
    else if raceRead s addr (sizeBytes n) = true then raise s .bufferRace w
    else .next ((s.setRes (memRead s.mem addr n)).advance 2)

/-- MEMWR (R177): the checks of MEMRD with `race_write`; the bits of the data word above the size are
ignored (R101). -/
def execMemwr (size : BitVec 2) (addr data : Word) (s : State) : StepResult :=
  let w := commandWord (.memwr size addr data)
  match sizeOfBits size with
  | none => raise s .illegalCommand w
  | some n =>
    if aligned addr n = false then raise s .misaligned w
    else if anyByte (isDev s.params) addr (sizeBytes n) = true then raise s .deviceAccess w
    else if raceWrite s addr (sizeBytes n) = true then raise s .bufferRace w
    else .next (({ s with mem := memWrite s.mem addr n data } : State).advance 3)

end Sys2Proof.Machine
end

