-- ==== Sys2Proof/Machine/Dispatch.lean ====
section
/-! DEFINITION. The dispatch: one arm per constructor of `Instr`, each one call of its meaning. -/

namespace Sys2Proof.Machine

-- the issue step of each command, in the running context
def exec (i : Instr) (s : State) : Host.Outcome State Fault Refusal :=
  match i with
  | .split => Sys2Proof.Machine.execSplit s
  | .init c lvl => Sys2Proof.Machine.execInit c lvl s
  | .reset c => Sys2Proof.Machine.execReset c s
  | .setburst c blen => Sys2Proof.Machine.execSetburst c blen s
  | .setthr c thr => Sys2Proof.Machine.execSetthr c thr s
  | .start c trigsrc trigact => Sys2Proof.Machine.execStart c trigsrc trigact s
  | .xferdone c => Sys2Proof.Machine.execXferdone c s
  | .free c => Sys2Proof.Machine.execFree c s
  | .restart c => Sys2Proof.Machine.execRestart c s
  | .bind c src dst cnt ctl => Sys2Proof.Machine.execBind c src dst cnt ctl s
  | .wait c => Sys2Proof.Machine.execWait c s
  | .memrd size addr => Sys2Proof.Machine.execMemrd size addr s
  | .memwr size addr data => Sys2Proof.Machine.execMemwr size addr data s
  | .intenset c mask => Sys2Proof.Machine.execIntenset c mask s
  | .intenclr c mask => Sys2Proof.Machine.execIntenclr c mask s
  | .chkclr c mask => Sys2Proof.Machine.execChkclr c mask s
  | .callback c => Sys2Proof.Machine.execCallback c s
  | .csenter => Sys2Proof.Machine.execCsenter s
  | .csexit => Sys2Proof.Machine.execCsexit s
  | .cellput => Sys2Proof.Machine.execCellput s
  | .cellborrow => Sys2Proof.Machine.execCellborrow s
  | .cellrelease => Sys2Proof.Machine.execCellrelease s
  | .iret => Sys2Proof.Machine.execIret s

end Sys2Proof.Machine
end

