-- ==== Sys2Proof/Machine/Port.lean ====
section
/-! DEFINITION. The register port as words (10_state.md R23, R33): the register map's bit positions,
reserved bits reading 0, and the read-only STATUS view. No command reaches the port by address
(20_memory.md R60); the fields are the state. -/

namespace Sys2Proof.Machine

/-- The registers of a channel's port (R23). DESC at offset 0x18 has no word layout. -/
inductive PortReg where
  | ctrl
  | prilvl
  | inten
  | intflag
  | status
  | swtrig
  | desc
deriving DecidableEq, Repr

/-- The register's offset in the port (R23). -/
def portOffset : PortReg → Word
  | .ctrl => 0x00
  | .prilvl => 0x04
  | .inten => 0x08
  | .intflag => 0x0C
  | .status => 0x10
  | .swtrig => 0x14
  | .desc => 0x18

/-- The register's address: REG_BASE + 0x20*c + offset (R23). -/
def portAddress (p : Params) (c : Chan) (r : PortReg) : Word :=
  p.regBase + 0x20 * c.zeroExtend 32 + portOffset r

/-- BURSTLEN as it reads: hardwired 0 without HAS_BURST_FIFO (R27). -/
def burstlenField (p : Params) (ch : Channel) : BitVec 4 := if p.hasBurstFifo then ch.burstlen else 0

/-- THRESHOLD as it reads: hardwired 0 without HAS_BURST_FIFO (R27). -/
def thresholdField (p : Params) (ch : Channel) : BitVec 2 :=
  if p.hasBurstFifo then ch.threshold else 0

/-- BL(c) = BURSTLEN + 1 (R27). -/
def burstBeats (p : Params) (ch : Channel) : Nat := (burstlenField p ch).toNat + 1

/-- CTRL (R23): SWRST, ENABLE, TRIGSRC, TRIGACT, BURSTLEN, THRESHOLD, every other bit 0. -/
def ctrlWord (p : Params) (ch : Channel) : Word :=
  0#2 ++ thresholdField p ch ++ burstlenField p ch ++ 0#2 ++ trigActCode ch.trigact ++ 0#5
    ++ ch.trigsrc ++ 0#6 ++ BitVec.ofBool ch.enable ++ BitVec.ofBool ch.swrst

/-- STATUS.PEND (R33). -/
def statusPend (ch : Channel) : Bool := ch.trigPend

/-- STATUS.BUSY: auth > 0 (R33). -/
def statusBusy (ch : Channel) : Bool := decide (ch.auth ≠ 0)

/-- STATUS.SUSP (R33). -/
def statusSusp (ch : Channel) : Bool := ch.suspended

/-- STATUS.SYNCBUSY: a reset or a disable has not yet taken effect (R33). -/
def statusSyncbusy (ch : Channel) : Bool := ch.swrst || ch.disableReq

/-- STATUS (R33): computed, never stored. -/
def statusWord (ch : Channel) : Word :=
  0#28 ++ BitVec.ofBool (statusSyncbusy ch) ++ BitVec.ofBool (statusSusp ch)
    ++ BitVec.ofBool (statusBusy ch) ++ BitVec.ofBool (statusPend ch)

/-- A register of the port as a word; DESC has no word layout in R23 and reads as none. -/
def portWord (s : State) (c : Chan) : PortReg → Option Word
  | .ctrl => some (ctrlWord s.params (s.ch c))
  | .prilvl => some ((s.ch c).prilvl.zeroExtend 32)
  | .inten => some (flagsValue (s.ch c).inten)
  | .intflag => some (flagsValue (s.ch c).intflag)
  | .status => some (statusWord (s.ch c))
  | .swtrig => some (bitValue (s.ch c).swtrig)
  | .desc => none

end Sys2Proof.Machine
end

