-- ==== Sys2Proof/Machine/Engine.lean ====
section
/-! DEFINITION. The DMA engine agent of a channel (44_dma_engine_agent.md): the precondition and the
effect of each engine step. -/

namespace Sys2Proof.Machine

/-! ### Channel effects (R240, R241, R244) -/

/-- The software reset: every field of the port, the hidden state and the descriptor return to the
values of R44; PRILVL and the lifecycle tag are kept (R240). -/
def resetChannel (ch : Channel) : Channel := { status := ch.status, prilvl := ch.prilvl }

/-- `stop(c)` (R241). -/
def stopChannel (ch : Channel) : Channel :=
  { ch with
    enable := false, disableReq := false, suspended := false
    auth := 0, burstLeft := 0, trigPend := false, swtrig := false }

/-- Set flags of INTFLAG (R31). -/
def setFlags (ch : Channel) (f : FlagSet) : Channel := { ch with intflag := ch.intflag ||| f }

/-- Set TERR and stop: a transfer error (R241, R246, R249). -/
def failChannel (ch : Channel) : Channel := stopChannel (setFlags ch flagTerr)

/-- `k(c)`: how many beats one trigger releases (R244). -/
def releaseBeats (p : Params) (ch : Channel) : BitVec 16 :=
  match ch.trigact with
  | .beat => 1
  | .burst => BitVec.ofNat 16 (min (burstBeats p ch) ch.rem.toNat)
  | .transaction => ch.rem

/-- `Trigger(c)` (R241): without a descriptor a transfer error; else release beats, or hold the one
trigger that can be held. -/
def triggerChannel (p : Params) (ch : Channel) : Channel :=
  if ch.bound = false then failChannel ch
  else if ch.auth = 0 then { ch with auth := releaseBeats p ch }
  else { ch with trigPend := true }

/-- The beats left in the burst at this beat: a burst starts at a burst boundary (R245). -/
def burstAtBeat (p : Params) (ch : Channel) : BitVec 5 :=
  if ch.burstLeft = 0 then BitVec.ofNat 5 (min (burstBeats p ch) ch.auth.toNat) else ch.burstLeft

/-- The channel after a beat that moved its bytes (R245, R247, R248): addresses and counts advance;
the last beat sets TCMPL and stops; a held trigger is taken when the released beats are used up. -/
def afterBeat (p : Params) (ch : Channel) : Channel :=
  let n : Word := BitVec.ofNat 32 (sizeBytes ch.dSize)
  let moved : Channel :=
    { ch with
      curSrc := if ch.dSinc then ch.curSrc + n else ch.curSrc
      curDst := if ch.dDinc then ch.curDst + n else ch.curDst
      rem := ch.rem - 1
      auth := ch.auth - 1
      burstLeft := burstAtBeat p ch - 1 }
  if moved.rem = 0 then stopChannel (setFlags moved flagTcmpl)
  else if moved.auth = 0 ∧ moved.trigPend = true then
    { moved with trigPend := false, auth := releaseBeats p moved }
  else moved

/-! ### Preconditions (R240 to R253) -/

/-- What every engine step needs: the channel exists and the clock runs (R253). -/
def engineReady (s : State) (c : Chan) : Bool := chanValid s.params c && s.params.clockReady

/-- E_RST(c) (R240). -/
def rstEnabled (s : State) (c : Chan) : Bool := engineReady s c && (s.ch c).swrst

/-- Enabled, not suspended and not disabling: the channel takes triggers (R242, R243). -/
def takesTriggers (ch : Channel) : Bool := ch.enable && !ch.suspended && !ch.disableReq

/-- E_SWT(c) (R242). -/
def swtEnabled (s : State) (c : Chan) : Bool :=
  engineReady s c && takesTriggers (s.ch c) && (s.ch c).swtrig

/-- E_PTRIG(c) (R243). -/
def ptrigEnabled (s : State) (c : Chan) : Bool :=
  engineReady s c && takesTriggers (s.ch c) && decide ((s.ch c).trigsrc ≠ 0)

/-- E_BEAT(c) (R245). -/
def beatEnabled (s : State) (c : Chan) : Bool :=
  engineReady s c && (s.ch c).enable && !(s.ch c).suspended && decide ((s.ch c).auth ≠ 0)
    && (!(s.ch c).disableReq || decide ((s.ch c).burstLeft ≠ 0))

/-- E_ERR(c) (R249). -/
def errEnabled (s : State) (c : Chan) : Bool :=
  engineReady s c && s.params.mayError && (s.ch c).enable && decide ((s.ch c).auth ≠ 0)

/-- E_SUSP(c) (R250). -/
def suspEnabled (s : State) (c : Chan) : Bool :=
  engineReady s c && s.params.maySuspend && takesTriggers (s.ch c)
    && decide ((s.ch c).burstLeft = 0)

/-- E_DACK(c) (R252). -/
def dackEnabled (s : State) (c : Chan) : Bool :=
  engineReady s c && (s.ch c).disableReq && decide ((s.ch c).burstLeft = 0)

/-! ### Effects -/

/-- E_RST(c): the reset completes (R240). -/
def engineRst (s : State) (c : Chan) : State := s.setCh c (resetChannel (s.ch c))

/-- E_SWT(c): the software trigger is taken (R242). -/
def engineSwt (s : State) (c : Chan) : State :=
  s.setCh c (triggerChannel s.params { s.ch c with swtrig := false })

/-- E_PTRIG(c): a peripheral trigger (R243). -/
def enginePtrig (s : State) (c : Chan) : State := s.setCh c (triggerChannel s.params (s.ch c))

/-- E_ERR(c): an environment transfer error (R249). -/
def engineErr (s : State) (c : Chan) : State := s.setCh c (failChannel (s.ch c))

/-- E_SUSP(c): the channel is suspended (R250). -/
def engineSusp (s : State) (c : Chan) : State :=
  s.setCh c { setFlags (s.ch c) flagSusp with suspended := true }

/-- E_DACK(c): the disable is acknowledged, with no flag (R252). -/
def engineDack (s : State) (c : Chan) : State := s.setCh c (stopChannel (s.ch c))

/-- Both ends of the beat are accessible (R246). -/
def beatAccessible (p : Params) (ch : Channel) : Bool :=
  dmaOk p ch.curSrc ch.dSize && dmaOk p ch.curDst ch.dSize

/-- The beat would write a byte of program code (R77, R245). -/
def beatHitsCode (p : Params) (ch : Channel) : Bool :=
  anyByte (fun a => isCode p a && !isDev p a) ch.curDst (sizeBytes ch.dSize)

/-- E_BEAT(c): one beat (R245). An inaccessible end is a transfer error (R246) and is checked before
the code region (R320 b). All the bytes are read before any is written. -/
def engineBeat (s : State) (c : Chan) : State :=
  let ch := s.ch c
  if beatAccessible s.params ch = false then s.setCh c (failChannel ch)
  else if beatHitsCode s.params ch = true then s.withFault ⟨.codeWrite, .engine c ch.curDst⟩
  else
    let loaded := beatLoad s.params s.mem s.drawIdx ch.curSrc (sizeBytes ch.dSize)
    { s.setCh c (afterBeat s.params ch) with
      mem := beatStore s.params s.mem ch.curDst loaded.1
      drawIdx := loaded.2 }

end Sys2Proof.Machine
end

