-- ==== Sys2Proof/Machine/Poll.lean ====
section
/-! DEFINITION. The poll steps of the blocking commands (R122, R126, R142, R173): each is one read of
the register bit the command waits on. -/

namespace Sys2Proof.Machine

/-- The end of a hold: the context is free and its command pointer advances (R34, R42). -/
def endHold (s : State) : State := (s.setHold none).advance 1

/-- INIT, poll step (R122). -/
def pollInit (s : State) (c : Chan) (lvl : BitVec 2) : State :=
  let t := s.logRead c .swrst (bitValue (s.ch c).swrst)
  if (s.ch c).swrst = true then t
  else
    endHold ((t.logWrite c .prilvl (lvl.zeroExtend 32)).setCh c
      { s.ch c with prilvl := lvl, status := .ready })

/-- RESET, poll step (R126). -/
def pollReset (s : State) (c : Chan) : State :=
  let t := s.logRead c .swrst (bitValue (s.ch c).swrst)
  if (s.ch c).swrst = true then t
  else endHold (t.setCh c { s.ch c with status := .uninitialized })

/-- FREE, poll step (R142): the channel is Ready again and the buffers are returned. -/
def pollFree (s : State) (c : Chan) : State :=
  let t := s.logRead c .enable (bitValue (s.ch c).enable)
  if (s.ch c).enable = true then t
  else endHold (t.setCh c { s.ch c with status := .ready, bound := false })

/-- WAIT, poll step (R173): when ENABLE reads 0, FREE's issue step follows at once. -/
def pollWait (s : State) (c : Chan) : State :=
  let t := s.logRead c .enable (bitValue (s.ch c).enable)
  if (s.ch c).enable = true then t
  else (t.logWrite c .enable 0).setHold (some (.freeWait c))

/-- The poll step of a hold (R34). -/
def pollStep (s : State) : Hold → State
  | .initWait c lvl => pollInit s c lvl
  | .resetWait c => pollReset s c
  | .freeWait c => pollFree s c
  | .waitPoll c => pollWait s c

end Sys2Proof.Machine
end

