-- ==== Sys2Proof/Machine/Sched.lean ====
section
/-! DEFINITION. The steps of the agents and the scheduler's choice among them (60_exceptions.md R304,
R305, R313, R315), and what the fetch needs to run a given instruction next. -/

namespace Sys2Proof.Machine

/-- The words from the running context's command pointer to the end of its program (R305). -/
def fetchWords (s : State) : List Word := s.program.drop s.cur.pc

/-- The running context issues its next command (R305): fetch, decode, execute. A refused word is
IllegalCommand (R103); a context past its program's end faults NoIret, which only Isr can reach,
since Main has ended there and takes no step (R304). -/
def issueStep (s : State) : StepResult :=
  match fetchWords s with
  | [] => raise s .noIret 0
  | w :: args =>
    match decode (w :: args) with
    | .ok i _ => exec i s
    | .reject _ => raise s .illegalCommand w

/-- The step of the running context: the poll of its hold, else its next command (R34, R305). -/
def contextStep (s : State) : StepResult :=
  match s.cur.hold with
  | some h => .next (pollStep s h)
  | none => issueStep s

/-- The running context can step: a handler always, Main while it is held or its program goes on
(R304, R315). -/
def contextEnabled (s : State) : Bool :=
  decide (s.ctx = .isr) || s.cur.hold.isSome || decide (s.cur.pc < s.program.length)

/-- The interrupt controller can take vector v (R313). -/
def entryEnabled (s : State) (v : VecNum) : Bool :=
  s.isrActive.isNone && !s.primask && vectorValid s.params v && s.nvicPend[v] && s.params.vecEn[v]

/-- The picked step is enabled (R315); with a fault set none is (R300). -/
def pickEnabled (s : State) (p : Pick) : Bool :=
  s.fault.isNone &&
    match p with
    | .context => contextEnabled s
    | .entry v => entryEnabled s v
    | .eRst c => rstEnabled s c
    | .eSwt c => swtEnabled s c
    | .ePtrig c => ptrigEnabled s c
    | .eBeat c => beatEnabled s c
    | .eErr c => errEnabled s c
    | .eSusp c => suspEnabled s c
    | .eDack c => dackEnabled s c

/-- The effect of an enabled pick, before the end of the step. -/
def pickEffect (s : State) : Pick → StepResult
  | .context => contextStep s
  | .entry v => .next (takeInterrupt s v)
  | .eRst c => .next (engineRst s c)
  | .eSwt c => .next (engineSwt s c)
  | .ePtrig c => .next (enginePtrig s c)
  | .eBeat c => .next (engineBeat s c)
  | .eErr c => .next (engineErr s c)
  | .eSusp c => .next (engineSusp s c)
  | .eDack c => .next (engineDack s c)

/-- One step of the picked agent, with the latches of R311 at its end. A pick that is not enabled
moves no agent (notes/assumptions/4.md). -/
def agentStep (p : Pick) (s : State) : StepResult :=
  if pickEnabled s p = true then settle (pickEffect s p) else .next s

/-- The scheduler's choice: the next pending pick, else a free one (R315). -/
def nextPick (s : State) : Pick :=
  match s.sched with
  | p :: _ => p
  | [] => Config.freePick s.pickIdx

/-- The state once the choice is made. -/
def dropPick (s : State) : State :=
  match s.sched with
  | _ :: rest => { s with sched := rest }
  | [] => { s with pickIdx := s.pickIdx + 1 }

/-- One step of the machine (R315): nothing steps once the fault is set (R300). -/
def runStep (s : State) : StepResult :=
  match s.fault with
  | some r => .fault (.sticky r)
  | none => agentStep (nextPick s) (dropPick s)

/-! ### Placing an instruction where the next step fetches it -/

/-- A program with the given words at an index; words missing before the index are 0. -/
def placeWords (prog : List Word) (at_ : Nat) (ws : List Word) : List Word :=
  prog.take at_ ++ List.replicate (at_ - prog.length) 0 ++ ws ++ prog.drop (at_ + ws.length)

/-- Replace the program the running context runs. -/
def State.setProgram (s : State) (prog : List Word) : State :=
  match s.isrActive with
  | none => { s with params := { s.params with pMain := prog } }
  | some v =>
    { s with params := { s.params with handlers := s.params.handlers.set v.val prog } }

/-- The state whose very next step runs the instruction of these words: they stand in the running
program at its command pointer, no hold and no fault keeps the context from fetching, and the
scheduler's next pick is the context (notes/assumptions/10.md). -/
def fetchNext (s : State) (ws : List Word) : State :=
  let t := (s.setProgram (placeWords s.program s.cur.pc ws)).setHold none
  { t with fault := none, sched := .context :: t.sched }

end Sys2Proof.Machine
end

