-- ==== Sys2Proof/Machine/Step.lean ====
section
/-! DEFINITION. The step function, and placing an instruction for the next fetch. -/

namespace Sys2Proof.Machine

/-- One step of the machine. -/
def step (s : State) : Host.Outcome State Fault Refusal := runStep s

/-- The state with the instruction whose table bits are `w` where the next step fetches. -/
def State.withFetchWord (s : State) (nbits w : Nat) : State := fetchNext s (tableWords nbits w)

end Sys2Proof.Machine
end

