-- ==== Sys2Proof/Safety.lean ====
section
/-! DEFINITION. The terms claims use: when a channel command may execute, what a step leaves unchanged,
the invariants of 10_state.md R45, the end of a run (R357), and the fair runs (R254, R313, R315). -/

namespace Sys2Proof.Safety

open Sys2Proof.Machine

/-! ### When a command executes, and how it faults -/

/-- The conditions of R109 under which a command on channel c passes its checks: c exists, the running
context owns the controller, the controller is split, and the channel has the tag. -/
abbrev allows (s : State) (c : Chan) (tag : Status) : Prop :=
  c.toNat < s.params.numChannels ∧ owner s s.ctx = true ∧ s.split = true ∧ (s.ch c).status = tag

/-- The conditions of R109 for a command that is legal in every tag. -/
abbrev allowsAny (s : State) (c : Chan) : Prop :=
  c.toNat < s.params.numChannels ∧ owner s s.ctx = true ∧ s.split = true

/-- The command raises the fault and has no other effect (R10, R300). -/
abbrev raises (i : Instr) (s : State) (code : FaultCode) (extra : Option Status) : Prop :=
  exec i s =
    .next { s with fault := some ⟨code, .command s.ctx s.cur.pc (commandWord i) extra⟩ }

/-- The first three checks of `chan_checks(ctx, c, S)` (R109), in order, before the command's effect:
what a command that is legal in every tag checks. -/
def checksAny (i : Instr) (s : State) (c : Chan) : Prop :=
  (s.params.numChannels ≤ c.toNat → raises i s .badChannel none)
    ∧ (c.toNat < s.params.numChannels → owner s s.ctx = false → raises i s .notOwner none)
    ∧ (c.toNat < s.params.numChannels → owner s s.ctx = true → s.split = false →
        raises i s .notSplit none)

/-- `chan_checks(ctx, c, S)` (R109) with a set of tags: the four faults, in order. -/
def checksFirst (i : Instr) (s : State) (c : Chan) (tags : List Status) : Prop :=
  checksAny i s c
    ∧ (allowsAny s c → (s.ch c).status ∉ tags →
        raises i s .illegalState (some (s.ch c).status))

/-- The channel a command names and the tags its rule allows (R152; 42: ANY). -/
def channelNeeds : Instr → Option (Chan × List Status)
  | .init c _ => some (c, [.uninitialized])
  | .reset c => some (c, [.ready])
  | .setburst c _ => some (c, [.ready])
  | .setthr c _ => some (c, [.ready])
  | .start c _ _ => some (c, [.ready])
  | .xferdone c => some (c, [.busy])
  | .free c => some (c, [.busy])
  | .restart c => some (c, [.busy])
  | .bind c _ _ _ _ => some (c, [.ready])
  | .wait c => some (c, [.busy])
  | .intenset c _ => some (c, [.uninitialized, .ready, .busy])
  | .intenclr c _ => some (c, [.uninitialized, .ready, .busy])
  | .chkclr c _ => some (c, [.uninitialized, .ready, .busy])
  | .callback c => some (c, [.uninitialized, .ready, .busy])
  | .split | .memrd _ _ | .memwr _ _ _ | .csenter | .csexit | .cellput | .cellborrow
  | .cellrelease | .iret => none

/-- SETBURST and SETTHR exist only with HAS_BURST_FIFO (R103 e). -/
def needsBurstFifo : Instr → Bool
  | .setburst _ _ | .setthr _ _ => true
  | .split | .init _ _ | .reset _ | .start _ _ _ | .xferdone _ | .free _ | .restart _
  | .bind _ _ _ _ _ | .wait _ | .memrd _ _ | .memwr _ _ _ | .intenset _ _ | .intenclr _ _
  | .chkclr _ _ | .callback _ | .csenter | .csexit | .cellput | .cellborrow | .cellrelease
  | .iret => false

/-- A command word with the words after it is IllegalCommand, by the clauses of R103, over the
word's bits as numbers. -/
def illegalWord (p : Params) (w : Word) (args : List Word) : Prop :=
  let n := w.toNat
  let opc := n % 64
  -- (a) a reserved opcode
  opc = 0 ∨ 0x18 ≤ opc
  -- (b) a bit the format requires to be 0: formats G, N and D, P and H, M, B, T, S
  ∨ (opc ∈ [0x01, 0x12, 0x13, 0x14, 0x15, 0x16, 0x17] ∧ n / 2 ^ 6 ≠ 0)
  ∨ (opc ∈ [0x03, 0x07, 0x08, 0x09, 0x0A, 0x0B, 0x11] ∧ n / 2 ^ 11 ≠ 0)
  ∨ (opc ∈ [0x02, 0x05] ∧ n / 2 ^ 13 ≠ 0)
  ∨ (opc ∈ [0x0E, 0x0F, 0x10] ∧ n / 2 ^ 14 ≠ 0)
  ∨ (opc = 0x04 ∧ n / 2 ^ 15 ≠ 0)
  ∨ (opc = 0x06 ∧ n / 2 ^ 20 ≠ 0)
  ∨ (opc ∈ [0x0C, 0x0D] ∧ (n / 2 ^ 13 ≠ 0 ∨ n / 2 ^ 6 % 32 ≠ 0))
  -- (c) TRIGACT = 3
  ∨ (opc = 0x06 ∧ n / 2 ^ 18 % 4 = 3)
  -- (d) SIZE = 3
  ∨ (opc ∈ [0x0C, 0x0D] ∧ n / 2 ^ 11 % 4 = 3)
  -- (e) no burst length and no FIFO threshold on this chip
  ∨ (opc ∈ [0x04, 0x05] ∧ p.hasBurstFifo = false)
  -- (f) missing argument words
  ∨ (opc = 0x0A ∧ args.length < 4) ∨ (opc = 0x0C ∧ args.length < 1)
  ∨ (opc = 0x0D ∧ args.length < 2)

/-- The words of a command (R90 to R92): `w = opc | c << 6 | x << 11`, whose fields do not overlap, and
the argument words after it. -/
def encodedAs (i : Instr) (opc c x : Nat) (args : List Word) : Prop :=
  encode i = BitVec.ofNat 32 (opc + c * 2 ^ 6 + x * 2 ^ 11) :: args

/-! ### What a step leaves unchanged -/

/-- The other context. -/
def otherCtx : Ctx → Ctx
  | .main => .isr
  | .isr => .main

/-- The launch parameters (R46) and the model's own fields. -/
def sameLaunch (s t : State) : Prop :=
  t.params = s.params ∧ t.sched = s.sched ∧ t.pickIdx = s.pickIdx ∧ t.drawIdx = s.drawIdx

/-- The slot and the borrow (R36). -/
def sameSlot (s t : State) : Prop :=
  t.ctrlLoc = s.ctrlLoc ∧ t.borrowedBy = s.borrowedBy ∧ t.borrowDepth = s.borrowDepth

/-- The mask, the active vector and the pending latches (R38). -/
def sameInterrupts (s t : State) : Prop :=
  t.primask = s.primask ∧ t.isrActive = s.isrActive ∧ t.nvicPend = s.nvicPend

/-- Every byte of `Mem` reads as before. -/
def sameMemory (s t : State) : Prop := ∀ a, readByte t.mem a = readByte s.mem a

/-- Every channel keeps its tag, its registers, its hidden state and its descriptor. -/
def sameChannels (s t : State) : Prop := ∀ c, t.ch c = s.ch c

/-- Every channel but c is unchanged. -/
def sameChannelsBut (c : Chan) (s t : State) : Prop := ∀ c', c' ≠ c → t.ch c' = s.ch c'

/-- The context that does not run is unchanged: its pc, RES, hold and saved masks. -/
def sameOtherCtx (s t : State) : Prop := t.ctxOf (otherCtx s.ctx) = s.ctxOf (otherCtx s.ctx)

/-- The frame of a command on channel c that touches no memory: everything but channel c, the running
context and the log. -/
def channelFrame (c : Chan) (s t : State) : Prop :=
  sameChannelsBut c s t ∧ sameOtherCtx s t ∧ t.split = s.split ∧ sameSlot s t
    ∧ sameInterrupts s t ∧ sameMemory s t ∧ sameLaunch s t ∧ t.fault = s.fault

/-- The frame of a memory command: everything but `Mem` and the running context. -/
def memoryFrame (s t : State) : Prop :=
  sameChannels s t ∧ sameOtherCtx s t ∧ t.split = s.split ∧ sameSlot s t ∧ sameInterrupts s t
    ∧ t.log = s.log ∧ sameLaunch s t ∧ t.fault = s.fault

/-- The frame of a registry command: everything but the slot, the mask, the active vector and the
running context. -/
def registryFrame (s t : State) : Prop :=
  sameChannels s t ∧ sameOtherCtx s t ∧ t.split = s.split ∧ t.nvicPend = s.nvicPend
    ∧ sameMemory s t ∧ t.log = s.log ∧ sameLaunch s t ∧ t.fault = s.fault

/-- The frame of an engine step of channel c before the latches of R311: everything but channel c,
`Mem` and the draw counter (R256). -/
def engineFrame (c : Chan) (s t : State) : Prop :=
  sameChannelsBut c s t ∧ (t.ch c).status = (s.ch c).status ∧ t.main = s.main ∧ t.isr = s.isr
    ∧ t.split = s.split ∧ sameSlot s t ∧ t.primask = s.primask ∧ t.isrActive = s.isrActive
    ∧ t.log = s.log ∧ t.params = s.params ∧ t.sched = s.sched ∧ t.pickIdx = s.pickIdx

/-- The channel after `stop(c)` with the given flags added to INTFLAG (R241). -/
def stoppedWith (f : FlagSet) (ch : Channel) : Channel :=
  { ch with
    intflag := ch.intflag ||| f
    enable := false, disableReq := false, suspended := false
    auth := 0, burstLeft := 0, trigPend := false, swtrig := false }

/-- A channel with the "after SWRST" values of R44, every field written out: the tag and PRILVL are the
two a software reset keeps. -/
def channelAtReset (tag : Status) (lvl : BitVec 2) : Channel where
  status := tag
  swrst := false
  enable := false
  trigsrc := 0
  trigact := .beat
  burstlen := 0
  threshold := 0
  prilvl := lvl
  inten := 0
  intflag := 0
  swtrig := false
  disableReq := false
  suspended := false
  auth := 0
  burstLeft := 0
  trigPend := false
  bound := false
  dSrc := 0
  dDst := 0
  dCnt := 0
  dSize := .byte
  dSinc := false
  dDinc := false
  rem := 0
  curSrc := 0
  curDst := 0

/-! ### The invariants of R45 -/

/-- A channel at rest: no transfer enabled, requested or under way. -/
def quiet (ch : Channel) : Prop :=
  ch.enable = false ∧ ch.swtrig = false ∧ ch.disableReq = false ∧ ch.suspended = false
    ∧ ch.auth = 0 ∧ ch.burstLeft = 0 ∧ ch.trigPend = false

/-- R45 (a), (b), (c) of one channel, with three facts that keep them: a disabled channel has no
software trigger pending, a bound descriptor has at least one beat, and beats remain while a bound
channel is enabled or not Busy (R244). -/
def channelInv (ch : Channel) : Prop :=
  (ch.status ≠ .busy → quiet ch)
    ∧ (ch.burstLeft.toNat ≤ ch.auth.toNat ∧ ch.auth.toNat ≤ ch.rem.toNat)
    ∧ (ch.enable = false → quiet ch)
    ∧ (ch.bound = true → ch.dCnt ≠ 0)
    ∧ (ch.bound = true → (ch.status ≠ .busy ∨ ch.enable = true) → ch.rem ≠ 0)

/-- R45 (d): a borrow was taken inside a section of its holder that is still open. -/
def borrowInv (s : State) : Prop :=
  ∀ x, s.borrowedBy = some x → 1 ≤ s.borrowDepth ∧ s.borrowDepth ≤ (s.ctxOf x).csStack.length

/-- R45 (e), with the fact that keeps it: an inner section saved a set mask. -/
def maskInv (s : State) : Prop :=
  ∀ x, ((s.ctxOf x).csStack ≠ [] → s.primask = true)
    ∧ ∀ b ∈ (s.ctxOf x).csStack.tail, b = true

/-- R45 (f) and its counterpart for the main context, which opened no section and holds no borrow
while a handler is active (R222 b). -/
def handlerInv (s : State) : Prop :=
  (s.isrActive = none → s.isr.csStack = [] ∧ s.isr.hold = none ∧ s.borrowedBy ≠ some .isr)
    ∧ (s.isrActive ≠ none → s.main.csStack = [] ∧ s.borrowedBy ≠ some .main)

/-- The tag a held context's channel has (R121, R125, R141, R172). -/
def holdTag : Hold → Chan × Status
  | .initWait c _ => (c, .uninitialized)
  | .resetWait c => (c, .ready)
  | .freeWait c => (c, .busy)
  | .waitPoll c => (c, .busy)

/-- A held context owns the controller, which is split, and its channel has the tag its command
required (R122). -/
def holdInv (s : State) : Prop :=
  ∀ x h, (s.ctxOf x).hold = some h →
    owner s x = true ∧ s.split = true ∧ (s.ch (holdTag h).1).status = (holdTag h).2

/-- Before the first SPLIT no channel has been used (R44). -/
def splitInv (s : State) : Prop := s.split = false → ∀ c, (s.ch c).status = .uninitialized

/-- The six invariants of R45 with the facts they rest on. -/
def blockInv (s : State) : Prop :=
  (∀ c, channelInv (s.ch c)) ∧ borrowInv s ∧ maskInv s ∧ handlerInv s ∧ holdInv s ∧ splitInv s

/-! ### The end of a run and the fair runs -/

/-- The steps that are fair (R254, R313, R315). -/
def fairPick : Pick → Bool
  | .context | .entry _ | .eRst _ | .eSwt _ | .eBeat _ | .eDack _ => true
  | .ePtrig _ | .eErr _ | .eSusp _ => false

/-- The run has finished (R357, D59; notes/assumptions/15.md): no fault, Main at its program's end,
no handler, and no fair step enabled. -/
def finished (s : State) : Prop :=
  s.fault = none ∧ s.isrActive = none ∧ s.main.hold = none ∧ s.params.pMain.length ≤ s.main.pc
    ∧ ∀ p, fairPick p = true → pickEnabled s p = false

/-- An infinite run with the scheduler's choices (R315). -/
def isRun (picks : Nat → Pick) (run : Nat → State) : Prop :=
  ∀ n, agentStep (picks n) (run n) = .next (run (n + 1))

/-- Weak fairness: a fair step that stays enabled is eventually taken (R254). -/
def weaklyFair (picks : Nat → Pick) (run : Nat → State) : Prop :=
  ∀ p, fairPick p = true → ∀ n, (∀ m, n ≤ m → pickEnabled (run m) p = true) →
    ∃ m, n ≤ m ∧ picks m = p

end Sys2Proof.Safety
end

