-- ==== Sys2Proof/Certificates/Slice0/Obligations.lean ====
section
/-! DEFINITION. The statements for the provers. Each docstring names the rule of spec/ it formalises.
Quantifiers over states range over every state, launch parameter, pending pick and free value. -/

open Sys2Proof Sys2Proof.Machine Sys2Proof.Safety

/-! ### Encoding and decoding (30_encoding.md) -/

/-- R90 to R101, R104: no bit of an encoding is dropped. Every well-formed command, with every operand
at every value, decodes from its words, and the words after it are left. -/
def Obligations.DecodeOfEncodeIsInstr : Prop :=
  ∀ (i : Instr) (rest : List Word), i.wf = true → decode (encode i ++ rest) = .ok i rest

/-- R104: a decoded command has one encoding, the words that were read. -/
def Obligations.EncodeOfDecodeIsWords : Prop :=
  ∀ (ws : List Word) (i : Instr) (rest : List Word), decode ws = .ok i rest →
    i.wf = true ∧ ws = encode i ++ rest

/-- R108: the worked encodings of the source's scenario. -/
def Obligations.WorkedEncodingsDecode : Prop :=
  decode [0x00000042] = .ok (.init 1 0) []
    ∧ decode [0x00080046] = .ok (.start 1 0 2) []
    ∧ decode [0x00000047] = .ok (.xferdone 1) []
    ∧ decode [0x00000048] = .ok (.free 1) []
    ∧ decode [0x00000051] = .ok (.callback 1) []
    ∧ decode [0x00003850] = .ok (.chkclr 1 7) []

/-- R103: executing an IllegalCommand word, by any of the clauses (a) to (f), raises IllegalCommand
with the context, the command pointer and the word, and has no other effect (R300). That the fetched
pick is consumed is the model's own (notes/assumptions/4.md), and that the faulting step latches nothing
is DEDUCED (notes/assumptions/11.md). -/
def Obligations.IllegalWordFaults : Prop :=
  ∀ (s : State) (w : Word) (args : List Word),
    s.fault = none → nextPick s = .context → s.cur.hold = none → fetchWords s = w :: args →
    illegalWord s.params w args →
    step s =
      .next { dropPick s with fault := some ⟨.illegalCommand, .command s.ctx s.cur.pc w none⟩ }

/-- R103, R104: the clauses of R103 are the only reasons; every other word decodes. -/
def Obligations.LegalWordDecodes : Prop :=
  ∀ (p : Params) (w : Word) (args : List Word), ¬ illegalWord p w args →
    ∃ i rest, decode (w :: args) = .ok i rest ∧ commandWord i = w

/-! ### The step and the fetch -/

/-- R312, R315, R34: with no active vector Main runs P_MAIN; with vector v active Isr runs H(v); and the
words fetched are that program's from the context's own command pointer. R315: with no fault set, a step
is the step of the agent the scheduler picks, whichever it is, at the state whose pick is consumed; where
the pick stands and that consuming it changes nothing else is the model's (notes/assumptions/4.md). R305: when that is the running context, which is not held, and those words
decode to i, the step is exec of i; if i raised no fault, the latches of R311 follow
(notes/assumptions/11.md). -/
def Obligations.StepRunsDecodedInstruction : Prop :=
  ∀ (s : State) (i : Instr) (rest : List Word),
    (s.isrActive = none →
      s.ctx = .main ∧ s.cur = s.main ∧ s.program = s.params.pMain
        ∧ fetchWords s = s.params.pMain.drop s.main.pc)
    ∧ (∀ v : VecNum, s.isrActive = some v →
      s.ctx = .isr ∧ s.cur = s.isr ∧ s.program = s.params.handlers[v]
        ∧ fetchWords s = s.params.handlers[v].drop s.isr.pc)
    ∧ (∀ p picks, s.sched = p :: picks → nextPick s = p ∧ dropPick s = { s with sched := picks })
    ∧ (s.sched = [] → dropPick s = { s with pickIdx := s.pickIdx + 1 })
    ∧ (s.fault = none → step s = agentStep (nextPick s) (dropPick s))
    ∧ (s.fault = none → nextPick s = .context → s.cur.hold = none →
    decode (fetchWords s) = .ok i rest →
    step s =
      match exec i (dropPick s) with
      | .next t => .next (if t.fault.isSome then t else latchPending t)
      | .fault f => .fault f
      | .refused r => .refused r)

/-- R34, R305: a held context fetches nothing: its step is the poll of its hold; when it is picked, the
machine's step is that poll, and the latches of R311 follow. -/
def Obligations.HeldContextPolls : Prop :=
  ∀ (s : State) (h : Hold), s.cur.hold = some h →
    contextStep s = .next (pollStep s h)
      ∧ (s.fault = none → nextPick s = .context →
        step s = .next (latchPending (pollStep (dropPick s) h)))

/-- R300: once the fault is set no agent takes a step. -/
def Obligations.FaultStopsEveryAgent : Prop :=
  ∀ (s : State) (r : FaultRecord), s.fault = some r →
    step s = .fault (.sticky r) ∧ ∀ p, pickEnabled s p = false

/-- R304: a context at its program's end takes no command. Main has ended; Isr faults NoIret. That a
command pointer strictly past the end, which R304 does not name, is treated in the same way is DEDUCED
(notes/assumptions/18.md); that the faulting step latches nothing is DEDUCED (notes/assumptions/11.md);
that Main's pick then changes nothing is the model's choice (notes/assumptions/4.md). -/
def Obligations.ProgramEndStopsOrFaults : Prop :=
  ∀ s : State, s.fault = none → s.cur.hold = none → s.program.length ≤ s.cur.pc →
    (s.isrActive = none → agentStep .context s = .next s)
      ∧ (s.isrActive ≠ none →
        agentStep .context s =
          .next { s with fault := some ⟨.noIret, .command .isr s.isr.pc 0 none⟩ })

/-! ### Common checks and ownership -/

/-- R109: the channel checks, in the rule's order, before any effect of any command that names a
channel. The commands of R103 (e) are asked only where the chip has them; TRIGACT = 3 is no command. -/
def Obligations.ChannelChecksInOrder : Prop :=
  ∀ (s : State) (i : Instr) (c : Chan) (tags : List Status),
    channelNeeds i = some (c, tags) → i.wf = true →
    (needsBurstFifo i = true → s.params.hasBurstFifo = true) → checksFirst i s c tags

/-- R225: who owns the controller; R226: at most one context does. -/
def Obligations.OneOwner : Prop :=
  ∀ (s : State) (x : Ctx),
    (owner s x = true ↔
      (x = .main ∧ s.ctrlLoc = .main) ∨ (s.ctrlLoc = .cell ∧ s.borrowedBy = some x))
      ∧ ¬ (owner s .main = true ∧ owner s .isr = true)

/-! ### The register port (10_state.md) -/

/-- R23, R27, R33: the address of every register of every channel's port, and every bit of CTRL, PRILVL,
INTEN, INTFLAG, STATUS and SWTRIG: the fields at the bits of the register map, the reserved bits 0,
BURSTLEN and THRESHOLD hardwired 0 without HAS_BURST_FIFO (notes/assumptions/16.md), and STATUS computed
from the hidden state. -/
def Obligations.RegisterPortWords : Prop :=
  ∀ (s : State) (c : Chan),
    let ch := s.ch c
    let at_ (r : PortReg) (offset : Nat) : Prop :=
      portAddress s.params c r = s.params.regBase + BitVec.ofNat 32 (0x20 * c.toNat + offset)
    (at_ .ctrl 0x00 ∧ at_ .prilvl 0x04 ∧ at_ .inten 0x08 ∧ at_ .intflag 0x0C ∧ at_ .status 0x10
      ∧ at_ .swtrig 0x14 ∧ at_ .desc 0x18)
    ∧ (∃ w, portWord s c .ctrl = some w
      ∧ w.getLsbD 0 = ch.swrst ∧ w.getLsbD 1 = ch.enable ∧ w.extractLsb' 2 6 = 0
      ∧ w.extractLsb' 8 7 = ch.trigsrc ∧ w.extractLsb' 15 5 = 0
      ∧ (ch.trigact = .beat → w.extractLsb' 20 2 = 0)
      ∧ (ch.trigact = .burst → w.extractLsb' 20 2 = 1)
      ∧ (ch.trigact = .transaction → w.extractLsb' 20 2 = 2)
      ∧ w.extractLsb' 22 2 = 0
      ∧ w.extractLsb' 24 4 = (if s.params.hasBurstFifo = true then ch.burstlen else 0)
      ∧ w.extractLsb' 28 2 = (if s.params.hasBurstFifo = true then ch.threshold else 0)
      ∧ w.extractLsb' 30 2 = 0)
    ∧ (∃ w, portWord s c .prilvl = some w
      ∧ w.extractLsb' 0 2 = ch.prilvl ∧ w.extractLsb' 2 30 = 0)
    ∧ (∃ w, portWord s c .inten = some w
      ∧ w.extractLsb' 0 3 = ch.inten ∧ w.extractLsb' 3 29 = 0)
    ∧ (∃ w, portWord s c .intflag = some w
      ∧ w.extractLsb' 0 3 = ch.intflag ∧ w.extractLsb' 3 29 = 0)
    ∧ (∃ w, portWord s c .status = some w
      ∧ w.getLsbD 0 = ch.trigPend ∧ (w.getLsbD 1 = true ↔ 0 < ch.auth.toNat)
      ∧ w.getLsbD 2 = ch.suspended
      ∧ (w.getLsbD 3 = true ↔ ch.swrst = true ∨ ch.disableReq = true)
      ∧ w.extractLsb' 4 28 = 0)
    ∧ (∃ w, portWord s c .swtrig = some w
      ∧ w.getLsbD 0 = ch.swtrig ∧ w.extractLsb' 1 31 = 0)

/-! ### Channel state machine (40_channel_state_machine.md) -/

/-- R120: SPLIT. -/
def Obligations.SplitCreatesChannelsOnce : Prop :=
  ∀ s : State, encodedAs .split 0x01 0 0 [] ∧
    (owner s s.ctx = false → raises .split s .notOwner none)
      ∧ (owner s s.ctx = true →
        ∃ t, exec .split s = .next t ∧ t.split = true
          ∧ (∀ c, t.ch c =
              if s.split = false ∧ c.toNat < s.params.numChannels then
                { s.ch c with status := .uninitialized }
              else s.ch c)
          ∧ t.cur = { s.cur with pc := s.cur.pc + 1 }
          ∧ t.log = s.log ∧ sameOtherCtx s t ∧ sameSlot s t ∧ sameInterrupts s t
          ∧ sameMemory s t ∧ sameLaunch s t ∧ t.fault = s.fault)

/-- R121, R125: INIT and RESET, issue steps: the same write of SWRST, from Uninitialized and from
Ready, each with its own hold. -/
def Obligations.InitAndResetIssueStartsReset : Prop :=
  ∀ (s : State) (c : Chan) (lvl : BitVec 2),
    let issued (i : Instr) (h : Hold) : Prop :=
      ∃ t, exec i s = .next t
        ∧ t.ch c = { s.ch c with swrst := true }
        ∧ t.cur = { s.cur with hold := some h }
        ∧ t.log = s.log ++ [.write c .swrst (.val 1)] ∧ channelFrame c s t
    encodedAs (.init c lvl) 0x02 c.toNat lvl.toNat [] ∧ encodedAs (.reset c) 0x03 c.toNat 0 []
      ∧ checksFirst (.init c lvl) s c [.uninitialized]
      ∧ (allows s c .uninitialized → issued (.init c lvl) (.initWait c lvl))
      ∧ checksFirst (.reset c) s c [.ready]
      ∧ (allows s c .ready → issued (.reset c) (.resetWait c))

/-- R122, R126: INIT and RESET, poll steps. -/
def Obligations.InitAndResetPollSwrst : Prop :=
  ∀ (s : State) (c : Chan) (lvl : BitVec 2),
    let again (t : State) : Prop :=
      t.ch c = s.ch c ∧ t.cur = s.cur ∧ t.log = s.log ++ [.read c .swrst (.val 1)]
    let free : CtxState := { s.cur with hold := none, pc := s.cur.pc + 1 }
    (s.cur.hold = some (.initWait c lvl) →
      ∃ t, contextStep s = .next t ∧ channelFrame c s t
        ∧ ((s.ch c).swrst = true → again t)
        ∧ ((s.ch c).swrst = false →
          t.ch c = { s.ch c with prilvl := lvl, status := .ready } ∧ t.cur = free
            ∧ t.log = s.log ++ [.read c .swrst (.val 0),
                .write c .prilvl (.val (lvl.zeroExtend 32))]))
      ∧ (s.cur.hold = some (.resetWait c) →
        ∃ t, contextStep s = .next t ∧ channelFrame c s t
          ∧ ((s.ch c).swrst = true → again t)
          ∧ ((s.ch c).swrst = false →
            t.ch c = { s.ch c with status := .uninitialized } ∧ t.cur = free
              ∧ t.log = s.log ++ [.read c .swrst (.val 0)]))

/-- R123, R127: after INIT the port holds the reset values and the level; RESET brings the registers
back to exactly that state, for every level. The two resets complete by E_RST (R240). -/
def Obligations.InitThenResetKeepsRegisters : Prop :=
  ∀ (s : State) (c : Chan) (lvl : BitVec 2), s.cur.hold = none → allows s c .uninitialized →
    ∃ s1 s2 s3 s4 s5 s6,
      exec (.init c lvl) s = .next s1 ∧ s2 = engineRst s1 c ∧ contextStep s2 = .next s3
        ∧ exec (.reset c) s3 = .next s4 ∧ s5 = engineRst s4 c ∧ contextStep s5 = .next s6
        ∧ s3.ch c = channelAtReset .ready lvl
        ∧ s6.ch c = { s3.ch c with status := .uninitialized }

/-- R128, R131: SETBURST and SETTHR, illegal without HAS_BURST_FIFO (R103 e), legal in Ready only. -/
def Obligations.BurstAndThresholdStored : Prop :=
  ∀ (s : State) (c : Chan) (blen : BitVec 4) (thr : BitVec 2),
    encodedAs (.setburst c blen) 0x04 c.toNat blen.toNat []
      ∧ encodedAs (.setthr c thr) 0x05 c.toNat thr.toNat []
      ∧ (s.params.hasBurstFifo = false →
      raises (.setburst c blen) s .illegalCommand none
        ∧ raises (.setthr c thr) s .illegalCommand none)
      ∧ (s.params.hasBurstFifo = true →
        checksFirst (.setburst c blen) s c [.ready] ∧ checksFirst (.setthr c thr) s c [.ready])
      ∧ (s.params.hasBurstFifo = true → allows s c .ready →
        (∃ t, exec (.setburst c blen) s = .next t
          ∧ t.ch c = { s.ch c with burstlen := blen }
          ∧ t.cur = { s.cur with pc := s.cur.pc + 1 }
          ∧ t.log = s.log ++ [.write c .burstlen (.val (blen.zeroExtend 32))]
          ∧ channelFrame c s t)
        ∧ (∃ t, exec (.setthr c thr) s = .next t
          ∧ t.ch c = { s.ch c with threshold := thr }
          ∧ t.cur = { s.cur with pc := s.cur.pc + 1 }
          ∧ t.log = s.log ++ [.write c .threshold (.val (thr.zeroExtend 32))]
          ∧ channelFrame c s t))

/-- R134, R135: START; W(c, SWTRIG, 1) is logged exactly once with the DISABLE source and never with
another; TRIGACT = 3 is IllegalCommand. -/
def Obligations.StartEnablesChannel : Prop :=
  ∀ (s : State) (c : Chan) (src : BitVec 7) (act : BitVec 2),
    encodedAs (.start c src act) 0x06 c.toNat (src.toNat + act.toNat * 2 ^ 7) []
      ∧ (act = 3 → raises (.start c src act) s .illegalCommand none)
      ∧ (act ≠ 3 → checksFirst (.start c src act) s c [.ready])
      ∧ ∀ a : TrigAct, trigActCode a = act → allows s c .ready →
        ∃ t, exec (.start c src act) s = .next t
          ∧ t.ch c =
              { s.ch c with
                trigsrc := src, trigact := a, enable := true, status := .busy
                swtrig := if src = 0 then true else (s.ch c).swtrig }
          ∧ t.cur = { s.cur with pc := s.cur.pc + 1 }
          ∧ t.log = s.log
              ++ [.write c .trigsrc (.val (src.zeroExtend 32)),
                  .write c .trigact (.val (act.zeroExtend 32)), .write c .enable (.val 1)]
              ++ (if src = 0 then [.write c .swtrig (.val 1)] else [])
          ∧ channelFrame c s t

/-- R138: XFERDONE. -/
def Obligations.XferdoneReadsEnable : Prop :=
  ∀ (s : State) (c : Chan), encodedAs (.xferdone c) 0x07 c.toNat 0 []
    ∧ checksFirst (.xferdone c) s c [.busy] ∧ (allows s c .busy →
    ∃ t, exec (.xferdone c) s = .next t ∧ t.ch c = s.ch c
      ∧ t.cur = { s.cur with
          res := if (s.ch c).enable = false then 1 else 0, pc := s.cur.pc + 1 }
      ∧ t.log = s.log ++ [.read c .enable (.val (if (s.ch c).enable = true then 1 else 0))]
      ∧ channelFrame c s t)

/-- R141: FREE, issue step. -/
def Obligations.FreeIssueRequestsDisable : Prop :=
  ∀ (s : State) (c : Chan), encodedAs (.free c) 0x08 c.toNat 0 []
    ∧ checksFirst (.free c) s c [.busy] ∧ (allows s c .busy →
    ∃ t, exec (.free c) s = .next t
      ∧ t.ch c =
          { s.ch c with disableReq := (s.ch c).disableReq || (s.ch c).enable }
      ∧ t.cur = { s.cur with hold := some (.freeWait c) }
      ∧ t.log = s.log ++ [.write c .enable (.val 0)] ∧ channelFrame c s t)

/-- R142: FREE, poll step. -/
def Obligations.FreePollReturnsBuffers : Prop :=
  ∀ (s : State) (c : Chan), s.cur.hold = some (.freeWait c) →
    ∃ t, contextStep s = .next t ∧ channelFrame c s t
      ∧ ((s.ch c).enable = true →
        t.ch c = s.ch c ∧ t.cur = s.cur ∧ t.log = s.log ++ [.read c .enable (.val 1)])
      ∧ ((s.ch c).enable = false →
        t.ch c = { s.ch c with status := .ready, bound := false }
          ∧ t.cur = { s.cur with hold := none, pc := s.cur.pc + 1 }
          ∧ t.log = s.log ++ [.read c .enable (.val 0)])

/-- R146, R150: RESTART resumes a suspended channel, re-runs the bound descriptor of a stopped one
from its first beat, and otherwise has no effect on the port; it writes no software trigger. -/
def Obligations.RestartResumesOrReruns : Prop :=
  ∀ (s : State) (c : Chan), encodedAs (.restart c) 0x09 c.toNat 0 []
    ∧ checksFirst (.restart c) s c [.busy] ∧ (allows s c .busy →
    ∃ t, exec (.restart c) s = .next t
      ∧ ((s.ch c).suspended = true → t.ch c = { s.ch c with suspended := false })
      ∧ ((s.ch c).suspended = false → (s.ch c).enable = false → (s.ch c).bound = true →
          t.ch c = { s.ch c with
            enable := true, rem := (s.ch c).dCnt
            curSrc := (s.ch c).dSrc, curDst := (s.ch c).dDst })
      ∧ ((s.ch c).suspended = false → (s.ch c).enable = false → (s.ch c).bound = false →
          t.ch c = { s.ch c with enable := true })
      ∧ ((s.ch c).suspended = false → (s.ch c).enable = true → t.ch c = s.ch c)
      ∧ t.cur = { s.cur with pc := s.cur.pc + 1 }
      ∧ t.log = s.log ++ [.write c .enable (.val 1)] ∧ channelFrame c s t)

/-! ### Transfer coordinator (41_transfer_coordinator.md) -/

/-- R170: BIND's operand checks, BadDescriptor before Misaligned, and its effect. -/
def Obligations.BindChecksAndWritesDescriptor : Prop :=
  ∀ (s : State) (c : Chan) (src dst cnt ctl : Word),
    encodedAs (.bind c src dst cnt ctl) 0x0A c.toNat 0 [src, dst, cnt, ctl]
    ∧ checksFirst (.bind c src dst cnt ctl) s c [.ready] ∧ (allows s c .ready →
    let bad := cnt.toNat / 65536 ≠ 0 ∨ cnt.toNat % 65536 = 0 ∨ ctl.toNat / 16 ≠ 0
      ∨ ctl.toNat % 4 = 3
    let n := 2 ^ (ctl.toNat % 4)
    let misaligned := src.toNat % n ≠ 0 ∨ dst.toNat % n ≠ 0
    (bad → raises (.bind c src dst cnt ctl) s .badDescriptor none)
      ∧ (¬ bad → misaligned → raises (.bind c src dst cnt ctl) s .misaligned none)
      ∧ (¬ bad → ¬ misaligned →
        ∃ t size, exec (.bind c src dst cnt ctl) s = .next t
          ∧ (sizeCode size).toNat = ctl.toNat % 4
          ∧ t.ch c =
              { s.ch c with
                bound := true, dSrc := src, dDst := dst, dCnt := cnt.extractLsb' 0 16
                dSize := size, dSinc := ctl.getLsbD 2, dDinc := ctl.getLsbD 3
                rem := cnt.extractLsb' 0 16, curSrc := src, curDst := dst }
          ∧ t.cur = { s.cur with pc := s.cur.pc + 5 }
          ∧ t.log = s.log ++ [.write c .desc (.desc src dst cnt ctl)] ∧ channelFrame c s t))

/-- R172: WAIT, issue step: it needs a bound descriptor and parks the context. R173: WAIT, poll step:
when ENABLE reads 0, FREE's write of 0 and its hold follow at once, and the FreeWait poll that follows
ends the hold. -/
def Obligations.WaitParksThenTurnsIntoFree : Prop :=
  ∀ (s : State) (c : Chan), encodedAs (.wait c) 0x0B c.toNat 0 []
    ∧ checksFirst (.wait c) s c [.busy]
    ∧ (allows s c .busy →
      ((s.ch c).bound = false → raises (.wait c) s .notBound none)
        ∧ ((s.ch c).bound = true →
          ∃ t, exec (.wait c) s = .next t ∧ t.ch c = s.ch c
            ∧ t.cur = { s.cur with hold := some (.waitPoll c) }
            ∧ t.log = s.log ∧ channelFrame c s t))
    ∧ (s.cur.hold = some (.waitPoll c) →
      ∃ t, contextStep s = .next t ∧ channelFrame c s t ∧ t.ch c = s.ch c
        ∧ ((s.ch c).enable = true →
          t.cur = s.cur ∧ t.log = s.log ++ [.read c .enable (.val 1)])
        ∧ ((s.ch c).enable = false →
          t.cur = { s.cur with hold := some (.freeWait c) }
            ∧ t.log = s.log ++ [.read c .enable (.val 0), .write c .enable (.val 0)]
            ∧ ∃ u, contextStep t = .next u ∧ channelFrame c t u
              ∧ u.ch c = { s.ch c with status := .ready, bound := false }
              ∧ u.cur = { s.cur with hold := none, pc := s.cur.pc + 1 }
              ∧ u.log = t.log ++ [.read c .enable (.val 0)]))

/-- R171, R178: the race predicates are the ones over the bound ranges of Busy channels. -/
def Obligations.RacesAreBusyRanges : Prop :=
  ∀ (s : State) (a : Word) (n : Nat),
    let inEnd (base : Word) (inc : Bool) (ch : Channel) (x : Word) : Prop :=
      ∃ k : Nat, k < 2 ^ (sizeCode ch.dSize).toNat * (if inc = true then ch.dCnt.toNat else 1)
        ∧ x = base + BitVec.ofNat 32 k
    let busyBound (c : Chan) : Prop :=
      c.toNat < s.params.numChannels ∧ (s.ch c).status = .busy ∧ (s.ch c).bound = true
    (raceRead s a n = true ↔
      ∃ (c : Chan) (i : Nat), i < n ∧ busyBound c
        ∧ inEnd (s.ch c).dDst (s.ch c).dDinc (s.ch c) (a + BitVec.ofNat 32 i))
      ∧ (raceWrite s a n = true ↔
        ∃ (c : Chan) (i : Nat), i < n ∧ busyBound c
          ∧ (inEnd (s.ch c).dSrc (s.ch c).dSinc (s.ch c) (a + BitVec.ofNat 32 i)
            ∨ inEnd (s.ch c).dDst (s.ch c).dDinc (s.ch c) (a + BitVec.ofNat 32 i)))

/-- R176, R61: MEMRD's faults in order, and the little-endian value it returns. -/
def Obligations.MemrdReadsOrFaults : Prop :=
  ∀ (s : State) (size : BitVec 2) (addr : Word),
    encodedAs (.memrd size addr) 0x0C 0 size.toNat [addr]
    ∧ (size = 3 → raises (.memrd size addr) s .illegalCommand none) ∧ (size ≠ 3 →
    let n := 2 ^ size.toNat
    let touchesDev := ∃ i : Nat, i < n ∧ isDev s.params (addr + BitVec.ofNat 32 i) = true
    (addr.toNat % n ≠ 0 → raises (.memrd size addr) s .misaligned none)
      ∧ (addr.toNat % n = 0 → touchesDev → raises (.memrd size addr) s .deviceAccess none)
      ∧ (addr.toNat % n = 0 → ¬ touchesDev → raceRead s addr n = true →
          raises (.memrd size addr) s .bufferRace none)
      ∧ (addr.toNat % n = 0 → ¬ touchesDev → raceRead s addr n = false →
        ∃ t v, exec (.memrd size addr) s = .next t
          ∧ (∀ i : Nat, i < 4 → v.extractLsb' (8 * i) 8 =
              if i < n then readByte s.mem (addr + BitVec.ofNat 32 i).toNat else 0)
          ∧ t.cur = { s.cur with res := v, pc := s.cur.pc + 2 }
          ∧ memoryFrame s t ∧ sameMemory s t))

/-- R177, R61: MEMWR's faults in order, the bytes it stores, and that it stores no other. -/
def Obligations.MemwrWritesOrFaults : Prop :=
  ∀ (s : State) (size : BitVec 2) (addr data : Word),
    encodedAs (.memwr size addr data) 0x0D 0 size.toNat [addr, data]
    ∧ (size = 3 → raises (.memwr size addr data) s .illegalCommand none) ∧ (size ≠ 3 →
    let n := 2 ^ size.toNat
    let touchesDev := ∃ i : Nat, i < n ∧ isDev s.params (addr + BitVec.ofNat 32 i) = true
    (addr.toNat % n ≠ 0 → raises (.memwr size addr data) s .misaligned none)
      ∧ (addr.toNat % n = 0 → touchesDev → raises (.memwr size addr data) s .deviceAccess none)
      ∧ (addr.toNat % n = 0 → ¬ touchesDev → raceWrite s addr n = true →
          raises (.memwr size addr data) s .bufferRace none)
      ∧ (addr.toNat % n = 0 → ¬ touchesDev → raceWrite s addr n = false →
        ∃ t, exec (.memwr size addr data) s = .next t
          ∧ (∀ i : Nat, i < n →
              readByte t.mem (addr + BitVec.ofNat 32 i).toNat = data.extractLsb' (8 * i) 8)
          ∧ (∀ a : Nat, (∀ i : Nat, i < n → a ≠ (addr + BitVec.ofNat 32 i).toNat) →
              readByte t.mem a = readByte s.mem a)
          ∧ t.cur = { s.cur with pc := s.cur.pc + 3 }
          ∧ memoryFrame s t))

/-- R61, R63: what MEMWR stored, a read of the same or a narrower width at the same address returns. -/
def Obligations.NarrowReadAfterWideWrite : Prop :=
  ∀ (m : Memory) (a v : Word),
    memRead (memWrite m a .word v) a .word = v
      ∧ memRead (memWrite m a .word v) a .half = v &&& 0xFFFF
      ∧ memRead (memWrite m a .word v) a .byte = v &&& 0xFF
      ∧ memRead (memWrite m a .half v) a .half = v &&& 0xFFFF
      ∧ memRead (memWrite m a .half v) a .byte = v &&& 0xFF
      ∧ memRead (memWrite m a .byte v) a .byte = v &&& 0xFF

/-! ### Interrupt flags (42_interrupt_flag_decoder.md) -/

/-- R190, R191: INTENSET and INTENCLR. -/
def Obligations.InterruptEnablesSetAndCleared : Prop :=
  ∀ (s : State) (c : Chan) (mask : FlagSet),
    encodedAs (.intenset c mask) 0x0E c.toNat mask.toNat []
      ∧ encodedAs (.intenclr c mask) 0x0F c.toNat mask.toNat []
      ∧ checksAny (.intenset c mask) s c ∧ checksAny (.intenclr c mask) s c
      ∧ (allowsAny s c →
    (∃ t, exec (.intenset c mask) s = .next t
      ∧ t.ch c = { s.ch c with inten := (s.ch c).inten ||| mask }
      ∧ t.cur = { s.cur with pc := s.cur.pc + 1 }
      ∧ t.log = s.log ++ [.write c .intenset (.val (mask.zeroExtend 32))]
      ∧ channelFrame c s t)
    ∧ (∃ t, exec (.intenclr c mask) s = .next t
      ∧ t.ch c = { s.ch c with inten := (s.ch c).inten &&& ~~~mask }
      ∧ t.cur = { s.cur with pc := s.cur.pc + 1 }
      ∧ t.log = s.log ++ [.write c .intenclr (.val (mask.zeroExtend 32))]
      ∧ channelFrame c s t))

/-- R192, R193: CHKCLR returns and clears exactly INTFLAG & MASK, in one step. -/
def Obligations.ChkclrReturnsWhatItClears : Prop :=
  ∀ (s : State) (c : Chan) (mask : FlagSet),
    encodedAs (.chkclr c mask) 0x10 c.toNat mask.toNat []
    ∧ checksAny (.chkclr c mask) s c ∧ (allowsAny s c →
    ∃ t, exec (.chkclr c mask) s = .next t
      ∧ t.ch c = { s.ch c with intflag := (s.ch c).intflag &&& ~~~mask }
      ∧ t.cur = { s.cur with
          res := ((s.ch c).intflag &&& mask).zeroExtend 32, pc := s.cur.pc + 1 }
      ∧ t.log = s.log ++ [.read c .intflag (.val ((s.ch c).intflag.zeroExtend 32)),
          .write c .intflag (.val (((s.ch c).intflag &&& mask).zeroExtend 32))]
      ∧ channelFrame c s t)

/-- R194 to R196: CALLBACK reports complete before error before suspended, clears the one flag it
reports, and with no flag set reports an error and writes nothing. -/
def Obligations.CallbackReportsInOrder : Prop :=
  ∀ (s : State) (c : Chan),
    encodedAs (.callback c) 0x11 c.toNat 0 []
    ∧ checksAny (.callback c) s c ∧ (allowsAny s c →
    let f := (s.ch c).intflag
    let report (code : Word) (clear : Option FlagSet) : Prop :=
      ∃ t, exec (.callback c) s = .next t
        ∧ t.ch c = { s.ch c with intflag := f &&& ~~~(clear.getD 0) }
        ∧ t.cur = { s.cur with res := code, pc := s.cur.pc + 1 }
        ∧ t.log = s.log ++ .read c .intflag (.val (f.zeroExtend 32))
            :: (clear.toList.map fun r => .write c .intflag (.val (r.zeroExtend 32)))
        ∧ channelFrame c s t
    (f.getLsbD 1 = true → report 0 (some 0b010))
      ∧ (f.getLsbD 1 = false → f.getLsbD 0 = true → report 1 (some 0b001))
      ∧ (f.getLsbD 1 = false → f.getLsbD 0 = false → f.getLsbD 2 = true →
          report 2 (some 0b100))
      ∧ (f = 0 → report 1 none))

/-! ### Registry (43_shared_controller_registry.md) -/

/-- R210: CSENTER. -/
def Obligations.CsenterSavesMask : Prop :=
  ∀ s : State, encodedAs .csenter 0x12 0 0 [] ∧
    ∃ t, exec .csenter s = .next t ∧ t.primask = true ∧ t.isrActive = s.isrActive
      ∧ t.cur = { s.cur with csStack := s.cur.csStack ++ [s.primask], pc := s.cur.pc + 1 }
      ∧ sameSlot s t ∧ registryFrame s t

/-- R212: CSEXIT. -/
def Obligations.CsexitRestoresMask : Prop :=
  ∀ s : State, encodedAs .csexit 0x13 0 0 [] ∧
    (s.cur.csStack = [] → raises .csexit s .csUnderflow none)
      ∧ ∀ (rest : List Bool) (saved : Bool), s.cur.csStack = rest ++ [saved] →
        let borrowHere := s.borrowedBy = some s.ctx ∧ s.cur.csStack.length = s.borrowDepth
        (borrowHere → raises .csexit s .borrowOutlivesCS none)
          ∧ (¬ borrowHere →
            ∃ t, exec .csexit s = .next t ∧ t.primask = saved ∧ t.isrActive = s.isrActive
              ∧ t.cur = { s.cur with csStack := rest, pc := s.cur.pc + 1 }
              ∧ sameSlot s t ∧ registryFrame s t)

/-- R215: CELLPUT. -/
def Obligations.CellputMovesController : Prop :=
  ∀ s : State, encodedAs .cellput 0x14 0 0 [] ∧
    (s.cur.csStack = [] → raises .cellput s .unguardedAccess none)
      ∧ (s.cur.csStack ≠ [] → (s.ctx ≠ .main ∨ s.ctrlLoc ≠ .main) →
          raises .cellput s .notOwner none)
      ∧ (s.cur.csStack ≠ [] → s.ctx = .main → s.ctrlLoc = .main →
        ∃ t, exec .cellput s = .next t ∧ t.ctrlLoc = .cell
          ∧ t.borrowedBy = s.borrowedBy ∧ t.borrowDepth = s.borrowDepth
          ∧ t.cur = { s.cur with pc := s.cur.pc + 1 }
          ∧ sameInterrupts s t ∧ registryFrame s t)

/-- R217: CELLBORROW. -/
def Obligations.CellborrowTakesSlot : Prop :=
  ∀ s : State, encodedAs .cellborrow 0x15 0 0 [] ∧
    (s.cur.csStack = [] → raises .cellborrow s .unguardedAccess none)
      ∧ (s.cur.csStack ≠ [] → s.ctrlLoc ≠ .cell → raises .cellborrow s .cellEmpty none)
      ∧ (s.cur.csStack ≠ [] → s.ctrlLoc = .cell → s.borrowedBy ≠ none →
          raises .cellborrow s .reentrantBorrow none)
      ∧ (s.cur.csStack ≠ [] → s.ctrlLoc = .cell → s.borrowedBy = none →
        ∃ t, exec .cellborrow s = .next t ∧ t.ctrlLoc = s.ctrlLoc
          ∧ t.borrowedBy = some s.ctx ∧ t.borrowDepth = s.cur.csStack.length
          ∧ t.cur = { s.cur with pc := s.cur.pc + 1 }
          ∧ sameInterrupts s t ∧ registryFrame s t)

/-- R220: CELLRELEASE. -/
def Obligations.CellreleaseEndsBorrow : Prop :=
  ∀ s : State, encodedAs .cellrelease 0x16 0 0 [] ∧
    (s.borrowedBy ≠ some s.ctx → raises .cellrelease s .notBorrowed none)
      ∧ (s.borrowedBy = some s.ctx →
        ∃ t, exec .cellrelease s = .next t ∧ t.ctrlLoc = s.ctrlLoc
          ∧ t.borrowedBy = none ∧ t.borrowDepth = 0
          ∧ t.cur = { s.cur with pc := s.cur.pc + 1 }
          ∧ sameInterrupts s t ∧ registryFrame s t)

/-- R227: IRET. -/
def Obligations.IretReturnsToMain : Prop :=
  ∀ s : State, encodedAs .iret 0x17 0 0 [] ∧
    (s.ctx = .main → raises .iret s .iretOutsideIsr none)
      ∧ (s.ctx = .isr → s.borrowedBy = some .isr → raises .iret s .borrowOutlivesCS none)
      ∧ (s.ctx = .isr → s.borrowedBy ≠ some .isr → s.isr.csStack ≠ [] →
          raises .iret s .csOpenAtIret none)
      ∧ (s.ctx = .isr → s.borrowedBy ≠ some .isr → s.isr.csStack = [] →
        ∃ t, exec .iret s = .next t ∧ t.isrActive = none ∧ t.primask = s.primask
          ∧ t.main = s.main ∧ t.isr = s.isr ∧ sameSlot s t
          ∧ sameChannels s t ∧ t.split = s.split ∧ t.nvicPend = s.nvicPend
          ∧ sameMemory s t ∧ t.log = s.log ∧ sameLaunch s t ∧ t.fault = s.fault)

/-! ### The DMA engine (44_dma_engine_agent.md) -/

/-- R240: E_RST, its precondition and its effect: every field of the port, the hidden state and the
descriptor return to the values of R44, PRILVL and the tag are kept. -/
def Obligations.EngineResetClearsChannel : Prop :=
  ∀ (s : State) (c : Chan),
    (pickEnabled s (.eRst c) = true ↔
      s.fault = none ∧ c.toNat < s.params.numChannels ∧ s.params.clockReady = true
        ∧ (s.ch c).swrst = true)
      ∧ (pickEnabled s (.eRst c) = true →
        ∃ t, agentStep (.eRst c) s = .next t
          ∧ t.ch c = channelAtReset (s.ch c).status (s.ch c).prilvl
          ∧ engineFrame c s t ∧ sameMemory s t ∧ t.drawIdx = s.drawIdx ∧ t.fault = none)

/-- R244: k(c), with BL(c) = BURSTLEN + 1, or 1 where the chip has no burst length (R27). It is at least
1 while beats remain, and so whenever Trigger(c) calls it: for a bound channel that takes a software or
a peripheral trigger, in every state that meets the invariants of R45. -/
def Obligations.ReleaseSizeByTrigact : Prop :=
  (∀ (p : Params) (ch : Channel),
    let bl := if p.hasBurstFifo = true then ch.burstlen.toNat + 1 else 1
    (ch.trigact = .beat → (releaseBeats p ch).toNat = 1)
      ∧ (ch.trigact = .burst → (releaseBeats p ch).toNat = min bl ch.rem.toNat)
      ∧ (ch.trigact = .transaction → releaseBeats p ch = ch.rem)
      ∧ (ch.rem ≠ 0 → releaseBeats p ch ≠ 0))
    ∧ ∀ (s : State) (c : Chan), blockInv s → (s.ch c).bound = true →
        (pickEnabled s (.eSwt c) = true ∨ pickEnabled s (.ePtrig c) = true) →
        1 ≤ (releaseBeats s.params (s.ch c)).toNat

/-- R241, R242, R243: the preconditions of a software and of a peripheral trigger, and their common
effect. Without a descriptor it is a transfer error; else it releases k(c) beats, or is the one trigger
held, a further one being lost. -/
def Obligations.TriggerReleasesOrFails : Prop :=
  ∀ (s : State) (c : Chan) (soft : Bool),
    let p : Pick := if soft = true then .eSwt c else .ePtrig c
    let before : Channel := if soft = true then { s.ch c with swtrig := false } else s.ch c
    (pickEnabled s p = true ↔
      s.fault = none ∧ c.toNat < s.params.numChannels ∧ s.params.clockReady = true
        ∧ (s.ch c).enable = true ∧ (s.ch c).suspended = false ∧ (s.ch c).disableReq = false
        ∧ (if soft = true then (s.ch c).swtrig = true else (s.ch c).trigsrc ≠ 0))
      ∧ (pickEnabled s p = true →
        ∃ t, agentStep p s = .next t
          ∧ (before.bound = false → t.ch c = stoppedWith 0b001 before)
          ∧ (before.bound = true → before.auth = 0 →
              t.ch c = { before with auth := releaseBeats s.params before })
          ∧ (before.bound = true → before.auth ≠ 0 → t.ch c = { before with trigPend := true })
          ∧ engineFrame c s t ∧ sameMemory s t ∧ t.drawIdx = s.drawIdx ∧ t.fault = none)

/-- R245, R247, R248, R68: a beat that both ends admit. The bytes read at the source are those of
`Mem`, or fresh draws where they are device bytes; they land at the destination, device bytes
excepted; nothing else in `Mem` changes; the addresses and counts advance; the last beat sets TCMPL
and clears ENABLE in the same step; a held trigger is taken when the released beats run out. -/
def Obligations.BeatMovesBytes : Prop :=
  ∀ (s : State) (c : Chan), pickEnabled s (.eBeat c) = true →
    let ch := s.ch c
    let n := 2 ^ (sizeCode ch.dSize).toNat
    let srcAt (i : Nat) := ch.curSrc + BitVec.ofNat 32 i
    let dstAt (i : Nat) := ch.curDst + BitVec.ofNat 32 i
    let dev (a : Word) := isDev s.params a
    let drawn (k : Nat) := ((List.range k).filter fun j => dev (srcAt j)).length
    let bl := if s.params.hasBurstFifo = true then ch.burstlen.toNat + 1 else 1
    let burst := if ch.burstLeft = 0 then min bl ch.auth.toNat else ch.burstLeft.toNat
    let moved : Channel :=
      { ch with
        curSrc := if ch.dSinc = true then ch.curSrc + BitVec.ofNat 32 n else ch.curSrc
        curDst := if ch.dDinc = true then ch.curDst + BitVec.ofNat 32 n else ch.curDst
        rem := ch.rem - 1, auth := ch.auth - 1, burstLeft := BitVec.ofNat 5 (burst - 1) }
    dmaOk s.params ch.curSrc ch.dSize = true → dmaOk s.params ch.curDst ch.dSize = true →
    (∀ i < n, isCode s.params (dstAt i) = true → dev (dstAt i) = true) →
    ∃ t, agentStep (.eBeat c) s = .next t
      ∧ (∀ i < n, dev (dstAt i) = false → readByte t.mem (dstAt i).toNat =
          if dev (srcAt i) = true then Config.freeByte (s.drawIdx + drawn i)
          else readByte s.mem (srcAt i).toNat)
      ∧ (∀ a : Nat, (∀ i < n, dev (dstAt i) = true ∨ a ≠ (dstAt i).toNat) →
          readByte t.mem a = readByte s.mem a)
      ∧ (moved.rem = 0 → t.ch c = stoppedWith 0b010 moved)
      ∧ (moved.rem ≠ 0 → moved.auth = 0 → ch.trigPend = true → t.ch c =
          { moved with trigPend := false, auth := releaseBeats s.params moved })
      ∧ (moved.rem ≠ 0 → (moved.auth ≠ 0 ∨ ch.trigPend = false) → t.ch c = moved)
      ∧ t.drawIdx = s.drawIdx + drawn n ∧ engineFrame c s t ∧ t.fault = none

/-- R245, R246, R300, R320 (b): E_BEAT, its precondition, and the two beats that move nothing. A beat
with an inaccessible end sets TERR and stops the channel, even where the destination is code; with both
ends accessible, a destination byte of the code region that is no device byte faults CodeWrite with
no other effect. That the faulting step latches nothing is DEDUCED (notes/assumptions/11.md). -/
def Obligations.BeatErrorOrCodeWrite : Prop :=
  ∀ (s : State) (c : Chan),
    let ch := s.ch c
    (pickEnabled s (.eBeat c) = true ↔
      s.fault = none ∧ c.toNat < s.params.numChannels ∧ s.params.clockReady = true
        ∧ ch.enable = true ∧ ch.suspended = false ∧ ch.auth ≠ 0
        ∧ (ch.disableReq = false ∨ ch.burstLeft ≠ 0))
    ∧ (pickEnabled s (.eBeat c) = true →
    let n := 2 ^ (sizeCode ch.dSize).toNat
    let bothOk :=
      dmaOk s.params ch.curSrc ch.dSize = true ∧ dmaOk s.params ch.curDst ch.dSize = true
    (¬ bothOk →
      ∃ t, agentStep (.eBeat c) s = .next t
        ∧ t.ch c = stoppedWith 0b001 ch
        ∧ sameMemory s t ∧ t.drawIdx = s.drawIdx ∧ engineFrame c s t ∧ t.fault = none)
      ∧ (bothOk →
        (∃ i < n, isCode s.params (ch.curDst + BitVec.ofNat 32 i) = true
          ∧ isDev s.params (ch.curDst + BitVec.ofNat 32 i) = false) →
        agentStep (.eBeat c) s =
          .next { s with fault := some ⟨.codeWrite, .engine c ch.curDst⟩ }))

/-- R249: E_ERR, its precondition and its effect: TERR is set and the channel stops. -/
def Obligations.EnvironmentErrorStopsChannel : Prop :=
  ∀ (s : State) (c : Chan),
    (pickEnabled s (.eErr c) = true ↔
      s.fault = none ∧ c.toNat < s.params.numChannels ∧ s.params.clockReady = true
        ∧ s.params.mayError = true ∧ (s.ch c).enable = true ∧ (s.ch c).auth ≠ 0)
      ∧ (pickEnabled s (.eErr c) = true →
        ∃ t, agentStep (.eErr c) s = .next t ∧ t.ch c = stoppedWith 0b001 (s.ch c)
          ∧ engineFrame c s t ∧ sameMemory s t ∧ t.drawIdx = s.drawIdx ∧ t.fault = none)

/-- R250, R251: E_SUSP, its precondition and its effect: the channel is suspended at a burst boundary
and keeps everything else; a suspended channel takes no trigger and no beat. -/
def Obligations.SuspendKeepsTransfer : Prop :=
  ∀ (s : State) (c : Chan),
    (pickEnabled s (.eSusp c) = true ↔
      s.fault = none ∧ c.toNat < s.params.numChannels ∧ s.params.clockReady = true
        ∧ s.params.maySuspend = true ∧ (s.ch c).enable = true ∧ (s.ch c).suspended = false
        ∧ (s.ch c).disableReq = false ∧ (s.ch c).burstLeft = 0)
      ∧ (pickEnabled s (.eSusp c) = true →
        ∃ t, agentStep (.eSusp c) s = .next t
          ∧ t.ch c =
              { s.ch c with suspended := true, intflag := (s.ch c).intflag ||| 0b100 }
          ∧ engineFrame c s t ∧ sameMemory s t ∧ t.drawIdx = s.drawIdx ∧ t.fault = none)
      ∧ ((s.ch c).suspended = true →
        ∀ p ∈ [Pick.eSwt c, .ePtrig c, .eBeat c, .eSusp c], pickEnabled s p = false)

/-- R252: E_DACK, its precondition and its effect: only at a burst boundary, the channel stops, no flag
is set and `rem` keeps the abandoned beats. -/
def Obligations.DisableAcknowledgedAtBoundary : Prop :=
  ∀ (s : State) (c : Chan),
    (pickEnabled s (.eDack c) = true ↔
      s.fault = none ∧ c.toNat < s.params.numChannels ∧ s.params.clockReady = true
        ∧ (s.ch c).disableReq = true ∧ (s.ch c).burstLeft = 0)
      ∧ (pickEnabled s (.eDack c) = true →
        ∃ t, agentStep (.eDack c) s = .next t ∧ t.ch c = stoppedWith 0 (s.ch c)
          ∧ engineFrame c s t ∧ sameMemory s t ∧ t.drawIdx = s.drawIdx ∧ t.fault = none)

/-- R315: a pick whose step is not enabled has no effect; that such a pick can be taken at all is the
model's choice (notes/assumptions/4.md). R253: without the clock no engine step of any kind is enabled,
so SWRST and ENABLE never read 0 again by an engine step. -/
def Obligations.NoClockNoEngineStep : Prop :=
  ∀ s : State, (∀ p, pickEnabled s p = false → agentStep p s = .next s)
    ∧ (s.params.clockReady = false → ∀ c : Chan,
      ∀ p ∈ [Pick.eRst c, .eSwt c, .ePtrig c, .eBeat c, .eErr c, .eSusp c, .eDack c],
        pickEnabled s p = false ∧ agentStep p s = .next s)

/-- R256: an engine step of channel c, whichever it is, touches no tag, no context, no log, no
arbiter state and no mask, and no channel but c. -/
def Obligations.EngineStepsLeaveContexts : Prop :=
  ∀ (s t : State) (c : Chan),
    ∀ p ∈ [Pick.eRst c, .eSwt c, .ePtrig c, .eBeat c, .eErr c, .eSusp c, .eDack c],
      agentStep p s = .next t → engineFrame c s t

/-- R73: `Mem` changes only by a MEMWR of the running context, or by a beat of a channel whose ENABLE
is 1 and which is not suspended. -/
def Obligations.MemoryChangesOnlyByBeatOrMemwr : Prop :=
  ∀ s t : State, step s = .next t → (∃ a, readByte t.mem a ≠ readByte s.mem a) →
    (∃ c, nextPick s = .eBeat c ∧ (s.ch c).enable = true ∧ (s.ch c).suspended = false
      ∧ c.toNat < s.params.numChannels)
      ∨ (nextPick s = .context ∧ s.cur.hold = none
        ∧ ∃ size addr data rest, decode (fetchWords s) = .ok (.memwr size addr data) rest)

/-! ### Interrupts (60_exceptions.md) -/

/-- R310, R311: at the end of every step of an agent that raised no fault, every vector that is not
active and whose line is high is pending; a latch is set only for a vector that exists, is not active
and has a high line; and it is cleared only by the entry of its own vector. -/
def Obligations.LatchFollowsLine : Prop :=
  ∀ (s t : State) (p : Pick), agentStep p s = .next t →
    (pickEnabled s p = true → t.fault = none →
      ∀ (v : VecNum) (c : Chan), v.val ≤ t.params.numVectors → t.isrActive ≠ some v →
        c.toNat < t.params.numChannels →
        v.val = (if c.toNat < t.params.numVectors then c.toNat else t.params.numVectors) →
        (t.ch c).intflag &&& (t.ch c).inten ≠ 0 → t.nvicPend[v] = true)
      ∧ (∀ v : VecNum, s.nvicPend[v] = false → t.nvicPend[v] = true →
        v.val ≤ t.params.numVectors ∧ t.isrActive ≠ some v
          ∧ ∃ c : Chan, c.toNat < t.params.numChannels
            ∧ v.val = (if c.toNat < t.params.numVectors then c.toNat else t.params.numVectors)
            ∧ (t.ch c).intflag &&& (t.ch c).inten ≠ 0)
      ∧ (∀ v : VecNum, s.nvicPend[v] = true → t.nvicPend[v] = false → p = .entry v)

/-- R313: the entry of a pending, enabled vector; nothing of the main context changes, nor the mask. -/
def Obligations.EntryStartsHandler : Prop :=
  ∀ (s : State) (v : VecNum), s.fault = none → s.isrActive = none → s.primask = false →
    v.val ≤ s.params.numVectors → s.nvicPend[v] = true → s.params.vecEn[v] = true →
    ∃ t, agentStep (.entry v) s = .next t ∧ t.isrActive = some v ∧ t.nvicPend[v] = false
      ∧ t.isr = { pc := 0, res := 0, hold := none, csStack := [] } ∧ t.main = s.main
      ∧ t.primask = s.primask ∧ sameChannels s t ∧ t.split = s.split ∧ sameSlot s t
      ∧ sameMemory s t ∧ t.log = s.log ∧ sameLaunch s t ∧ t.fault = none

/-- R313, R314: an interrupt is taken only while none is active and the mask is clear, of a vector
that is pending and enabled. -/
def Obligations.EntryOnlyWhenUnmasked : Prop :=
  ∀ (s t : State), step s = .next t → s.isrActive ≠ t.isrActive → t.isrActive ≠ none →
    s.isrActive = none ∧ s.primask = false
      ∧ ∃ v : VecNum, nextPick s = .entry v ∧ t.isrActive = some v ∧ s.nvicPend[v] = true
        ∧ s.params.vecEn[v] = true ∧ v.val ≤ s.params.numVectors

/-! ### Reset -/

/-- R351, R352 and the power-on column of R44: the machine at launch. That a channel's slot holds the
tag Uninitialized before SPLIT is the model's choice (notes/assumptions/8.md). The values of the launch
parameters, of `Mem` and of the model's own fields are the model's choice (notes/assumptions/1.md,
3.md, 4.md, 6.md) and are not stated. -/
def Obligations.LaunchState : Prop :=
  (∀ c : Chan,
    let ch := State.reset.ch c
    ch.status = .uninitialized ∧ ch.swrst = false ∧ ch.enable = false ∧ ch.trigsrc = 0
      ∧ trigActCode ch.trigact = 0 ∧ ch.burstlen = 0 ∧ ch.threshold = 0 ∧ ch.prilvl = 0
      ∧ ch.inten = 0 ∧ ch.intflag = 0 ∧ ch.swtrig = false
      ∧ ch.disableReq = false ∧ ch.suspended = false ∧ ch.auth = 0 ∧ ch.burstLeft = 0
      ∧ ch.trigPend = false
      ∧ ch.bound = false ∧ ch.dSrc = 0 ∧ ch.dDst = 0 ∧ ch.dCnt = 0 ∧ sizeCode ch.dSize = 0
      ∧ ch.dSinc = false ∧ ch.dDinc = false ∧ ch.rem = 0 ∧ ch.curSrc = 0 ∧ ch.curDst = 0)
    ∧ State.reset.main = { pc := 0, res := 0, hold := none, csStack := [] }
    ∧ State.reset.isr.res = 0 ∧ State.reset.isr.csStack = [] ∧ State.reset.isrActive = none
    ∧ (∀ v : VecNum, State.reset.nvicPend[v] = false) ∧ State.reset.split = false
    ∧ State.reset.ctrlLoc = .main ∧ State.reset.borrowedBy = none ∧ State.reset.borrowDepth = 0
    ∧ State.reset.primask = false ∧ State.reset.fault = none ∧ State.reset.log = []

/-- The invariants hold at launch: R45 with the facts that keep it, and the memory's form. Three parts of
it are the model's choice and no value of R44: that hold[Isr] is none (notes/assumptions/9.md), that a
slot's tag is Uninitialized before SPLIT (notes/assumptions/8.md), and the memory's form
(notes/assumptions/3.md). -/
def Obligations.InvariantsHoldAtLaunch : Prop :=
  blockInv State.reset ∧ State.reset.mem.wf = true

/-! ### Invariants every step keeps -/

/-- R45: every step keeps the six invariants, whatever the scheduler picks. -/
def Obligations.EveryStepKeepsBlockInvariant : Prop :=
  ∀ s t : State, blockInv s → step s = .next t → blockInv t

/-- R40: every step keeps the canonical form of the memory. The form is the model's own
(notes/assumptions/3.md). -/
def Obligations.EveryStepKeepsMemoryForm : Prop :=
  ∀ s t : State, s.mem.wf = true → step s = .next t → t.mem.wf = true

/-- R46: the launch parameters are not state: no step changes one. -/
def Obligations.ParametersNeverChange : Prop :=
  ∀ s t : State, step s = .next t → t.params = s.params

/-- R37: the log is only appended to, and only by a step of a context: no engine step and no entry
logs anything. -/
def Obligations.LogOnlyGrows : Prop :=
  ∀ s t : State, step s = .next t →
    ∃ es, t.log = s.log ++ es ∧ (nextPick s ≠ .context → es = [])

/-- R22, R152: the only transitions of a lifecycle tag, and the commands that make them: INIT and
RESET at the end of their holds, START at once, FREE and WAIT at the end of FREE's hold. No engine
step and no interrupt writes a tag. -/
def Obligations.LifecycleTransitions : Prop :=
  ∀ (s t : State) (c : Chan), blockInv s → step s = .next t →
    (t.ch c).status ≠ (s.ch c).status →
    nextPick s = .context
      ∧ (((s.ch c).status = .uninitialized ∧ (t.ch c).status = .ready
            ∧ ∃ lvl, s.cur.hold = some (.initWait c lvl))
        ∨ ((s.ch c).status = .ready ∧ (t.ch c).status = .uninitialized
            ∧ s.cur.hold = some (.resetWait c))
        ∨ ((s.ch c).status = .ready ∧ (t.ch c).status = .busy ∧ s.cur.hold = none
            ∧ ∃ src act rest, decode (fetchWords s) = .ok (.start c src act) rest)
        ∨ ((s.ch c).status = .busy ∧ (t.ch c).status = .ready
            ∧ s.cur.hold = some (.freeWait c)))

/-- R222, R226: while the main context holds the borrow the mask is set and no handler is active;
while a handler holds it that handler is active; and a held context stays the owner. -/
def Obligations.BorrowHolderExcludesOther : Prop :=
  ∀ s : State, blockInv s →
    (s.borrowedBy = some .main → s.primask = true ∧ s.isrActive = none)
      ∧ (s.borrowedBy = some .isr → s.isrActive ≠ none)
      ∧ (s.main.hold ≠ none → owner s .main = true)
      ∧ ((∃ p v, p = Pick.entry v ∧ pickEnabled s p = true) → s.borrowedBy = none)

/-- R240, R254: in a fair run without a fault, with the clock, a software reset completes: SWRST
reads 0 again. -/
def Obligations.FairRunCompletesReset : Prop :=
  ∀ (picks : Nat → Pick) (run : Nat → State) (n : Nat) (c : Chan),
    isRun picks run → weaklyFair picks run → (∀ m, (run m).fault = none) →
    c.toNat < (run n).params.numChannels → (run n).params.clockReady = true →
    ∃ m, n ≤ m ∧ ((run m).ch c).swrst = false
end

