-- ==== Sys2Proof/Laws/Memory.lean ====
section
/-! SUPPORT. The laws of memory: a read after a write, the canonical form (R40, notes/assumptions/3.md),
and the bytes of a multi-byte access (R61). -/

namespace Sys2Proof.Machine

/-! ### One byte -/

theorem readByte_nil (a : Nat) : readByte [] a = unlistedByte := rfl

theorem readByte_cons (k : Nat) (b : Byte) (m : Memory) (a : Nat) :
    readByte ((k, b) :: m) a = if k = a then b else readByte m a := rfl

/-- A memory that lists no entry at an address reads as an unlisted one there. -/
theorem readByte_of_unlisted (m : Memory) (a : Nat) (h : ∀ cell ∈ m, cell.1 ≠ a) :
    readByte m a = unlistedByte := by
  induction m with
  | nil => rfl
  | cons cell m ih =>
    obtain ⟨k, b⟩ := cell
    have hk : k ≠ a := h (k, b) (by simp)
    simp [readByte_cons, hk, ih fun c hc => h c (by simp [hc])]

theorem insertByte_unlisted (m : Memory) (a : Nat) (b : Byte) (hb : b = unlistedByte) :
    insertByte m a b = m := by
  unfold insertByte
  exact if_pos hb

theorem insertByte_nil (a : Nat) (b : Byte) (hb : b ≠ unlistedByte) :
    insertByte [] a b = [(a, b)] := by
  unfold insertByte
  exact if_neg hb

theorem insertByte_cons (k : Nat) (v : Byte) (m : Memory) (a : Nat) (b : Byte)
    (hb : b ≠ unlistedByte) :
    insertByte ((k, v) :: m) a b =
      if a < k then (a, b) :: (k, v) :: m else (k, v) :: insertByte m a b := by
  rw [insertByte]
  exact if_neg hb

theorem readByte_insertByte (m : Memory) (a : Nat) (b : Byte) (a' : Nat)
    (h : ∀ cell ∈ m, cell.1 ≠ a) :
    readByte (insertByte m a b) a' = if a' = a then b else readByte m a' := by
  by_cases hb : b = unlistedByte
  · rw [insertByte_unlisted m a b hb]
    split
    · rename_i e
      rw [hb, e, readByte_of_unlisted m a h]
    · rfl
  · induction m with
    | nil => simp [insertByte_nil a b hb, readByte_cons, eq_comm]
    | cons cell m ih =>
      obtain ⟨k, v⟩ := cell
      have hk : k ≠ a := h (k, v) (by simp)
      have ih := ih fun c hc => h c (by simp [hc])
      rw [insertByte_cons k v m a b hb]
      by_cases hlt : a < k
      · simp [hlt, readByte_cons, eq_comm]
      · simp only [hlt, if_false, readByte_cons, ih]
        by_cases h1 : k = a'
        · have : a' ≠ a := fun e => hk (h1.trans e)
          simp [h1, this]
        · simp [h1]

theorem readByte_filter_ne (m : Memory) (a a' : Nat) (h : a' ≠ a) :
    readByte (m.filter fun cell => decide (cell.1 ≠ a)) a' = readByte m a' := by
  induction m with
  | nil => rfl
  | cons cell m ih =>
    obtain ⟨k, b⟩ := cell
    by_cases hk : k = a
    · have : k ≠ a' := fun e => h (e.symm.trans hk)
      simpa [hk, readByte_cons, Ne.symm h] using ih
    · simp only [List.filter_cons, ne_eq, hk, not_false_eq_true, decide_true, if_true,
        readByte_cons, ih]

/-- A read of one byte after a write of one byte: the byte written, and no other changed. -/
theorem readByte_writeByte (m : Memory) (a : Nat) (b : Byte) (a' : Nat) :
    readByte (writeByte m a b) a' = if a' = a then b else readByte m a' := by
  unfold writeByte
  rw [readByte_insertByte _ _ _ _ (by simp)]
  split
  · rfl
  · exact readByte_filter_ne m a a' (by assumption)

/-! ### The canonical form -/

theorem memory_wf_cons (a : Nat) (b : Byte) (m : Memory) :
    Memory.wf ((a, b) :: m) = true ↔
      (a < 4294967296 ∧ b ≠ unlistedByte) ∧ (∀ cell ∈ m, a < cell.1) ∧ Memory.wf m = true := by
  simp [Memory.wf, and_assoc]

theorem wf_filter (m : Memory) (f : Host.Cell → Bool) (h : Memory.wf m = true) :
    Memory.wf (m.filter f) = true := by
  induction m with
  | nil => rfl
  | cons cell m ih =>
    obtain ⟨k, b⟩ := cell
    rw [memory_wf_cons] at h
    rw [List.filter_cons]
    split
    · rw [memory_wf_cons]
      exact ⟨h.1, fun c hc => h.2.1 c (List.mem_of_mem_filter hc), ih h.2.2⟩
    · exact ih h.2.2

theorem mem_insertByte (m : Memory) (a : Nat) (b : Byte) (cell : Host.Cell)
    (h : cell ∈ insertByte m a b) : cell = (a, b) ∨ cell ∈ m := by
  by_cases hb : b = unlistedByte
  · exact .inr (insertByte_unlisted m a b hb ▸ h)
  · induction m with
    | nil => simpa [insertByte_nil a b hb] using h
    | cons c m ih =>
      obtain ⟨k, v⟩ := c
      rw [insertByte_cons k v m a b hb] at h
      split at h
      · simpa using h
      · rcases List.mem_cons.1 h with h | h
        · simp [h]
        · rcases ih h with h | h <;> simp [h]

theorem wf_insertByte (m : Memory) (a : Nat) (b : Byte) (ha : a < 4294967296)
    (hn : ∀ cell ∈ m, cell.1 ≠ a) (h : Memory.wf m = true) :
    Memory.wf (insertByte m a b) = true := by
  by_cases hb : b = unlistedByte
  · rwa [insertByte_unlisted m a b hb]
  · induction m with
    | nil =>
      rw [insertByte_nil a b hb, memory_wf_cons]
      exact ⟨⟨ha, hb⟩, by simp, rfl⟩
    | cons cell m ih =>
      obtain ⟨k, v⟩ := cell
      have hk : k ≠ a := hn (k, v) (by simp)
      have h' := (memory_wf_cons _ _ _).1 h
      rw [insertByte_cons k v m a b hb]
      by_cases hlt : a < k
      · rw [if_pos hlt, memory_wf_cons]
        refine ⟨⟨ha, hb⟩, ?_, h⟩
        intro c hc
        rcases List.mem_cons.1 hc with rfl | hc
        · exact hlt
        · exact Nat.lt_trans hlt (h'.2.1 c hc)
      · rw [if_neg hlt, memory_wf_cons]
        refine ⟨h'.1, ?_, ih (fun c hc => hn c (by simp [hc])) h'.2.2⟩
        intro c hc
        rcases mem_insertByte m a b c hc with rfl | hc
        · show k < a
          omega
        · exact h'.2.1 c hc

/-- A write of one byte keeps the canonical form. -/
theorem wf_writeByte (m : Memory) (a : Nat) (b : Byte) (ha : a < 4294967296)
    (h : Memory.wf m = true) : Memory.wf (writeByte m a b) = true :=
  wf_insertByte _ _ _ ha (by simp) (wf_filter _ _ h)

theorem wf_writeBytes (m : Memory) (a : Word) (bs : List Byte) (h : Memory.wf m = true) :
    Memory.wf (writeBytes m a bs) = true := by
  induction bs generalizing m a with
  | nil => exact h
  | cons b bs ih => exact ih _ _ (wf_writeByte m _ b a.isLt h)

theorem wf_memWrite (m : Memory) (a : Word) (size : Size) (v : Word) (h : Memory.wf m = true) :
    Memory.wf (memWrite m a size v) = true := wf_writeBytes _ _ _ h

theorem wf_beatStore (p : Params) (m : Memory) (a : Word) (bs : List Byte)
    (h : Memory.wf m = true) : Memory.wf (beatStore p m a bs) = true := by
  induction bs generalizing m a with
  | nil => exact h
  | cons b bs ih =>
    unfold beatStore
    apply ih
    split
    · exact h
    · exact wf_writeByte m _ b a.isLt h

theorem wf_reset : Memory.wf State.reset.mem = true := rfl

/-! ### The bytes of an access -/

/-- The address of byte i of an access. -/
theorem add_one_add (a : Word) (i : Nat) :
    a + 1 + BitVec.ofNat 32 i = a + BitVec.ofNat 32 (i + 1) := by
  show a + 1#32 + BitVec.ofNat 32 i = _
  rw [BitVec.add_assoc, BitVec.add_comm 1#32, BitVec.ofNat_add]

/-- Byte i of an access lies at another address than its first byte. -/
theorem toNat_add_ofNat_ne (a : Word) (i : Nat) (h0 : i ≠ 0) (h : i < 4294967296) :
    (a + BitVec.ofNat 32 i).toNat ≠ a.toNat := by
  have := a.isLt
  simp only [BitVec.toNat_add, BitVec.toNat_ofNat]
  omega

theorem readBytes_length (m : Memory) (a : Word) (n : Nat) : (readBytes m a n).length = n := by
  induction n generalizing a with
  | zero => rfl
  | succ n ih => simp [readBytes, ih]

theorem readBytes_getElem (m : Memory) (a : Word) (n i : Nat) (h : i < (readBytes m a n).length) :
    (readBytes m a n)[i] = readByte m (a + BitVec.ofNat 32 i).toNat := by
  induction n generalizing a i with
  | zero => simp [readBytes] at h
  | succ n ih =>
    cases i with
    | zero => simp [readBytes]
    | succ i =>
      simp only [readBytes, List.getElem_cons_succ]
      rw [ih, add_one_add]

theorem bytesOfWord_length (v : Word) (n : Nat) : (bytesOfWord v n).length = n := by
  induction n generalizing v with
  | zero => rfl
  | succ n ih => simp [bytesOfWord, ih]

theorem bytesOfWord_getElem (v : Word) (n i : Nat) (h : i < (bytesOfWord v n).length) :
    (bytesOfWord v n)[i] = v.extractLsb' (8 * i) 8 := by
  induction n generalizing v i with
  | zero => simp [bytesOfWord] at h
  | succ n ih =>
    cases i with
    | zero => simp [bytesOfWord]
    | succ i =>
      simp only [bytesOfWord, List.getElem_cons_succ]
      rw [ih]
      ext j hj
      simp only [BitVec.getElem_extractLsb', BitVec.getLsbD_ushiftRight]
      congr 1
      omega

/-- What a write of several bytes does: byte i lies at the address i above the first, and every other
address reads as before. -/
theorem readByte_writeBytes_other (m : Memory) (a : Word) (bs : List Byte) (a' : Nat)
    (h : ∀ i, i < bs.length → a' ≠ (a + BitVec.ofNat 32 i).toNat) :
    readByte (writeBytes m a bs) a' = readByte m a' := by
  induction bs generalizing m a with
  | nil => rfl
  | cons b bs ih =>
    have h0 : a' ≠ a.toNat := by simpa using h 0 (by simp)
    unfold writeBytes
    rw [ih _ _ fun i hi => by rw [add_one_add]; exact h (i + 1) (by simpa using hi),
      readByte_writeByte, if_neg h0]

theorem readByte_writeBytes_at (m : Memory) (a : Word) (bs : List Byte) (i : Nat)
    (hl : bs.length ≤ 4294967296) (h : i < bs.length) :
    readByte (writeBytes m a bs) (a + BitVec.ofNat 32 i).toNat = bs[i] := by
  induction bs generalizing m a i with
  | nil => simp at h
  | cons b bs ih =>
    simp only [List.length_cons] at hl h
    unfold writeBytes
    cases i with
    | zero =>
      rw [readByte_writeBytes_other]
      · simp [readByte_writeByte]
      · intro j hj e
        rw [add_one_add] at e
        exact toNat_add_ofNat_ne a (j + 1) (by omega) (by omega) (by simpa using e.symm)
    | succ i =>
      rw [← add_one_add, ih _ _ _ (by omega) (by omega)]
      rfl

theorem anyByte_iff (f : Word → Bool) (a : Word) (n : Nat) :
    anyByte f a n = true ↔ ∃ i, i < n ∧ f (a + BitVec.ofNat 32 i) = true := by
  induction n generalizing a with
  | zero => simp [anyByte]
  | succ n ih =>
    simp only [anyByte, Bool.or_eq_true, ih]
    constructor
    · rintro (h | ⟨i, hi, h⟩)
      · exact ⟨0, by omega, by simpa using h⟩
      · exact ⟨i + 1, by omega, by rwa [add_one_add] at h⟩
    · rintro ⟨i, hi, h⟩
      cases i with
      | zero => exact .inl (by simpa using h)
      | succ i => exact .inr ⟨i, by omega, by rwa [add_one_add]⟩

/-! ### Little-endian words -/

/-- Byte i of the word that bytes form. -/
theorem wordOfBytes_byte (bs : List Byte) (i : Nat) (hi : i < 4) :
    (wordOfBytes bs).extractLsb' (8 * i) 8 = if h : i < bs.length then bs[i] else 0 := by
  induction bs generalizing i with
  | nil => simp [wordOfBytes]
  | cons b bs ih =>
    cases i with
    | zero =>
      ext j hj
      have h32 : j < 32 := by omega
      simp [wordOfBytes, BitVec.getElem_extractLsb', hj, h32]
    | succ i =>
      have := ih i (by omega)
      simp only [List.length_cons, Nat.add_lt_add_iff_right, List.getElem_cons_succ, ← this]
      ext j hj
      have h1 : 8 * (i + 1) + j < 32 := by omega
      have h2 : ¬ 8 * (i + 1) + j < 8 := by omega
      have h3 : 8 * (i + 1) + j - 8 = 8 * i + j := by omega
      have h4 : 8 * i + j < 32 := by omega
      have h5 : b.getLsbD (8 * (i + 1) + j) = false := BitVec.getLsbD_of_ge _ _ (by omega)
      simp [wordOfBytes, h1, h2, h3, h5, BitVec.getLsbD_eq_getElem h4]

/-! ### The bytes of a beat -/

theorem beatLoad_succ (p : Params) (m : Memory) (k : Nat) (a : Word) (n : Nat) :
    beatLoad p m k a (n + 1) =
      if isDev p a = true then
        (Config.freeByte k :: (beatLoad p m (k + 1) (a + 1) n).1, (beatLoad p m (k + 1) (a + 1) n).2)
      else (readByte m a.toNat :: (beatLoad p m k (a + 1) n).1, (beatLoad p m k (a + 1) n).2) := rfl

/-- How many of the first `n + 1` bytes are device bytes. -/
theorem device_count_succ (p : Params) (a : Word) (n : Nat) :
    ((List.range (n + 1)).filter fun j => isDev p (a + BitVec.ofNat 32 j)).length
      = (if isDev p a = true then 1 else 0)
        + ((List.range n).filter fun j => isDev p (a + 1 + BitVec.ofNat 32 j)).length := by
  have e : ∀ j, a + 1 + BitVec.ofNat 32 j = a + BitVec.ofNat 32 (j + 1) := add_one_add a
  rw [List.range_succ_eq_map, List.filter_cons, List.filter_map]
  simp only [e]
  by_cases hd : isDev p a <;> simp [hd, Function.comp_def, Nat.add_comm]

theorem beatLoad_length (p : Params) (m : Memory) (k : Nat) (a : Word) (n : Nat) :
    (beatLoad p m k a n).1.length = n := by
  induction n generalizing k a with
  | zero => rfl
  | succ n ih =>
    unfold beatLoad
    split <;> simp [ih]

theorem readByte_beatStore_other (p : Params) (m : Memory) (a : Word) (bs : List Byte) (a' : Nat)
    (h : ∀ i, i < bs.length →
      isDev p (a + BitVec.ofNat 32 i) = true ∨ a' ≠ (a + BitVec.ofNat 32 i).toNat) :
    readByte (beatStore p m a bs) a' = readByte m a' := by
  induction bs generalizing m a with
  | nil => rfl
  | cons b bs ih =>
    have h0 : isDev p a = true ∨ a' ≠ a.toNat := by simpa using h 0 (by simp)
    unfold beatStore
    rw [ih _ _ fun i hi => by rw [add_one_add]; exact h (i + 1) (by simpa using hi)]
    split
    · rfl
    · rename_i hd
      rw [readByte_writeByte, if_neg (h0.resolve_left hd)]

theorem readByte_beatStore_at (p : Params) (m : Memory) (a : Word) (bs : List Byte) (i : Nat)
    (hl : bs.length ≤ 4294967296) (h : i < bs.length)
    (hd : isDev p (a + BitVec.ofNat 32 i) = false) :
    readByte (beatStore p m a bs) (a + BitVec.ofNat 32 i).toNat = bs[i] := by
  induction bs generalizing m a i with
  | nil => simp at h
  | cons b bs ih =>
    simp only [List.length_cons] at hl h
    unfold beatStore
    cases i with
    | zero =>
      have hd' : isDev p a = false := by simpa using hd
      rw [readByte_beatStore_other]
      · simp [hd', readByte_writeByte]
      · intro j hj
        right
        intro e
        rw [add_one_add] at e
        exact toNat_add_ofNat_ne a (j + 1) (by omega) (by omega) (by simpa using e.symm)
    | succ i =>
      rw [← add_one_add] at hd ⊢
      rw [ih _ _ _ (by omega) (by omega) hd]
      rfl

/-- The bytes a beat reads (R68, R245): with j device bytes before it, byte i is the j-th fresh draw
where it is a device byte, else the byte of `Mem`. -/
theorem beatLoad_getElem (p : Params) (m : Memory) (k : Nat) (a : Word) (n i : Nat)
    (h : i < (beatLoad p m k a n).1.length) :
    (beatLoad p m k a n).1[i] =
      if isDev p (a + BitVec.ofNat 32 i) = true then
        Config.freeByte
          (k + ((List.range i).filter fun j => isDev p (a + BitVec.ofNat 32 j)).length)
      else readByte m (a + BitVec.ofNat 32 i).toNat := by
  induction n generalizing k a i with
  | zero => simp [beatLoad] at h
  | succ n ih =>
    have e : ∀ j, a + 1 + BitVec.ofNat 32 j = a + BitVec.ofNat 32 (j + 1) := add_one_add a
    cases i with
    | zero => by_cases hd : isDev p a <;> simp [beatLoad_succ, hd]
    | succ i =>
      have hi : i < n := by simpa [beatLoad_length] using h
      rw [device_count_succ, ← e]
      have ih := fun k => ih k (a + 1) i (by simpa [beatLoad_length] using hi)
      by_cases hd : isDev p a = true
      · simp only [beatLoad_succ, hd, if_true, List.getElem_cons_succ, ih, Nat.add_assoc]
      · simp only [beatLoad_succ, hd, Bool.false_eq_true, if_false, List.getElem_cons_succ, ih,
          Nat.zero_add]

theorem beatLoad_draws (p : Params) (m : Memory) (k : Nat) (a : Word) (n : Nat) :
    (beatLoad p m k a n).2 =
      k + ((List.range n).filter fun j => isDev p (a + BitVec.ofNat 32 j)).length := by
  induction n generalizing k a with
  | zero => rfl
  | succ n ih =>
    rw [device_count_succ, beatLoad_succ]
    by_cases hd : isDev p a = true
    · simp only [hd, if_true, ih, Nat.add_assoc]
    · simp only [hd, Bool.false_eq_true, if_false, ih, Nat.zero_add]

end Sys2Proof.Machine
end

