-- ==== Sys2Proof/Laws/State.lean ====
section
/-! SUPPORT. What each update of the state leaves in each field, one lemma a field and an update, so
that no later proof unfolds a record update. -/

namespace Sys2Proof.Machine

/-! ### Channels -/

@[simp] theorem ch_setCh_same (s : State) (c : Chan) (x : Channel) : (s.setCh c x).ch c = x := by
  simp [State.setCh, State.ch]

theorem ch_setCh_ne (s : State) {c c' : Chan} (x : Channel) (h : c' ≠ c) :
    (s.setCh c x).ch c' = s.ch c' := by
  have : c.toNat ≠ c'.toNat := fun e => h (BitVec.eq_of_toNat_eq e.symm)
  simp [State.setCh, State.ch, this]

theorem ch_setCh (s : State) (c c' : Chan) (x : Channel) :
    (s.setCh c x).ch c' = if c' = c then x else s.ch c' := by
  split
  · simp_all
  · exact ch_setCh_ne s x (by assumption)

@[simp] theorem setCh_self (s : State) (c : Chan) : s.setCh c (s.ch c) = s := by
  simp [State.setCh, State.ch]

theorem ch_eq_of_chans {s t : State} (h : t.chans = s.chans) (c : Chan) : t.ch c = s.ch c := by
  simp [State.ch, h]

/-! ### `setCh` -/

@[simp] theorem setCh_params (s : State) (c : Chan) (x : Channel) : (s.setCh c x).params = s.params := rfl

@[simp] theorem setCh_main (s : State) (c : Chan) (x : Channel) : (s.setCh c x).main = s.main := rfl

@[simp] theorem setCh_isr (s : State) (c : Chan) (x : Channel) : (s.setCh c x).isr = s.isr := rfl

@[simp] theorem setCh_split (s : State) (c : Chan) (x : Channel) : (s.setCh c x).split = s.split := rfl

@[simp] theorem setCh_ctrlLoc (s : State) (c : Chan) (x : Channel) : (s.setCh c x).ctrlLoc = s.ctrlLoc := rfl

@[simp] theorem setCh_borrowedBy (s : State) (c : Chan) (x : Channel) : (s.setCh c x).borrowedBy = s.borrowedBy := rfl

@[simp] theorem setCh_borrowDepth (s : State) (c : Chan) (x : Channel) : (s.setCh c x).borrowDepth = s.borrowDepth := rfl

@[simp] theorem setCh_primask (s : State) (c : Chan) (x : Channel) : (s.setCh c x).primask = s.primask := rfl

@[simp] theorem setCh_isrActive (s : State) (c : Chan) (x : Channel) : (s.setCh c x).isrActive = s.isrActive := rfl

@[simp] theorem setCh_nvicPend (s : State) (c : Chan) (x : Channel) : (s.setCh c x).nvicPend = s.nvicPend := rfl

@[simp] theorem setCh_mem (s : State) (c : Chan) (x : Channel) : (s.setCh c x).mem = s.mem := rfl

@[simp] theorem setCh_log (s : State) (c : Chan) (x : Channel) : (s.setCh c x).log = s.log := rfl

@[simp] theorem setCh_fault (s : State) (c : Chan) (x : Channel) : (s.setCh c x).fault = s.fault := rfl

@[simp] theorem setCh_sched (s : State) (c : Chan) (x : Channel) : (s.setCh c x).sched = s.sched := rfl

@[simp] theorem setCh_pickIdx (s : State) (c : Chan) (x : Channel) : (s.setCh c x).pickIdx = s.pickIdx := rfl

@[simp] theorem setCh_drawIdx (s : State) (c : Chan) (x : Channel) : (s.setCh c x).drawIdx = s.drawIdx := rfl

@[simp] theorem setCh_ctx (s : State) (c : Chan) (x : Channel) : (s.setCh c x).ctx = s.ctx := rfl

@[simp] theorem setCh_cur (s : State) (c : Chan) (x : Channel) : (s.setCh c x).cur = s.cur := rfl

@[simp] theorem setCh_ctxOf (s : State) (c : Chan) (x : Channel) (y : Ctx) : (s.setCh c x).ctxOf y = s.ctxOf y := rfl

@[simp] theorem setCh_program (s : State) (c : Chan) (x : Channel) : (s.setCh c x).program = s.program := rfl

/-! ### `setCtx` -/

@[simp] theorem setCtx_params (s : State) (x : Ctx) (v : CtxState) : (s.setCtx x v).params = s.params := by
  cases x <;> rfl

@[simp] theorem setCtx_chans (s : State) (x : Ctx) (v : CtxState) : (s.setCtx x v).chans = s.chans := by
  cases x <;> rfl

@[simp] theorem setCtx_split (s : State) (x : Ctx) (v : CtxState) : (s.setCtx x v).split = s.split := by
  cases x <;> rfl

@[simp] theorem setCtx_ctrlLoc (s : State) (x : Ctx) (v : CtxState) : (s.setCtx x v).ctrlLoc = s.ctrlLoc := by
  cases x <;> rfl

@[simp] theorem setCtx_borrowedBy (s : State) (x : Ctx) (v : CtxState) : (s.setCtx x v).borrowedBy = s.borrowedBy := by
  cases x <;> rfl

@[simp] theorem setCtx_borrowDepth (s : State) (x : Ctx) (v : CtxState) : (s.setCtx x v).borrowDepth = s.borrowDepth := by
  cases x <;> rfl

@[simp] theorem setCtx_primask (s : State) (x : Ctx) (v : CtxState) : (s.setCtx x v).primask = s.primask := by
  cases x <;> rfl

@[simp] theorem setCtx_isrActive (s : State) (x : Ctx) (v : CtxState) : (s.setCtx x v).isrActive = s.isrActive := by
  cases x <;> rfl

@[simp] theorem setCtx_nvicPend (s : State) (x : Ctx) (v : CtxState) : (s.setCtx x v).nvicPend = s.nvicPend := by
  cases x <;> rfl

@[simp] theorem setCtx_mem (s : State) (x : Ctx) (v : CtxState) : (s.setCtx x v).mem = s.mem := by
  cases x <;> rfl

@[simp] theorem setCtx_log (s : State) (x : Ctx) (v : CtxState) : (s.setCtx x v).log = s.log := by
  cases x <;> rfl

@[simp] theorem setCtx_fault (s : State) (x : Ctx) (v : CtxState) : (s.setCtx x v).fault = s.fault := by
  cases x <;> rfl

@[simp] theorem setCtx_sched (s : State) (x : Ctx) (v : CtxState) : (s.setCtx x v).sched = s.sched := by
  cases x <;> rfl

@[simp] theorem setCtx_pickIdx (s : State) (x : Ctx) (v : CtxState) : (s.setCtx x v).pickIdx = s.pickIdx := by
  cases x <;> rfl

@[simp] theorem setCtx_drawIdx (s : State) (x : Ctx) (v : CtxState) : (s.setCtx x v).drawIdx = s.drawIdx := by
  cases x <;> rfl

@[simp] theorem setCtx_ch (s : State) (x : Ctx) (v : CtxState) (c : Chan) : (s.setCtx x v).ch c = s.ch c := by
  cases x <;> rfl

@[simp] theorem setCtx_ctx (s : State) (x : Ctx) (v : CtxState) : (s.setCtx x v).ctx = s.ctx := by
  cases x <;> rfl

@[simp] theorem setCtx_ctxOf_same (s : State) (x : Ctx) (v : CtxState) : (s.setCtx x v).ctxOf x = v := by
  cases x <;> rfl

theorem setCtx_ctxOf_ne (s : State) {x y : Ctx} (v : CtxState) (h : y ≠ x) :
    (s.setCtx x v).ctxOf y = s.ctxOf y := by
  cases x <;> cases y <;> first | rfl | exact absurd rfl h

@[simp] theorem setCtx_cur (s : State) (v : CtxState) : (s.setCtx s.ctx v).cur = v := by
  simp [State.cur]

/-! ### `advance` -/

@[simp] theorem advance_params (s : State) (k : Nat) : (s.advance k).params = s.params := by
  simp [State.advance]

@[simp] theorem advance_chans (s : State) (k : Nat) : (s.advance k).chans = s.chans := by
  simp [State.advance]

@[simp] theorem advance_split (s : State) (k : Nat) : (s.advance k).split = s.split := by
  simp [State.advance]

@[simp] theorem advance_ctrlLoc (s : State) (k : Nat) : (s.advance k).ctrlLoc = s.ctrlLoc := by
  simp [State.advance]

@[simp] theorem advance_borrowedBy (s : State) (k : Nat) : (s.advance k).borrowedBy = s.borrowedBy := by
  simp [State.advance]

@[simp] theorem advance_borrowDepth (s : State) (k : Nat) : (s.advance k).borrowDepth = s.borrowDepth := by
  simp [State.advance]

@[simp] theorem advance_primask (s : State) (k : Nat) : (s.advance k).primask = s.primask := by
  simp [State.advance]

@[simp] theorem advance_isrActive (s : State) (k : Nat) : (s.advance k).isrActive = s.isrActive := by
  simp [State.advance]

@[simp] theorem advance_nvicPend (s : State) (k : Nat) : (s.advance k).nvicPend = s.nvicPend := by
  simp [State.advance]

@[simp] theorem advance_mem (s : State) (k : Nat) : (s.advance k).mem = s.mem := by
  simp [State.advance]

@[simp] theorem advance_log (s : State) (k : Nat) : (s.advance k).log = s.log := by
  simp [State.advance]

@[simp] theorem advance_fault (s : State) (k : Nat) : (s.advance k).fault = s.fault := by
  simp [State.advance]

@[simp] theorem advance_sched (s : State) (k : Nat) : (s.advance k).sched = s.sched := by
  simp [State.advance]

@[simp] theorem advance_pickIdx (s : State) (k : Nat) : (s.advance k).pickIdx = s.pickIdx := by
  simp [State.advance]

@[simp] theorem advance_drawIdx (s : State) (k : Nat) : (s.advance k).drawIdx = s.drawIdx := by
  simp [State.advance]

@[simp] theorem advance_ch (s : State) (k : Nat) (c : Chan) : (s.advance k).ch c = s.ch c := by
  simp [State.advance]

@[simp] theorem advance_ctx (s : State) (k : Nat) : (s.advance k).ctx = s.ctx := by
  simp [State.advance]

@[simp] theorem advance_cur (s : State) (k : Nat) : (s.advance k).cur = { s.cur with pc := s.cur.pc + k } := by
  simp [State.advance, State.cur]

theorem advance_ctxOf_ne (s : State) (k : Nat) {y : Ctx} (hy : y ≠ s.ctx) :
    (s.advance k).ctxOf y = s.ctxOf y :=
  setCtx_ctxOf_ne s _ hy

/-! ### `setRes` -/

@[simp] theorem setRes_params (s : State) (v : Word) : (s.setRes v).params = s.params := by
  simp [State.setRes]

@[simp] theorem setRes_chans (s : State) (v : Word) : (s.setRes v).chans = s.chans := by
  simp [State.setRes]

@[simp] theorem setRes_split (s : State) (v : Word) : (s.setRes v).split = s.split := by
  simp [State.setRes]

@[simp] theorem setRes_ctrlLoc (s : State) (v : Word) : (s.setRes v).ctrlLoc = s.ctrlLoc := by
  simp [State.setRes]

@[simp] theorem setRes_borrowedBy (s : State) (v : Word) : (s.setRes v).borrowedBy = s.borrowedBy := by
  simp [State.setRes]

@[simp] theorem setRes_borrowDepth (s : State) (v : Word) : (s.setRes v).borrowDepth = s.borrowDepth := by
  simp [State.setRes]

@[simp] theorem setRes_primask (s : State) (v : Word) : (s.setRes v).primask = s.primask := by
  simp [State.setRes]

@[simp] theorem setRes_isrActive (s : State) (v : Word) : (s.setRes v).isrActive = s.isrActive := by
  simp [State.setRes]

@[simp] theorem setRes_nvicPend (s : State) (v : Word) : (s.setRes v).nvicPend = s.nvicPend := by
  simp [State.setRes]

@[simp] theorem setRes_mem (s : State) (v : Word) : (s.setRes v).mem = s.mem := by
  simp [State.setRes]

@[simp] theorem setRes_log (s : State) (v : Word) : (s.setRes v).log = s.log := by
  simp [State.setRes]

@[simp] theorem setRes_fault (s : State) (v : Word) : (s.setRes v).fault = s.fault := by
  simp [State.setRes]

@[simp] theorem setRes_sched (s : State) (v : Word) : (s.setRes v).sched = s.sched := by
  simp [State.setRes]

@[simp] theorem setRes_pickIdx (s : State) (v : Word) : (s.setRes v).pickIdx = s.pickIdx := by
  simp [State.setRes]

@[simp] theorem setRes_drawIdx (s : State) (v : Word) : (s.setRes v).drawIdx = s.drawIdx := by
  simp [State.setRes]

@[simp] theorem setRes_ch (s : State) (v : Word) (c : Chan) : (s.setRes v).ch c = s.ch c := by
  simp [State.setRes]

@[simp] theorem setRes_ctx (s : State) (v : Word) : (s.setRes v).ctx = s.ctx := by
  simp [State.setRes]

@[simp] theorem setRes_cur (s : State) (v : Word) : (s.setRes v).cur = { s.cur with res := v } := by
  simp [State.setRes, State.cur]

theorem setRes_ctxOf_ne (s : State) (v : Word) {y : Ctx} (hy : y ≠ s.ctx) :
    (s.setRes v).ctxOf y = s.ctxOf y :=
  setCtx_ctxOf_ne s _ hy

/-! ### `setHold` -/

@[simp] theorem setHold_params (s : State) (h : Option Hold) : (s.setHold h).params = s.params := by
  simp [State.setHold]

@[simp] theorem setHold_chans (s : State) (h : Option Hold) : (s.setHold h).chans = s.chans := by
  simp [State.setHold]

@[simp] theorem setHold_split (s : State) (h : Option Hold) : (s.setHold h).split = s.split := by
  simp [State.setHold]

@[simp] theorem setHold_ctrlLoc (s : State) (h : Option Hold) : (s.setHold h).ctrlLoc = s.ctrlLoc := by
  simp [State.setHold]

@[simp] theorem setHold_borrowedBy (s : State) (h : Option Hold) : (s.setHold h).borrowedBy = s.borrowedBy := by
  simp [State.setHold]

@[simp] theorem setHold_borrowDepth (s : State) (h : Option Hold) : (s.setHold h).borrowDepth = s.borrowDepth := by
  simp [State.setHold]

@[simp] theorem setHold_primask (s : State) (h : Option Hold) : (s.setHold h).primask = s.primask := by
  simp [State.setHold]

@[simp] theorem setHold_isrActive (s : State) (h : Option Hold) : (s.setHold h).isrActive = s.isrActive := by
  simp [State.setHold]

@[simp] theorem setHold_nvicPend (s : State) (h : Option Hold) : (s.setHold h).nvicPend = s.nvicPend := by
  simp [State.setHold]

@[simp] theorem setHold_mem (s : State) (h : Option Hold) : (s.setHold h).mem = s.mem := by
  simp [State.setHold]

@[simp] theorem setHold_log (s : State) (h : Option Hold) : (s.setHold h).log = s.log := by
  simp [State.setHold]

@[simp] theorem setHold_fault (s : State) (h : Option Hold) : (s.setHold h).fault = s.fault := by
  simp [State.setHold]

@[simp] theorem setHold_sched (s : State) (h : Option Hold) : (s.setHold h).sched = s.sched := by
  simp [State.setHold]

@[simp] theorem setHold_pickIdx (s : State) (h : Option Hold) : (s.setHold h).pickIdx = s.pickIdx := by
  simp [State.setHold]

@[simp] theorem setHold_drawIdx (s : State) (h : Option Hold) : (s.setHold h).drawIdx = s.drawIdx := by
  simp [State.setHold]

@[simp] theorem setHold_ch (s : State) (h : Option Hold) (c : Chan) : (s.setHold h).ch c = s.ch c := by
  simp [State.setHold]

@[simp] theorem setHold_ctx (s : State) (h : Option Hold) : (s.setHold h).ctx = s.ctx := by
  simp [State.setHold]

@[simp] theorem setHold_cur (s : State) (h : Option Hold) : (s.setHold h).cur = { s.cur with hold := h } := by
  simp [State.setHold, State.cur]

theorem setHold_ctxOf_ne (s : State) (h : Option Hold) {y : Ctx} (hy : y ≠ s.ctx) :
    (s.setHold h).ctxOf y = s.ctxOf y :=
  setCtx_ctxOf_ne s _ hy

/-! ### `setCsStack` -/

@[simp] theorem setCsStack_params (s : State) (l : List Bool) : (s.setCsStack l).params = s.params := by
  simp [State.setCsStack]

@[simp] theorem setCsStack_chans (s : State) (l : List Bool) : (s.setCsStack l).chans = s.chans := by
  simp [State.setCsStack]

@[simp] theorem setCsStack_split (s : State) (l : List Bool) : (s.setCsStack l).split = s.split := by
  simp [State.setCsStack]

@[simp] theorem setCsStack_ctrlLoc (s : State) (l : List Bool) : (s.setCsStack l).ctrlLoc = s.ctrlLoc := by
  simp [State.setCsStack]

@[simp] theorem setCsStack_borrowedBy (s : State) (l : List Bool) : (s.setCsStack l).borrowedBy = s.borrowedBy := by
  simp [State.setCsStack]

@[simp] theorem setCsStack_borrowDepth (s : State) (l : List Bool) : (s.setCsStack l).borrowDepth = s.borrowDepth := by
  simp [State.setCsStack]

@[simp] theorem setCsStack_primask (s : State) (l : List Bool) : (s.setCsStack l).primask = s.primask := by
  simp [State.setCsStack]

@[simp] theorem setCsStack_isrActive (s : State) (l : List Bool) : (s.setCsStack l).isrActive = s.isrActive := by
  simp [State.setCsStack]

@[simp] theorem setCsStack_nvicPend (s : State) (l : List Bool) : (s.setCsStack l).nvicPend = s.nvicPend := by
  simp [State.setCsStack]

@[simp] theorem setCsStack_mem (s : State) (l : List Bool) : (s.setCsStack l).mem = s.mem := by
  simp [State.setCsStack]

@[simp] theorem setCsStack_log (s : State) (l : List Bool) : (s.setCsStack l).log = s.log := by
  simp [State.setCsStack]

@[simp] theorem setCsStack_fault (s : State) (l : List Bool) : (s.setCsStack l).fault = s.fault := by
  simp [State.setCsStack]

@[simp] theorem setCsStack_sched (s : State) (l : List Bool) : (s.setCsStack l).sched = s.sched := by
  simp [State.setCsStack]

@[simp] theorem setCsStack_pickIdx (s : State) (l : List Bool) : (s.setCsStack l).pickIdx = s.pickIdx := by
  simp [State.setCsStack]

@[simp] theorem setCsStack_drawIdx (s : State) (l : List Bool) : (s.setCsStack l).drawIdx = s.drawIdx := by
  simp [State.setCsStack]

@[simp] theorem setCsStack_ch (s : State) (l : List Bool) (c : Chan) : (s.setCsStack l).ch c = s.ch c := by
  simp [State.setCsStack]

@[simp] theorem setCsStack_ctx (s : State) (l : List Bool) : (s.setCsStack l).ctx = s.ctx := by
  simp [State.setCsStack]

@[simp] theorem setCsStack_cur (s : State) (l : List Bool) : (s.setCsStack l).cur = { s.cur with csStack := l } := by
  simp [State.setCsStack, State.cur]

theorem setCsStack_ctxOf_ne (s : State) (l : List Bool) {y : Ctx} (hy : y ≠ s.ctx) :
    (s.setCsStack l).ctxOf y = s.ctxOf y :=
  setCtx_ctxOf_ne s _ hy

/-! ### `logWrite` -/

@[simp] theorem logWrite_params (s : State) (c : Chan) (f : PortField) (v : Word) : (s.logWrite c f v).params = s.params := rfl

@[simp] theorem logWrite_chans (s : State) (c : Chan) (f : PortField) (v : Word) : (s.logWrite c f v).chans = s.chans := rfl

@[simp] theorem logWrite_main (s : State) (c : Chan) (f : PortField) (v : Word) : (s.logWrite c f v).main = s.main := rfl

@[simp] theorem logWrite_isr (s : State) (c : Chan) (f : PortField) (v : Word) : (s.logWrite c f v).isr = s.isr := rfl

@[simp] theorem logWrite_split (s : State) (c : Chan) (f : PortField) (v : Word) : (s.logWrite c f v).split = s.split := rfl

@[simp] theorem logWrite_ctrlLoc (s : State) (c : Chan) (f : PortField) (v : Word) : (s.logWrite c f v).ctrlLoc = s.ctrlLoc := rfl

@[simp] theorem logWrite_borrowedBy (s : State) (c : Chan) (f : PortField) (v : Word) : (s.logWrite c f v).borrowedBy = s.borrowedBy := rfl

@[simp] theorem logWrite_borrowDepth (s : State) (c : Chan) (f : PortField) (v : Word) : (s.logWrite c f v).borrowDepth = s.borrowDepth := rfl

@[simp] theorem logWrite_primask (s : State) (c : Chan) (f : PortField) (v : Word) : (s.logWrite c f v).primask = s.primask := rfl

@[simp] theorem logWrite_isrActive (s : State) (c : Chan) (f : PortField) (v : Word) : (s.logWrite c f v).isrActive = s.isrActive := rfl

@[simp] theorem logWrite_nvicPend (s : State) (c : Chan) (f : PortField) (v : Word) : (s.logWrite c f v).nvicPend = s.nvicPend := rfl

@[simp] theorem logWrite_mem (s : State) (c : Chan) (f : PortField) (v : Word) : (s.logWrite c f v).mem = s.mem := rfl

@[simp] theorem logWrite_fault (s : State) (c : Chan) (f : PortField) (v : Word) : (s.logWrite c f v).fault = s.fault := rfl

@[simp] theorem logWrite_sched (s : State) (c : Chan) (f : PortField) (v : Word) : (s.logWrite c f v).sched = s.sched := rfl

@[simp] theorem logWrite_pickIdx (s : State) (c : Chan) (f : PortField) (v : Word) : (s.logWrite c f v).pickIdx = s.pickIdx := rfl

@[simp] theorem logWrite_drawIdx (s : State) (c : Chan) (f : PortField) (v : Word) : (s.logWrite c f v).drawIdx = s.drawIdx := rfl

@[simp] theorem logWrite_log (s : State) (c : Chan) (f : PortField) (v : Word) :
    (s.logWrite c f v).log = s.log ++ [.write c f (.val v)] := rfl

@[simp] theorem logWrite_ch (s : State) (c : Chan) (f : PortField) (v : Word) (c2 : Chan) :
    (s.logWrite c f v).ch c2 = s.ch c2 := rfl

@[simp] theorem logWrite_ctx (s : State) (c : Chan) (f : PortField) (v : Word) :
    (s.logWrite c f v).ctx = s.ctx := rfl

@[simp] theorem logWrite_cur (s : State) (c : Chan) (f : PortField) (v : Word) :
    (s.logWrite c f v).cur = s.cur := rfl

@[simp] theorem logWrite_ctxOf (s : State) (c : Chan) (f : PortField) (v : Word) (y : Ctx) :
    (s.logWrite c f v).ctxOf y = s.ctxOf y := rfl

/-! ### `logRead` -/

@[simp] theorem logRead_params (s : State) (c : Chan) (f : PortField) (v : Word) : (s.logRead c f v).params = s.params := rfl

@[simp] theorem logRead_chans (s : State) (c : Chan) (f : PortField) (v : Word) : (s.logRead c f v).chans = s.chans := rfl

@[simp] theorem logRead_main (s : State) (c : Chan) (f : PortField) (v : Word) : (s.logRead c f v).main = s.main := rfl

@[simp] theorem logRead_isr (s : State) (c : Chan) (f : PortField) (v : Word) : (s.logRead c f v).isr = s.isr := rfl

@[simp] theorem logRead_split (s : State) (c : Chan) (f : PortField) (v : Word) : (s.logRead c f v).split = s.split := rfl

@[simp] theorem logRead_ctrlLoc (s : State) (c : Chan) (f : PortField) (v : Word) : (s.logRead c f v).ctrlLoc = s.ctrlLoc := rfl

@[simp] theorem logRead_borrowedBy (s : State) (c : Chan) (f : PortField) (v : Word) : (s.logRead c f v).borrowedBy = s.borrowedBy := rfl

@[simp] theorem logRead_borrowDepth (s : State) (c : Chan) (f : PortField) (v : Word) : (s.logRead c f v).borrowDepth = s.borrowDepth := rfl

@[simp] theorem logRead_primask (s : State) (c : Chan) (f : PortField) (v : Word) : (s.logRead c f v).primask = s.primask := rfl

@[simp] theorem logRead_isrActive (s : State) (c : Chan) (f : PortField) (v : Word) : (s.logRead c f v).isrActive = s.isrActive := rfl

@[simp] theorem logRead_nvicPend (s : State) (c : Chan) (f : PortField) (v : Word) : (s.logRead c f v).nvicPend = s.nvicPend := rfl

@[simp] theorem logRead_mem (s : State) (c : Chan) (f : PortField) (v : Word) : (s.logRead c f v).mem = s.mem := rfl

@[simp] theorem logRead_fault (s : State) (c : Chan) (f : PortField) (v : Word) : (s.logRead c f v).fault = s.fault := rfl

@[simp] theorem logRead_sched (s : State) (c : Chan) (f : PortField) (v : Word) : (s.logRead c f v).sched = s.sched := rfl

@[simp] theorem logRead_pickIdx (s : State) (c : Chan) (f : PortField) (v : Word) : (s.logRead c f v).pickIdx = s.pickIdx := rfl

@[simp] theorem logRead_drawIdx (s : State) (c : Chan) (f : PortField) (v : Word) : (s.logRead c f v).drawIdx = s.drawIdx := rfl

@[simp] theorem logRead_log (s : State) (c : Chan) (f : PortField) (v : Word) :
    (s.logRead c f v).log = s.log ++ [.read c f (.val v)] := rfl

@[simp] theorem logRead_ch (s : State) (c : Chan) (f : PortField) (v : Word) (c2 : Chan) :
    (s.logRead c f v).ch c2 = s.ch c2 := rfl

@[simp] theorem logRead_ctx (s : State) (c : Chan) (f : PortField) (v : Word) :
    (s.logRead c f v).ctx = s.ctx := rfl

@[simp] theorem logRead_cur (s : State) (c : Chan) (f : PortField) (v : Word) :
    (s.logRead c f v).cur = s.cur := rfl

@[simp] theorem logRead_ctxOf (s : State) (c : Chan) (f : PortField) (v : Word) (y : Ctx) :
    (s.logRead c f v).ctxOf y = s.ctxOf y := rfl

/-! ### `logDesc` -/

@[simp] theorem logDesc_params (s : State) (c : Chan) (src dst cnt ctl : Word) : (s.logDesc c src dst cnt ctl).params = s.params := rfl

@[simp] theorem logDesc_chans (s : State) (c : Chan) (src dst cnt ctl : Word) : (s.logDesc c src dst cnt ctl).chans = s.chans := rfl

@[simp] theorem logDesc_main (s : State) (c : Chan) (src dst cnt ctl : Word) : (s.logDesc c src dst cnt ctl).main = s.main := rfl

@[simp] theorem logDesc_isr (s : State) (c : Chan) (src dst cnt ctl : Word) : (s.logDesc c src dst cnt ctl).isr = s.isr := rfl

@[simp] theorem logDesc_split (s : State) (c : Chan) (src dst cnt ctl : Word) : (s.logDesc c src dst cnt ctl).split = s.split := rfl

@[simp] theorem logDesc_ctrlLoc (s : State) (c : Chan) (src dst cnt ctl : Word) : (s.logDesc c src dst cnt ctl).ctrlLoc = s.ctrlLoc := rfl

@[simp] theorem logDesc_borrowedBy (s : State) (c : Chan) (src dst cnt ctl : Word) : (s.logDesc c src dst cnt ctl).borrowedBy = s.borrowedBy := rfl

@[simp] theorem logDesc_borrowDepth (s : State) (c : Chan) (src dst cnt ctl : Word) : (s.logDesc c src dst cnt ctl).borrowDepth = s.borrowDepth := rfl

@[simp] theorem logDesc_primask (s : State) (c : Chan) (src dst cnt ctl : Word) : (s.logDesc c src dst cnt ctl).primask = s.primask := rfl

@[simp] theorem logDesc_isrActive (s : State) (c : Chan) (src dst cnt ctl : Word) : (s.logDesc c src dst cnt ctl).isrActive = s.isrActive := rfl

@[simp] theorem logDesc_nvicPend (s : State) (c : Chan) (src dst cnt ctl : Word) : (s.logDesc c src dst cnt ctl).nvicPend = s.nvicPend := rfl

@[simp] theorem logDesc_mem (s : State) (c : Chan) (src dst cnt ctl : Word) : (s.logDesc c src dst cnt ctl).mem = s.mem := rfl

@[simp] theorem logDesc_fault (s : State) (c : Chan) (src dst cnt ctl : Word) : (s.logDesc c src dst cnt ctl).fault = s.fault := rfl

@[simp] theorem logDesc_sched (s : State) (c : Chan) (src dst cnt ctl : Word) : (s.logDesc c src dst cnt ctl).sched = s.sched := rfl

@[simp] theorem logDesc_pickIdx (s : State) (c : Chan) (src dst cnt ctl : Word) : (s.logDesc c src dst cnt ctl).pickIdx = s.pickIdx := rfl

@[simp] theorem logDesc_drawIdx (s : State) (c : Chan) (src dst cnt ctl : Word) : (s.logDesc c src dst cnt ctl).drawIdx = s.drawIdx := rfl

@[simp] theorem logDesc_log (s : State) (c : Chan) (src dst cnt ctl : Word) :
    (s.logDesc c src dst cnt ctl).log = s.log ++ [.write c .desc (.desc src dst cnt ctl)] := rfl

@[simp] theorem logDesc_ch (s : State) (c : Chan) (src dst cnt ctl : Word) (c2 : Chan) :
    (s.logDesc c src dst cnt ctl).ch c2 = s.ch c2 := rfl

@[simp] theorem logDesc_ctx (s : State) (c : Chan) (src dst cnt ctl : Word) :
    (s.logDesc c src dst cnt ctl).ctx = s.ctx := rfl

@[simp] theorem logDesc_cur (s : State) (c : Chan) (src dst cnt ctl : Word) :
    (s.logDesc c src dst cnt ctl).cur = s.cur := rfl

@[simp] theorem logDesc_ctxOf (s : State) (c : Chan) (src dst cnt ctl : Word) (y : Ctx) :
    (s.logDesc c src dst cnt ctl).ctxOf y = s.ctxOf y := rfl

/-! ### `withFault` -/

@[simp] theorem withFault_params (s : State) (r : FaultRecord) : (s.withFault r).params = s.params := rfl

@[simp] theorem withFault_chans (s : State) (r : FaultRecord) : (s.withFault r).chans = s.chans := rfl

@[simp] theorem withFault_main (s : State) (r : FaultRecord) : (s.withFault r).main = s.main := rfl

@[simp] theorem withFault_isr (s : State) (r : FaultRecord) : (s.withFault r).isr = s.isr := rfl

@[simp] theorem withFault_split (s : State) (r : FaultRecord) : (s.withFault r).split = s.split := rfl

@[simp] theorem withFault_ctrlLoc (s : State) (r : FaultRecord) : (s.withFault r).ctrlLoc = s.ctrlLoc := rfl

@[simp] theorem withFault_borrowedBy (s : State) (r : FaultRecord) : (s.withFault r).borrowedBy = s.borrowedBy := rfl

@[simp] theorem withFault_borrowDepth (s : State) (r : FaultRecord) : (s.withFault r).borrowDepth = s.borrowDepth := rfl

@[simp] theorem withFault_primask (s : State) (r : FaultRecord) : (s.withFault r).primask = s.primask := rfl

@[simp] theorem withFault_isrActive (s : State) (r : FaultRecord) : (s.withFault r).isrActive = s.isrActive := rfl

@[simp] theorem withFault_nvicPend (s : State) (r : FaultRecord) : (s.withFault r).nvicPend = s.nvicPend := rfl

@[simp] theorem withFault_mem (s : State) (r : FaultRecord) : (s.withFault r).mem = s.mem := rfl

@[simp] theorem withFault_log (s : State) (r : FaultRecord) : (s.withFault r).log = s.log := rfl

@[simp] theorem withFault_sched (s : State) (r : FaultRecord) : (s.withFault r).sched = s.sched := rfl

@[simp] theorem withFault_pickIdx (s : State) (r : FaultRecord) : (s.withFault r).pickIdx = s.pickIdx := rfl

@[simp] theorem withFault_drawIdx (s : State) (r : FaultRecord) : (s.withFault r).drawIdx = s.drawIdx := rfl

@[simp] theorem withFault_fault (s : State) (r : FaultRecord) : (s.withFault r).fault = some r := rfl

@[simp] theorem withFault_ch (s : State) (r : FaultRecord) (c : Chan) : (s.withFault r).ch c = s.ch c := rfl

@[simp] theorem withFault_ctxOf (s : State) (r : FaultRecord) (y : Ctx) : (s.withFault r).ctxOf y = s.ctxOf y := rfl

/-! ### `takeInterrupt` -/

@[simp] theorem takeInterrupt_params (s : State) (v : VecNum) : (takeInterrupt s v).params = s.params := rfl

@[simp] theorem takeInterrupt_chans (s : State) (v : VecNum) : (takeInterrupt s v).chans = s.chans := rfl

@[simp] theorem takeInterrupt_main (s : State) (v : VecNum) : (takeInterrupt s v).main = s.main := rfl

@[simp] theorem takeInterrupt_split (s : State) (v : VecNum) : (takeInterrupt s v).split = s.split := rfl

@[simp] theorem takeInterrupt_ctrlLoc (s : State) (v : VecNum) : (takeInterrupt s v).ctrlLoc = s.ctrlLoc := rfl

@[simp] theorem takeInterrupt_borrowedBy (s : State) (v : VecNum) : (takeInterrupt s v).borrowedBy = s.borrowedBy := rfl

@[simp] theorem takeInterrupt_borrowDepth (s : State) (v : VecNum) : (takeInterrupt s v).borrowDepth = s.borrowDepth := rfl

@[simp] theorem takeInterrupt_primask (s : State) (v : VecNum) : (takeInterrupt s v).primask = s.primask := rfl

@[simp] theorem takeInterrupt_mem (s : State) (v : VecNum) : (takeInterrupt s v).mem = s.mem := rfl

@[simp] theorem takeInterrupt_log (s : State) (v : VecNum) : (takeInterrupt s v).log = s.log := rfl

@[simp] theorem takeInterrupt_fault (s : State) (v : VecNum) : (takeInterrupt s v).fault = s.fault := rfl

@[simp] theorem takeInterrupt_sched (s : State) (v : VecNum) : (takeInterrupt s v).sched = s.sched := rfl

@[simp] theorem takeInterrupt_pickIdx (s : State) (v : VecNum) : (takeInterrupt s v).pickIdx = s.pickIdx := rfl

@[simp] theorem takeInterrupt_drawIdx (s : State) (v : VecNum) : (takeInterrupt s v).drawIdx = s.drawIdx := rfl

@[simp] theorem takeInterrupt_isrActive (s : State) (v : VecNum) : (takeInterrupt s v).isrActive = some v := rfl

@[simp] theorem takeInterrupt_isr (s : State) (v : VecNum) :
    (takeInterrupt s v).isr = { pc := 0, res := 0, hold := none, csStack := [] } := rfl

@[simp] theorem takeInterrupt_ch (s : State) (v : VecNum) (c : Chan) : (takeInterrupt s v).ch c = s.ch c := rfl

/-! ### `returnFromInterrupt` -/

@[simp] theorem returnFromInterrupt_params (s : State) : (returnFromInterrupt s).params = s.params := rfl

@[simp] theorem returnFromInterrupt_chans (s : State) : (returnFromInterrupt s).chans = s.chans := rfl

@[simp] theorem returnFromInterrupt_main (s : State) : (returnFromInterrupt s).main = s.main := rfl

@[simp] theorem returnFromInterrupt_isr (s : State) : (returnFromInterrupt s).isr = s.isr := rfl

@[simp] theorem returnFromInterrupt_split (s : State) : (returnFromInterrupt s).split = s.split := rfl

@[simp] theorem returnFromInterrupt_ctrlLoc (s : State) : (returnFromInterrupt s).ctrlLoc = s.ctrlLoc := rfl

@[simp] theorem returnFromInterrupt_borrowedBy (s : State) : (returnFromInterrupt s).borrowedBy = s.borrowedBy := rfl

@[simp] theorem returnFromInterrupt_borrowDepth (s : State) : (returnFromInterrupt s).borrowDepth = s.borrowDepth := rfl

@[simp] theorem returnFromInterrupt_primask (s : State) : (returnFromInterrupt s).primask = s.primask := rfl

@[simp] theorem returnFromInterrupt_nvicPend (s : State) : (returnFromInterrupt s).nvicPend = s.nvicPend := rfl

@[simp] theorem returnFromInterrupt_mem (s : State) : (returnFromInterrupt s).mem = s.mem := rfl

@[simp] theorem returnFromInterrupt_log (s : State) : (returnFromInterrupt s).log = s.log := rfl

@[simp] theorem returnFromInterrupt_fault (s : State) : (returnFromInterrupt s).fault = s.fault := rfl

@[simp] theorem returnFromInterrupt_sched (s : State) : (returnFromInterrupt s).sched = s.sched := rfl

@[simp] theorem returnFromInterrupt_pickIdx (s : State) : (returnFromInterrupt s).pickIdx = s.pickIdx := rfl

@[simp] theorem returnFromInterrupt_drawIdx (s : State) : (returnFromInterrupt s).drawIdx = s.drawIdx := rfl

@[simp] theorem returnFromInterrupt_isrActive (s : State) : (returnFromInterrupt s).isrActive = none := rfl

@[simp] theorem returnFromInterrupt_ch (s : State) (c : Chan) : (returnFromInterrupt s).ch c = s.ch c := rfl

@[simp] theorem returnFromInterrupt_ctxOf (s : State) (y : Ctx) :
    (returnFromInterrupt s).ctxOf y = s.ctxOf y := by
  cases y <;> rfl

/-! ### `latchPending` -/

@[simp] theorem latchPending_params (s : State) : (latchPending s).params = s.params := by
  simp only [latchPending]

@[simp] theorem latchPending_chans (s : State) : (latchPending s).chans = s.chans := by
  simp only [latchPending]

@[simp] theorem latchPending_main (s : State) : (latchPending s).main = s.main := by
  simp only [latchPending]

@[simp] theorem latchPending_isr (s : State) : (latchPending s).isr = s.isr := by
  simp only [latchPending]

@[simp] theorem latchPending_split (s : State) : (latchPending s).split = s.split := by
  simp only [latchPending]

@[simp] theorem latchPending_ctrlLoc (s : State) : (latchPending s).ctrlLoc = s.ctrlLoc := by
  simp only [latchPending]

@[simp] theorem latchPending_borrowedBy (s : State) : (latchPending s).borrowedBy = s.borrowedBy := by
  simp only [latchPending]

@[simp] theorem latchPending_borrowDepth (s : State) : (latchPending s).borrowDepth = s.borrowDepth := by
  simp only [latchPending]

@[simp] theorem latchPending_primask (s : State) : (latchPending s).primask = s.primask := by
  simp only [latchPending]

@[simp] theorem latchPending_isrActive (s : State) : (latchPending s).isrActive = s.isrActive := by
  simp only [latchPending]

@[simp] theorem latchPending_mem (s : State) : (latchPending s).mem = s.mem := by
  simp only [latchPending]

@[simp] theorem latchPending_log (s : State) : (latchPending s).log = s.log := by
  simp only [latchPending]

@[simp] theorem latchPending_fault (s : State) : (latchPending s).fault = s.fault := by
  simp only [latchPending]

@[simp] theorem latchPending_sched (s : State) : (latchPending s).sched = s.sched := by
  simp only [latchPending]

@[simp] theorem latchPending_pickIdx (s : State) : (latchPending s).pickIdx = s.pickIdx := by
  simp only [latchPending]

@[simp] theorem latchPending_drawIdx (s : State) : (latchPending s).drawIdx = s.drawIdx := by
  simp only [latchPending]

@[simp] theorem latchPending_ch (s : State) (c : Chan) : (latchPending s).ch c = s.ch c := by
  simp only [latchPending, State.ch]

@[simp] theorem latchPending_ctx (s : State) : (latchPending s).ctx = s.ctx := by
  simp [State.ctx]

@[simp] theorem latchPending_ctxOf (s : State) (y : Ctx) : (latchPending s).ctxOf y = s.ctxOf y := by
  cases y <;> simp only [latchPending, State.ctxOf]

/-- A latch at the end of a step (R311). -/
@[simp] theorem latchPending_nvicPend (s : State) (v : VecNum) :
    (latchPending s).nvicPend[v] =
      (s.nvicPend[v]
        || (vectorValid s.params v && decide (s.isrActive ≠ some v) && vectorLine s v)) := by
  simp [latchPending]

/-! ### `dropPick` -/

@[simp] theorem dropPick_params (s : State) : (dropPick s).params = s.params := by
  unfold dropPick; split <;> rfl

@[simp] theorem dropPick_chans (s : State) : (dropPick s).chans = s.chans := by
  unfold dropPick; split <;> rfl

@[simp] theorem dropPick_main (s : State) : (dropPick s).main = s.main := by
  unfold dropPick; split <;> rfl

@[simp] theorem dropPick_isr (s : State) : (dropPick s).isr = s.isr := by
  unfold dropPick; split <;> rfl

@[simp] theorem dropPick_split (s : State) : (dropPick s).split = s.split := by
  unfold dropPick; split <;> rfl

@[simp] theorem dropPick_ctrlLoc (s : State) : (dropPick s).ctrlLoc = s.ctrlLoc := by
  unfold dropPick; split <;> rfl

@[simp] theorem dropPick_borrowedBy (s : State) : (dropPick s).borrowedBy = s.borrowedBy := by
  unfold dropPick; split <;> rfl

@[simp] theorem dropPick_borrowDepth (s : State) : (dropPick s).borrowDepth = s.borrowDepth := by
  unfold dropPick; split <;> rfl

@[simp] theorem dropPick_primask (s : State) : (dropPick s).primask = s.primask := by
  unfold dropPick; split <;> rfl

@[simp] theorem dropPick_isrActive (s : State) : (dropPick s).isrActive = s.isrActive := by
  unfold dropPick; split <;> rfl

@[simp] theorem dropPick_nvicPend (s : State) : (dropPick s).nvicPend = s.nvicPend := by
  unfold dropPick; split <;> rfl

@[simp] theorem dropPick_mem (s : State) : (dropPick s).mem = s.mem := by
  unfold dropPick; split <;> rfl

@[simp] theorem dropPick_log (s : State) : (dropPick s).log = s.log := by
  unfold dropPick; split <;> rfl

@[simp] theorem dropPick_fault (s : State) : (dropPick s).fault = s.fault := by
  unfold dropPick; split <;> rfl

@[simp] theorem dropPick_drawIdx (s : State) : (dropPick s).drawIdx = s.drawIdx := by
  unfold dropPick; split <;> rfl

@[simp] theorem dropPick_ch (s : State) (c : Chan) : (dropPick s).ch c = s.ch c := by
  simp [State.ch]

@[simp] theorem dropPick_ctx (s : State) : (dropPick s).ctx = s.ctx := by
  simp [State.ctx]

@[simp] theorem dropPick_ctxOf (s : State) (y : Ctx) : (dropPick s).ctxOf y = s.ctxOf y := by
  cases y <;> simp [State.ctxOf]

@[simp] theorem dropPick_cur (s : State) : (dropPick s).cur = s.cur := by
  simp [State.cur]

@[simp] theorem dropPick_program (s : State) : (dropPick s).program = s.program := by
  simp [State.program]

@[simp] theorem dropPick_fetchWords (s : State) : fetchWords (dropPick s) = fetchWords s := by
  simp [fetchWords]

/-! ### `setProgram` -/

@[simp] theorem setProgram_chans (s : State) (l : List Word) : (s.setProgram l).chans = s.chans := by
  unfold State.setProgram; split <;> rfl

@[simp] theorem setProgram_main (s : State) (l : List Word) : (s.setProgram l).main = s.main := by
  unfold State.setProgram; split <;> rfl

@[simp] theorem setProgram_isr (s : State) (l : List Word) : (s.setProgram l).isr = s.isr := by
  unfold State.setProgram; split <;> rfl

@[simp] theorem setProgram_split (s : State) (l : List Word) : (s.setProgram l).split = s.split := by
  unfold State.setProgram; split <;> rfl

@[simp] theorem setProgram_ctrlLoc (s : State) (l : List Word) : (s.setProgram l).ctrlLoc = s.ctrlLoc := by
  unfold State.setProgram; split <;> rfl

@[simp] theorem setProgram_borrowedBy (s : State) (l : List Word) : (s.setProgram l).borrowedBy = s.borrowedBy := by
  unfold State.setProgram; split <;> rfl

@[simp] theorem setProgram_borrowDepth (s : State) (l : List Word) : (s.setProgram l).borrowDepth = s.borrowDepth := by
  unfold State.setProgram; split <;> rfl

@[simp] theorem setProgram_primask (s : State) (l : List Word) : (s.setProgram l).primask = s.primask := by
  unfold State.setProgram; split <;> rfl

@[simp] theorem setProgram_isrActive (s : State) (l : List Word) : (s.setProgram l).isrActive = s.isrActive := by
  unfold State.setProgram; split <;> rfl

@[simp] theorem setProgram_nvicPend (s : State) (l : List Word) : (s.setProgram l).nvicPend = s.nvicPend := by
  unfold State.setProgram; split <;> rfl

@[simp] theorem setProgram_mem (s : State) (l : List Word) : (s.setProgram l).mem = s.mem := by
  unfold State.setProgram; split <;> rfl

@[simp] theorem setProgram_log (s : State) (l : List Word) : (s.setProgram l).log = s.log := by
  unfold State.setProgram; split <;> rfl

@[simp] theorem setProgram_fault (s : State) (l : List Word) : (s.setProgram l).fault = s.fault := by
  unfold State.setProgram; split <;> rfl

@[simp] theorem setProgram_sched (s : State) (l : List Word) : (s.setProgram l).sched = s.sched := by
  unfold State.setProgram; split <;> rfl

@[simp] theorem setProgram_pickIdx (s : State) (l : List Word) : (s.setProgram l).pickIdx = s.pickIdx := by
  unfold State.setProgram; split <;> rfl

@[simp] theorem setProgram_drawIdx (s : State) (l : List Word) : (s.setProgram l).drawIdx = s.drawIdx := by
  unfold State.setProgram; split <;> rfl

@[simp] theorem setProgram_program (s : State) (l : List Word) : (s.setProgram l).program = l := by
  unfold State.setProgram; split <;> simp [State.program, *]

/-! ### Ownership depends on the slot only -/

theorem owner_congr {s t : State} (hl : t.ctrlLoc = s.ctrlLoc) (hb : t.borrowedBy = s.borrowedBy)
    (x : Ctx) : owner t x = owner s x := by
  simp [owner, hl, hb]

theorem ctx_congr {s t : State} (h : t.isrActive = s.isrActive) : t.ctx = s.ctx := by
  simp [State.ctx, h]

@[simp] theorem ctxOf_main (s : State) : s.ctxOf .main = s.main := rfl

@[simp] theorem ctxOf_isr (s : State) : s.ctxOf .isr = s.isr := rfl

end Sys2Proof.Machine
end

