-- ==== Sys2Proof/Laws/Checks.lean ====
section
/-! SUPPORT. The common checks and predicates: what `onChannel` answers (R109), who owns the controller
(R225), which channels exist (R21), and the bound ranges (R171). -/

namespace Sys2Proof.Machine

/-! ### Channels that exist -/

theorem mem_allChans (c : Chan) : c ∈ allChans := by
  refine List.mem_map.2 ⟨c.toNat, List.mem_range.2 c.isLt, ?_⟩
  simp

theorem chanValid_iff (p : Params) (c : Chan) :
    chanValid p c = true ↔ c.toNat < p.numChannels := by
  simp [chanValid]

theorem existsChan_iff (p : Params) (f : Chan → Bool) :
    existsChan p f = true ↔ ∃ c : Chan, c.toNat < p.numChannels ∧ f c = true := by
  simp [existsChan, chanValid, mem_allChans]

/-- R310: a vector's line is high exactly when a channel routed to it has an enabled flag set. -/
theorem vectorLine_iff (s : State) (v : VecNum) :
    vectorLine s v = true ↔
      ∃ c : Chan, c.toNat < s.params.numChannels ∧ routeOf s.params c = v.val
        ∧ (s.ch c).intflag &&& (s.ch c).inten ≠ 0 := by
  simp only [vectorLine, channelLine, existsChan_iff, Bool.and_eq_true, decide_eq_true_eq]

/-- What the first SPLIT does to a channel (R120). -/
theorem splitChannels_get (p : Params) (v : Vector Channel 32) (c : Chan) :
    (splitChannels p v)[c.toNat]'c.isLt =
      if c.toNat < p.numChannels then { v[c.toNat]'c.isLt with status := .uninitialized }
      else v[c.toNat]'c.isLt := by
  simp [splitChannels]

/-- A channel after the first SPLIT (R120). -/
theorem ch_splitChannels (s : State) (b : Bool) (c : Chan) :
    ({ s with split := b, chans := splitChannels s.params s.chans } : State).ch c =
      if c.toNat < s.params.numChannels then { s.ch c with status := .uninitialized }
      else s.ch c := by
  simp only [State.ch]
  rw [splitChannels_get]

/-! ### Ownership -/

theorem owner_iff (s : State) (x : Ctx) :
    owner s x = true ↔
      (x = .main ∧ s.ctrlLoc = .main) ∨ (s.ctrlLoc = .cell ∧ s.borrowedBy = some x) := by
  simp [owner]

/-! ### The channel checks -/

/-- Everything `onChannel` can answer: one of the four faults of R109, each under its condition, or
the command's effect when the four checks pass. -/
theorem onChannel_eq (s : State) (w : Word) (c : Chan) (allowed : Status → Bool) (k : StepResult) :
    onChannel s w c allowed k =
      if s.params.numChannels ≤ c.toNat then raise s .badChannel w
      else if owner s s.ctx = false then raise s .notOwner w
      else if s.split = false then raise s .notSplit w
      else if allowed (s.ch c).status = false then
        .next (s.withFault (commandFault s .illegalState w (some (s.ch c).status)))
      else k := by
  have hv : chanValid s.params c = false ↔ s.params.numChannels ≤ c.toNat := by
    simp [chanValid]
  unfold onChannel chanFault
  simp only [hv]
  split
  next r h =>
    (repeat' split at h) <;> first | (cases h; simp [raise, *]) | simp_all
  next h =>
    (repeat' split at h) <;> simp_all

/-- A command whose channel checks pass is its effect. -/
theorem onChannel_pass {s : State} {w : Word} {c : Chan} {allowed : Status → Bool} {k : StepResult}
    (hc : c.toNat < s.params.numChannels) (ho : owner s s.ctx = true) (hs : s.split = true)
    (ht : allowed (s.ch c).status = true) : onChannel s w c allowed k = k := by
  simp [onChannel_eq, Nat.not_le.2 hc, ho, hs, ht]

/-- A command on a channel either raised a fault, which changes nothing else, or passed its checks. -/
theorem onChannel_cases {s t : State} {w : Word} {c : Chan} {allowed : Status → Bool}
    {k : StepResult} (h : onChannel s w c allowed k = .next t) :
    (∃ r, t = s.withFault r) ∨
      (c.toNat < s.params.numChannels ∧ owner s s.ctx = true ∧ s.split = true
        ∧ allowed (s.ch c).status = true ∧ k = .next t) := by
  rw [onChannel_eq] at h
  split at h
  · exact .inl ⟨_, (Host.Outcome.next.inj h).symm⟩
  split at h
  · exact .inl ⟨_, (Host.Outcome.next.inj h).symm⟩
  split at h
  · exact .inl ⟨_, (Host.Outcome.next.inj h).symm⟩
  split at h
  · exact .inl ⟨_, (Host.Outcome.next.inj h).symm⟩
  · right
    simp_all

/-! ### Ranges -/

theorem inRange_iff (start : Word) (len : Nat) (a : Word) :
    inRange start len a = true ↔
      ∃ k : Nat, k < len ∧ k < 4294967296 ∧ a = start + BitVec.ofNat 32 k := by
  simp only [inRange, decide_eq_true_eq]
  constructor
  · intro h
    refine ⟨(a - start).toNat, h, (a - start).isLt, ?_⟩
    rw [BitVec.ofNat_toNat, BitVec.setWidth_eq, BitVec.add_comm, BitVec.sub_add_cancel]
  · rintro ⟨k, hk, hk', rfl⟩
    have : start + BitVec.ofNat 32 k - start = BitVec.ofNat 32 k := by
      rw [BitVec.add_comm, BitVec.add_sub_cancel]
    rw [this, BitVec.toNat_ofNat, Nat.mod_eq_of_lt (by omega)]
    exact hk

theorem sizeBytes_eq (n : Size) : sizeBytes n = 2 ^ (sizeCode n).toNat := by cases n <;> rfl

/-- The range of an end (R171): it never wraps onto itself, being at most 4 * 65535 bytes. -/
theorem rangeLen_eq (ch : Channel) (inc : Bool) :
    rangeLen ch inc = 2 ^ (sizeCode ch.dSize).toNat * (if inc = true then ch.dCnt.toNat else 1) := by
  rw [rangeLen, sizeBytes_eq]

theorem rangeLen_lt (ch : Channel) (inc : Bool) : rangeLen ch inc < 4294967296 := by
  have := ch.dCnt.isLt
  unfold rangeLen
  cases ch.dSize <;> cases inc <;> simp [sizeBytes] <;> omega

/-- R178 for a read. -/
theorem raceRead_iff (s : State) (a : Word) (n : Nat) :
    raceRead s a n = true ↔
      ∃ c : Chan, c.toNat < s.params.numChannels ∧ (s.ch c).status = .busy ∧
        ∃ i, i < n ∧ inDestRange (s.ch c) (a + BitVec.ofNat 32 i) = true := by
  simp [raceRead, existsChan_iff, anyByte_iff]

/-- R178 for a write. -/
theorem raceWrite_iff (s : State) (a : Word) (n : Nat) :
    raceWrite s a n = true ↔
      ∃ c : Chan, c.toNat < s.params.numChannels ∧ (s.ch c).status = .busy ∧
        ∃ i, i < n ∧ (inSourceRange (s.ch c) (a + BitVec.ofNat 32 i) = true
          ∨ inDestRange (s.ch c) (a + BitVec.ofNat 32 i) = true) := by
  simp [raceWrite, existsChan_iff, anyByte_iff]

/-! ### Operand forms -/

theorem sizeOfBits_sizeCode (n : Size) : sizeOfBits (sizeCode n) = some n := by cases n <;> rfl

theorem sizeOfBits_none_iff (b : BitVec 2) : sizeOfBits b = none ↔ b = 3 := by
  revert b; decide

theorem sizeOfBits_some {b : BitVec 2} {n : Size} (h : sizeOfBits b = some n) : sizeCode n = b := by
  revert b; cases n <;> decide

theorem trigActOfBits_trigActCode (a : TrigAct) : trigActOfBits (trigActCode a) = some a := by
  cases a <;> rfl

theorem trigActOfBits_none_iff (b : BitVec 2) : trigActOfBits b = none ↔ b = 3 := by
  revert b; decide

theorem trigActOfBits_some {b : BitVec 2} {a : TrigAct} (h : trigActOfBits b = some a) :
    trigActCode a = b := by
  revert b; cases a <;> decide

theorem aligned_iff (a : Word) (n : Size) :
    aligned a n = true ↔ a.toNat % 2 ^ (sizeCode n).toNat = 0 := by
  simp [aligned, sizeBytes_eq]

end Sys2Proof.Machine
end

