-- ==== Sys2Proof/Laws/Decode.lean ====
section
/-! SUPPORT. The fields of a command word (R90, R92): as numbers, of the words the encoder builds, and
back from the fields to the word. -/

namespace Sys2Proof

/-! ### Fields as numbers -/

theorem toNat_field (w : Word) (k n : Nat) :
    (w.extractLsb' k n).toNat = w.toNat / 2 ^ k % 2 ^ n := by
  simp only [BitVec.extractLsb'_toNat, Nat.shiftRight_eq_div_pow]

theorem toNat_opcodeOf (w : Word) : (opcodeOf w).toNat = w.toNat % 64 := by
  simp [opcodeOf]

/-- The bits from k up are 0 exactly when the word is below 2^k. -/
theorem high_zero_iff (w : Word) (k n : Nat) (h : k + n = 32) :
    w.extractLsb' k n = 0 ↔ w.toNat / 2 ^ k = 0 := by
  have hlt : w.toNat / 2 ^ k < 2 ^ n := by
    rw [Nat.div_lt_iff_lt_mul (by positivity), ← pow_add, Nat.add_comm, h]
    exact w.isLt
  rw [← BitVec.toNat_inj, toNat_field, Nat.mod_eq_of_lt hlt]
  simp

/-! ### The words the encoder builds, as numbers -/

/-- Two adjacent bit fields as a number. -/
theorem toNat_append_add {n m : Nat} (x : BitVec n) (y : BitVec m) :
    (x ++ y).toNat = x.toNat * 2 ^ m + y.toNat := by
  rw [BitVec.toNat_append, ← Nat.shiftLeft_add_eq_or_of_lt y.isLt, Nat.shiftLeft_eq]

theorem toNat_wordN (c : Chan) (o : BitVec 6) :
    (wordN c o).toNat = c.toNat * 64 + o.toNat := by
  unfold wordN
  rw [toNat_append_add, toNat_append_add]
  simp

theorem toNat_wordPair (x : BitVec 2) (c : Chan) (o : BitVec 6) :
    (wordPair x c o).toNat = x.toNat * 2048 + c.toNat * 64 + o.toNat := by
  unfold wordPair
  rw [toNat_append_add, toNat_append_add, toNat_append_add]
  simp
  omega

theorem toNat_wordM (x : FlagSet) (c : Chan) (o : BitVec 6) :
    (wordM x c o).toNat = x.toNat * 2048 + c.toNat * 64 + o.toNat := by
  unfold wordM
  rw [toNat_append_add, toNat_append_add, toNat_append_add]
  simp
  omega

theorem toNat_wordB (x : BitVec 4) (c : Chan) (o : BitVec 6) :
    (wordB x c o).toNat = x.toNat * 2048 + c.toNat * 64 + o.toNat := by
  unfold wordB
  rw [toNat_append_add, toNat_append_add, toNat_append_add]
  simp
  omega

theorem toNat_wordT (a : BitVec 2) (x : BitVec 7) (c : Chan) (o : BitVec 6) :
    (wordT a x c o).toNat = a.toNat * 262144 + x.toNat * 2048 + c.toNat * 64 + o.toNat := by
  unfold wordT
  rw [toNat_append_add, toNat_append_add, toNat_append_add, toNat_append_add]
  simp
  omega

/-! ### The word from its fields -/

theorem wordN_of_fields (w : Word) (h : w.extractLsb' 11 21 = 0) :
    wordN (chanField w) (opcodeOf w) = w := by
  rw [high_zero_iff w 11 21 rfl] at h
  apply BitVec.eq_of_toNat_eq
  rw [toNat_wordN, toNat_opcodeOf, chanField, toNat_field]
  omega

theorem wordPair_of_fields (w : Word) (h : w.extractLsb' 13 19 = 0) :
    wordPair (pairField w) (chanField w) (opcodeOf w) = w := by
  rw [high_zero_iff w 13 19 rfl] at h
  apply BitVec.eq_of_toNat_eq
  rw [toNat_wordPair, toNat_opcodeOf, chanField, pairField, toNat_field, toNat_field]
  omega

theorem wordM_of_fields (w : Word) (h : w.extractLsb' 14 18 = 0) :
    wordM (maskField w) (chanField w) (opcodeOf w) = w := by
  rw [high_zero_iff w 14 18 rfl] at h
  apply BitVec.eq_of_toNat_eq
  rw [toNat_wordM, toNat_opcodeOf, chanField, maskField, toNat_field, toNat_field]
  omega

theorem wordB_of_fields (w : Word) (h : w.extractLsb' 15 17 = 0) :
    wordB (blenField w) (chanField w) (opcodeOf w) = w := by
  rw [high_zero_iff w 15 17 rfl] at h
  apply BitVec.eq_of_toNat_eq
  rw [toNat_wordB, toNat_opcodeOf, chanField, blenField, toNat_field, toNat_field]
  omega

theorem wordT_of_fields (w : Word) (h : w.extractLsb' 20 12 = 0) :
    wordT (trigactField w) (trigsrcField w) (chanField w) (opcodeOf w) = w := by
  rw [high_zero_iff w 20 12 rfl] at h
  apply BitVec.eq_of_toNat_eq
  rw [toNat_wordT, toNat_opcodeOf, chanField, trigactField, trigsrcField, toNat_field, toNat_field,
    toNat_field]
  omega

/-! ### The fields of the words the encoder builds -/

/-- A field of a word, from its number. -/
theorem field_eq {n : Nat} (w : Word) (k : Nat) (x : BitVec n)
    (h : w.toNat / 2 ^ k % 2 ^ n = x.toNat) : w.extractLsb' k n = x := by
  apply BitVec.eq_of_toNat_eq
  rw [toNat_field, h]

theorem fields_wordN (c : Chan) (o : BitVec 6) :
    opcodeOf (wordN c o) = o ∧ chanField (wordN c o) = c
      ∧ (wordN c o).extractLsb' 11 21 = 0 := by
  have hw := toNat_wordN c o
  have := c.isLt
  have := o.isLt
  refine ⟨field_eq _ _ _ ?_, field_eq _ _ _ ?_, field_eq _ _ _ ?_⟩ <;> rw [hw] <;> simp <;> omega

theorem fields_wordN_zero (o : BitVec 6) : (wordN 0#5 o).extractLsb' 6 26 = 0 := by
  have := o.isLt
  refine field_eq _ _ _ ?_
  rw [toNat_wordN]
  simp
  omega

theorem fields_wordPair (x : BitVec 2) (c : Chan) (o : BitVec 6) :
    opcodeOf (wordPair x c o) = o ∧ chanField (wordPair x c o) = c ∧ pairField (wordPair x c o) = x
      ∧ (wordPair x c o).extractLsb' 13 19 = 0 := by
  have hw := toNat_wordPair x c o
  have := c.isLt
  have := o.isLt
  have := x.isLt
  refine ⟨field_eq _ _ _ ?_, field_eq _ _ _ ?_, field_eq _ _ _ ?_, field_eq _ _ _ ?_⟩ <;> rw [hw] <;>
    simp <;> omega

theorem fields_wordM (x : FlagSet) (c : Chan) (o : BitVec 6) :
    opcodeOf (wordM x c o) = o ∧ chanField (wordM x c o) = c ∧ maskField (wordM x c o) = x
      ∧ (wordM x c o).extractLsb' 14 18 = 0 := by
  have hw := toNat_wordM x c o
  have := c.isLt
  have := o.isLt
  have := x.isLt
  refine ⟨field_eq _ _ _ ?_, field_eq _ _ _ ?_, field_eq _ _ _ ?_, field_eq _ _ _ ?_⟩ <;> rw [hw] <;>
    simp <;> omega

theorem fields_wordB (x : BitVec 4) (c : Chan) (o : BitVec 6) :
    opcodeOf (wordB x c o) = o ∧ chanField (wordB x c o) = c ∧ blenField (wordB x c o) = x
      ∧ (wordB x c o).extractLsb' 15 17 = 0 := by
  have hw := toNat_wordB x c o
  have := c.isLt
  have := o.isLt
  have := x.isLt
  refine ⟨field_eq _ _ _ ?_, field_eq _ _ _ ?_, field_eq _ _ _ ?_, field_eq _ _ _ ?_⟩ <;> rw [hw] <;>
    simp <;> omega

theorem fields_wordT (a : BitVec 2) (x : BitVec 7) (c : Chan) (o : BitVec 6) :
    opcodeOf (wordT a x c o) = o ∧ chanField (wordT a x c o) = c
      ∧ trigsrcField (wordT a x c o) = x ∧ trigactField (wordT a x c o) = a
      ∧ (wordT a x c o).extractLsb' 20 12 = 0 := by
  have hw := toNat_wordT a x c o
  have := c.isLt
  have := o.isLt
  have := x.isLt
  have := a.isLt
  refine ⟨field_eq _ _ _ ?_, field_eq _ _ _ ?_, field_eq _ _ _ ?_, field_eq _ _ _ ?_,
    field_eq _ _ _ ?_⟩ <;> rw [hw] <;> simp <;> omega

/-! ### What each format answers -/

theorem decodeG_ok {w : Word} {i j : Instr} {args rest : List Word}
    (h : decodeG w i args = .ok j rest) : w.extractLsb' 6 26 = 0 ∧ j = i ∧ rest = args := by
  unfold decodeG at h
  split at h
  next hz => injection h with h1 h2; exact ⟨hz, h1.symm, h2.symm⟩
  next => cases h

theorem decodeN_ok {w : Word} {mk : Chan → Instr} {j : Instr} {args rest : List Word}
    (h : decodeN w mk args = .ok j rest) :
    w.extractLsb' 11 21 = 0 ∧ j = mk (chanField w) ∧ rest = args := by
  unfold decodeN at h
  split at h
  next hz => injection h with h1 h2; exact ⟨hz, h1.symm, h2.symm⟩
  next => cases h

theorem decodePair_ok {w : Word} {mk : Chan → BitVec 2 → Instr} {j : Instr} {args rest : List Word}
    (h : decodePair w mk args = .ok j rest) :
    w.extractLsb' 13 19 = 0 ∧ j = mk (chanField w) (pairField w) ∧ rest = args := by
  unfold decodePair at h
  split at h
  next hz => injection h with h1 h2; exact ⟨hz, h1.symm, h2.symm⟩
  next => cases h

theorem decodeM_ok {w : Word} {mk : Chan → FlagSet → Instr} {j : Instr} {args rest : List Word}
    (h : decodeM w mk args = .ok j rest) :
    w.extractLsb' 14 18 = 0 ∧ j = mk (chanField w) (maskField w) ∧ rest = args := by
  unfold decodeM at h
  split at h
  next hz => injection h with h1 h2; exact ⟨hz, h1.symm, h2.symm⟩
  next => cases h

theorem decodeB_ok {w : Word} {mk : Chan → BitVec 4 → Instr} {j : Instr} {args rest : List Word}
    (h : decodeB w mk args = .ok j rest) :
    w.extractLsb' 15 17 = 0 ∧ j = mk (chanField w) (blenField w) ∧ rest = args := by
  unfold decodeB at h
  split at h
  next hz => injection h with h1 h2; exact ⟨hz, h1.symm, h2.symm⟩
  next => cases h

theorem decodeT_ok {w : Word} {j : Instr} {args rest : List Word}
    (h : decodeT w args = .ok j rest) :
    w.extractLsb' 20 12 = 0 ∧ trigactField w ≠ 3
      ∧ j = .start (chanField w) (trigsrcField w) (trigactField w) ∧ rest = args := by
  unfold decodeT at h
  split at h
  next hz =>
    split at h
    next => cases h
    next ha => injection h with h1 h2; exact ⟨hz, ha, h1.symm, h2.symm⟩
  next => cases h

theorem decodeD_ok {w : Word} {j : Instr} {args rest : List Word}
    (h : decodeD w args = .ok j rest) :
    w.extractLsb' 11 21 = 0 ∧
      ∃ src dst cnt ctl, args = src :: dst :: cnt :: ctl :: rest
        ∧ j = .bind (chanField w) src dst cnt ctl := by
  unfold decodeD at h
  split at h
  next hz =>
    split at h
    next => injection h with h1 h2; subst h2; exact ⟨hz, _, _, _, _, rfl, h1.symm⟩
    next => cases h
  next => cases h

theorem rejectS_none {w : Word} (h : rejectS w = none) :
    w.extractLsb' 13 19 = 0 ∧ w.extractLsb' 6 5 = 0 ∧ pairField w ≠ 3 := by
  unfold rejectS at h
  split at h
  next hz =>
    split at h
    next => cases h
    next hp => exact ⟨hz.1, hz.2, hp⟩
  next => cases h

theorem decodeMemrd_ok {w : Word} {j : Instr} {args rest : List Word}
    (h : decodeMemrd w args = .ok j rest) :
    rejectS w = none ∧ ∃ addr, args = addr :: rest ∧ j = .memrd (pairField w) addr := by
  unfold decodeMemrd at h
  split at h
  next => cases h
  next hr =>
    split at h
    next => injection h with h1 h2; subst h2; exact ⟨hr, _, rfl, h1.symm⟩
    next => cases h

theorem decodeMemwr_ok {w : Word} {j : Instr} {args rest : List Word}
    (h : decodeMemwr w args = .ok j rest) :
    rejectS w = none
      ∧ ∃ addr data, args = addr :: data :: rest ∧ j = .memwr (pairField w) addr data := by
  unfold decodeMemwr at h
  split at h
  next => cases h
  next hr =>
    split at h
    next => injection h with h1 h2; subst h2; exact ⟨hr, _, _, rfl, h1.symm⟩
    next => cases h

end Sys2Proof
end

