-- ==== Sys2Proof/Laws/Encode.lean ====
section
/-! SUPPORT. The words of each command as the number of R92's format, one lemma per constructor. -/

namespace Sys2Proof.Safety

/-- A word with the value of the formula is the formula's word. -/
theorem encodedAs_of_toNat {i : Instr} {opc c x : Nat}
    (h : (commandWord i).toNat = opc + c * 2 ^ 6 + x * 2 ^ 11) :
    encodedAs i opc c x (argWords i) := by
  simp only [encodedAs, encode, ← h, BitVec.ofNat_toNat, BitVec.setWidth_eq]

theorem encodedAs_split : encodedAs .split 0x01 0 0 [] := rfl

theorem encodedAs_init (c : Chan) (lvl : BitVec 2) :
    encodedAs (.init c lvl) 0x02 c.toNat lvl.toNat [] :=
  encodedAs_of_toNat (by simp only [commandWord, toNat_wordPair]; simp; omega)

theorem encodedAs_reset (c : Chan) : encodedAs (.reset c) 0x03 c.toNat 0 [] :=
  encodedAs_of_toNat (by simp only [commandWord, toNat_wordN]; simp; omega)

theorem encodedAs_setburst (c : Chan) (blen : BitVec 4) :
    encodedAs (.setburst c blen) 0x04 c.toNat blen.toNat [] :=
  encodedAs_of_toNat (by simp only [commandWord, toNat_wordB]; simp; omega)

theorem encodedAs_setthr (c : Chan) (thr : BitVec 2) :
    encodedAs (.setthr c thr) 0x05 c.toNat thr.toNat [] :=
  encodedAs_of_toNat (by simp only [commandWord, toNat_wordPair]; simp; omega)

theorem encodedAs_start (c : Chan) (src : BitVec 7) (act : BitVec 2) :
    encodedAs (.start c src act) 0x06 c.toNat (src.toNat + act.toNat * 2 ^ 7) [] :=
  encodedAs_of_toNat (by simp only [commandWord, toNat_wordT]; simp; omega)

theorem encodedAs_xferdone (c : Chan) : encodedAs (.xferdone c) 0x07 c.toNat 0 [] :=
  encodedAs_of_toNat (by simp only [commandWord, toNat_wordN]; simp; omega)

theorem encodedAs_free (c : Chan) : encodedAs (.free c) 0x08 c.toNat 0 [] :=
  encodedAs_of_toNat (by simp only [commandWord, toNat_wordN]; simp; omega)

theorem encodedAs_restart (c : Chan) : encodedAs (.restart c) 0x09 c.toNat 0 [] :=
  encodedAs_of_toNat (by simp only [commandWord, toNat_wordN]; simp; omega)

theorem encodedAs_bind (c : Chan) (src dst cnt ctl : Word) :
    encodedAs (.bind c src dst cnt ctl) 0x0A c.toNat 0 [src, dst, cnt, ctl] :=
  encodedAs_of_toNat (by simp only [commandWord, toNat_wordN]; simp; omega)

theorem encodedAs_wait (c : Chan) : encodedAs (.wait c) 0x0B c.toNat 0 [] :=
  encodedAs_of_toNat (by simp only [commandWord, toNat_wordN]; simp; omega)

theorem encodedAs_memrd (size : BitVec 2) (addr : Word) :
    encodedAs (.memrd size addr) 0x0C 0 size.toNat [addr] :=
  encodedAs_of_toNat (by simp only [commandWord, toNat_wordPair]; simp; omega)

theorem encodedAs_memwr (size : BitVec 2) (addr data : Word) :
    encodedAs (.memwr size addr data) 0x0D 0 size.toNat [addr, data] :=
  encodedAs_of_toNat (by simp only [commandWord, toNat_wordPair]; simp; omega)

theorem encodedAs_intenset (c : Chan) (mask : FlagSet) :
    encodedAs (.intenset c mask) 0x0E c.toNat mask.toNat [] :=
  encodedAs_of_toNat (by simp only [commandWord, toNat_wordM]; simp; omega)

theorem encodedAs_intenclr (c : Chan) (mask : FlagSet) :
    encodedAs (.intenclr c mask) 0x0F c.toNat mask.toNat [] :=
  encodedAs_of_toNat (by simp only [commandWord, toNat_wordM]; simp; omega)

theorem encodedAs_chkclr (c : Chan) (mask : FlagSet) :
    encodedAs (.chkclr c mask) 0x10 c.toNat mask.toNat [] :=
  encodedAs_of_toNat (by simp only [commandWord, toNat_wordM]; simp; omega)

theorem encodedAs_callback (c : Chan) : encodedAs (.callback c) 0x11 c.toNat 0 [] :=
  encodedAs_of_toNat (by simp only [commandWord, toNat_wordN]; simp; omega)

theorem encodedAs_csenter : encodedAs .csenter 0x12 0 0 [] := rfl

theorem encodedAs_csexit : encodedAs .csexit 0x13 0 0 [] := rfl

theorem encodedAs_cellput : encodedAs .cellput 0x14 0 0 [] := rfl

theorem encodedAs_cellborrow : encodedAs .cellborrow 0x15 0 0 [] := rfl

theorem encodedAs_cellrelease : encodedAs .cellrelease 0x16 0 0 [] := rfl

theorem encodedAs_iret : encodedAs .iret 0x17 0 0 [] := rfl

end Sys2Proof.Safety
end

