-- ==== Sys2Proof/Laws/Step.lean ====
section
/-! SUPPORT. What a step can do, said once: the inversion of `settle`, `agentStep` and `step`, and the
one form of every engine step's effect. -/

namespace Sys2Proof.Machine

/-! ### The end of a step (R300, R311) -/

theorem settle_next (t : State) :
    settle (.next t) = .next (if t.fault.isSome then t else latchPending t) := rfl

theorem settle_cases {r : StepResult} {t : State} (h : settle r = .next t) :
    ∃ u, r = .next u ∧ t = if u.fault.isSome then u else latchPending u := by
  cases r with
  | next u => exact ⟨u, rfl, (Host.Outcome.next.inj h).symm⟩
  | fault f => cases h
  | refused f => cases h

/-- A fact that the latches do not touch passes through the end of a step. -/
theorem settle_induct {r : StepResult} {t : State} {P : State → Prop} (h : settle r = .next t)
    (hP : ∀ u, r = .next u → P u) (hl : ∀ u, P u → P (latchPending u)) : P t := by
  obtain ⟨u, hu, rfl⟩ := settle_cases h
  split
  · exact hP u hu
  · exact hl u (hP u hu)

/-! ### A step of an agent (R315) -/

/-- A pick that is not enabled moves nothing; an enabled one has its effect, then the latches. -/
theorem agentStep_cases {p : Pick} {s t : State} (h : agentStep p s = .next t) :
    (pickEnabled s p = false ∧ t = s) ∨
      (pickEnabled s p = true ∧
        ∃ u, pickEffect s p = .next u ∧ t = if u.fault.isSome then u else latchPending u) := by
  unfold agentStep at h
  split at h
  next he => exact .inr ⟨he, settle_cases h⟩
  next he => exact .inl ⟨by simpa using he, (Host.Outcome.next.inj h).symm⟩

theorem agentStep_enabled {p : Pick} {s u : State} (he : pickEnabled s p = true)
    (h : pickEffect s p = .next u) :
    agentStep p s = .next (if u.fault.isSome then u else latchPending u) := by
  simp [agentStep, he, h, settle]

theorem agentStep_disabled {p : Pick} {s : State} (he : pickEnabled s p = false) :
    agentStep p s = .next s := by
  simp [agentStep, he]

/-! ### A step of the machine (R300, R315) -/

theorem step_faulted {s : State} {r : FaultRecord} (h : s.fault = some r) :
    step s = .fault (.sticky r) := by
  simp [step, runStep, h]

theorem step_running {s : State} (h : s.fault = none) :
    step s = agentStep (nextPick s) (dropPick s) := by
  simp [step, runStep, h]

theorem step_cases {s t : State} (h : step s = .next t) :
    s.fault = none ∧ agentStep (nextPick s) (dropPick s) = .next t := by
  cases hf : s.fault with
  | none => exact ⟨rfl, by rwa [step_running hf] at h⟩
  | some r => rw [step_faulted hf] at h; cases h

/-- Consuming a pick changes no agent's precondition. -/
theorem pickEnabled_dropPick (s : State) (p : Pick) :
    pickEnabled (dropPick s) p = pickEnabled s p := by
  have hc : ∀ c, (dropPick s).ch c = s.ch c := dropPick_ch s
  cases p <;>
    simp [pickEnabled, contextEnabled, entryEnabled, rstEnabled, swtEnabled, ptrigEnabled,
      beatEnabled, errEnabled, suspEnabled, dackEnabled, engineReady, hc]

/-! ### The engine steps (R256) -/

/-- The engine steps of a channel. -/
def enginePicks (c : Chan) : List Pick :=
  [.eRst c, .eSwt c, .ePtrig c, .eBeat c, .eErr c, .eSusp c, .eDack c]

theorem stopChannel_status (ch : Channel) : (stopChannel ch).status = ch.status := rfl

theorem failChannel_status (ch : Channel) : (failChannel ch).status = ch.status := rfl

theorem triggerChannel_status (p : Params) (ch : Channel) :
    (triggerChannel p ch).status = ch.status := by
  unfold triggerChannel
  split <;> (try split) <;> rfl

theorem afterBeat_status (p : Params) (ch : Channel) : (afterBeat p ch).status = ch.status := by
  unfold afterBeat
  dsimp only
  split <;> (try split) <;> rfl

/-- Every engine step writes one channel, keeping its tag, and besides that `Mem`, the draw counter
or the fault. -/
theorem engine_effect (s : State) (c : Chan) (p : Pick) (hp : p ∈ enginePicks c) :
    ∃ x m d f, pickEffect s p = .next { s.setCh c x with mem := m, drawIdx := d, fault := f }
      ∧ x.status = (s.ch c).status := by
  have hs : ∀ x : Channel, s.setCh c x =
      { s.setCh c x with mem := s.mem, drawIdx := s.drawIdx, fault := s.fault } := fun _ => rfl
  simp only [enginePicks, List.mem_cons, List.not_mem_nil, or_false] at hp
  rcases hp with rfl | rfl | rfl | rfl | rfl | rfl | rfl
  · exact ⟨_, _, _, _, congrArg _ (hs _), rfl⟩
  · exact ⟨_, _, _, _, congrArg _ (hs _), triggerChannel_status _ _⟩
  · exact ⟨_, _, _, _, congrArg _ (hs _), triggerChannel_status _ _⟩
  · simp only [pickEffect, engineBeat]
    split
    · exact ⟨_, _, _, _, congrArg _ (hs _), rfl⟩
    split
    · exact ⟨s.ch c, s.mem, s.drawIdx, some ⟨.codeWrite, .engine c (s.ch c).curDst⟩,
        by rw [setCh_self]; rfl, rfl⟩
    · exact ⟨_, _, _, _, rfl, afterBeat_status _ _⟩
  · exact ⟨_, _, _, _, congrArg _ (hs _), rfl⟩
  · exact ⟨_, _, _, _, congrArg _ (hs _), rfl⟩
  · exact ⟨_, _, _, _, congrArg _ (hs _), rfl⟩

end Sys2Proof.Machine
end

