-- ==== Sys2Proof/Laws/Frames.lean ====
section
/-! SUPPORT. The frames of Safety.lean are kept by every update a command makes: a command's frame is
the composition of these lemmas, never an unfolding of the state. -/

namespace Sys2Proof.Machine

open Sys2Proof.Safety

theorem otherCtx_ne (x : Ctx) : otherCtx x ≠ x := by cases x <;> decide

/-! ### `channelFrame` -/

theorem channelFrame_refl (c : Chan) (s : State) : channelFrame c s s := by
  simp [channelFrame, sameChannelsBut, sameOtherCtx, sameSlot, sameInterrupts, sameMemory, sameLaunch]

/-- A channel frame keeps which context runs. -/
theorem channelFrame_ctx {c : Chan} {s t : State} (h : channelFrame c s t) : t.ctx = s.ctx :=
  ctx_congr h.2.2.2.2.1.2.1

theorem channelFrame_setCh {c : Chan} {s t : State} (x : Channel) (h : channelFrame c s t) :
    channelFrame c s (t.setCh c x) :=
  ⟨fun c' hc => (ch_setCh_ne t x hc).trans (h.1 c' hc), h.2⟩

theorem channelFrame_logWrite {c : Chan} {s t : State} (d : Chan) (f : PortField) (v : Word)
    (h : channelFrame c s t) : channelFrame c s (t.logWrite d f v) := h

theorem channelFrame_logRead {c : Chan} {s t : State} (d : Chan) (f : PortField) (v : Word)
    (h : channelFrame c s t) : channelFrame c s (t.logRead d f v) := h

theorem channelFrame_logDesc {c : Chan} {s t : State} (d : Chan) (src dst cnt ctl : Word)
    (h : channelFrame c s t) : channelFrame c s (t.logDesc d src dst cnt ctl) := h

/-- Writing the running context keeps the frame. -/
theorem channelFrame_setCtx {c : Chan} {s t : State} (v : CtxState) (h : channelFrame c s t) :
    channelFrame c s (t.setCtx t.ctx v) := by
  have hx := channelFrame_ctx h
  refine ⟨fun c' hc => by rw [setCtx_ch, h.1 c' hc], ?_, by simpa using h.2.2.1,
    by simpa [sameSlot] using h.2.2.2.1, by simpa [sameInterrupts] using h.2.2.2.2.1,
    by simpa [sameMemory] using h.2.2.2.2.2.1, by simpa [sameLaunch] using h.2.2.2.2.2.2.1,
    by simpa using h.2.2.2.2.2.2.2⟩
  unfold sameOtherCtx
  rw [setCtx_ctxOf_ne t v (by rw [hx]; exact otherCtx_ne _)]
  exact h.2.1

theorem channelFrame_advance {c : Chan} {s t : State} (k : Nat) (h : channelFrame c s t) :
    channelFrame c s (t.advance k) := channelFrame_setCtx _ h

theorem channelFrame_setRes {c : Chan} {s t : State} (v : Word) (h : channelFrame c s t) :
    channelFrame c s (t.setRes v) := channelFrame_setCtx _ h

theorem channelFrame_setHold {c : Chan} {s t : State} (x : Option Hold) (h : channelFrame c s t) :
    channelFrame c s (t.setHold x) := channelFrame_setCtx _ h

/-! ### `memoryFrame` -/

theorem memoryFrame_refl (s : State) : memoryFrame s s := by
  simp [memoryFrame, sameChannels, sameOtherCtx, sameSlot, sameInterrupts, sameLaunch]

theorem memoryFrame_ctx {s t : State} (h : memoryFrame s t) : t.ctx = s.ctx :=
  ctx_congr h.2.2.2.2.1.2.1

theorem memoryFrame_mem {s t : State} (m : Memory) (h : memoryFrame s t) :
    memoryFrame s { t with mem := m } := h

theorem memoryFrame_setCtx {s t : State} (v : CtxState) (h : memoryFrame s t) :
    memoryFrame s (t.setCtx t.ctx v) := by
  have hx := memoryFrame_ctx h
  refine ⟨fun c' => by rw [setCtx_ch, h.1 c'], ?_, by simpa using h.2.2.1,
    by simpa [sameSlot] using h.2.2.2.1, by simpa [sameInterrupts] using h.2.2.2.2.1,
    by simpa using h.2.2.2.2.2.1, by simpa [sameLaunch] using h.2.2.2.2.2.2.1,
    by simpa using h.2.2.2.2.2.2.2⟩
  unfold sameOtherCtx
  rw [setCtx_ctxOf_ne t v (by rw [hx]; exact otherCtx_ne _)]
  exact h.2.1

theorem memoryFrame_advance {s t : State} (k : Nat) (h : memoryFrame s t) :
    memoryFrame s (t.advance k) := memoryFrame_setCtx _ h

theorem memoryFrame_setRes {s t : State} (v : Word) (h : memoryFrame s t) :
    memoryFrame s (t.setRes v) := memoryFrame_setCtx _ h

/-! ### `registryFrame` -/

theorem registryFrame_refl (s : State) : registryFrame s s := by
  simp [registryFrame, sameChannels, sameOtherCtx, sameMemory, sameLaunch]

/-- The slot and the mask are outside the frame. -/
theorem registryFrame_slot {s t : State} (l : CtrlLoc) (b : Option Ctx) (d : Nat) (m : Bool)
    (h : registryFrame s t) :
    registryFrame s { t with ctrlLoc := l, borrowedBy := b, borrowDepth := d, primask := m } := h

theorem registryFrame_setCtx {s t : State} (v : CtxState) (hx : t.ctx = s.ctx)
    (h : registryFrame s t) : registryFrame s (t.setCtx t.ctx v) := by
  refine ⟨fun c' => by rw [setCtx_ch, h.1 c'], ?_, by simpa using h.2.2.1,
    by simpa using h.2.2.2.1, by simpa [sameMemory] using h.2.2.2.2.1,
    by simpa using h.2.2.2.2.2.1, by simpa [sameLaunch] using h.2.2.2.2.2.2.1,
    by simpa using h.2.2.2.2.2.2.2⟩
  unfold sameOtherCtx
  rw [setCtx_ctxOf_ne t v (by rw [hx]; exact otherCtx_ne _)]
  exact h.2.1

theorem registryFrame_advance {s t : State} (k : Nat) (hx : t.ctx = s.ctx)
    (h : registryFrame s t) : registryFrame s (t.advance k) := registryFrame_setCtx _ hx h

theorem registryFrame_setCsStack {s t : State} (l : List Bool) (hx : t.ctx = s.ctx)
    (h : registryFrame s t) : registryFrame s (t.setCsStack l) := registryFrame_setCtx _ hx h

/-! ### Faults and the latches -/

/-- Raising a fault changes nothing else (R300). -/
theorem raise_eq (s : State) (code : FaultCode) (i : Instr) :
    raise s code (commandWord i) =
      .next { s with fault := some ⟨code, .command s.ctx s.cur.pc (commandWord i) none⟩ } := rfl

/-- The latches of R311 are outside the engine's frame. -/
theorem engineFrame_latchPending {c : Chan} {s t : State} (h : engineFrame c s t) :
    engineFrame c s (latchPending t) := by
  simpa [engineFrame, sameChannelsBut, sameSlot] using h

end Sys2Proof.Machine
end

