-- ==== Sys2Proof/Laws/Exec.lean ====
section
/-! SUPPORT. What any command can do, said once: the parts of the state that no issue step and no poll
step touches, and the two things that only one command does (storing, and changing a tag). -/

namespace Sys2Proof.Machine

/-- What every issue step and every poll step keeps: the launch parameters, the pending latches, the
model's own fields, and the log written so far. -/
structure Keeps (s t : State) : Prop where
  params : t.params = s.params
  nvicPend : t.nvicPend = s.nvicPend
  sched : t.sched = s.sched
  pickIdx : t.pickIdx = s.pickIdx
  drawIdx : t.drawIdx = s.drawIdx
  log : ∃ es, t.log = s.log ++ es

theorem keeps_refl (s : State) : Keeps s s := ⟨rfl, rfl, rfl, rfl, rfl, [], by simp⟩

theorem keeps_withFault (s : State) (r : FaultRecord) : Keeps s (s.withFault r) :=
  ⟨rfl, rfl, rfl, rfl, rfl, [], by simp⟩

/-- A fault keeps everything else. -/
theorem keeps_raise {s t : State} {code : FaultCode} {w : Word} (h : raise s code w = .next t) :
    Keeps s t := by
  cases h
  exact keeps_withFault s _

theorem keeps_onChannel {s t : State} {w : Word} {c : Chan} {allowed : Status → Bool}
    {k : StepResult} (h : onChannel s w c allowed k = .next t)
    (hk : k = .next t → Keeps s t) : Keeps s t := by
  rcases onChannel_cases h with ⟨r, rfl⟩ | ⟨_, _, _, _, e⟩
  · exact keeps_withFault s r
  · exact hk e

theorem pollStep_keeps (s : State) (h : Hold) : Keeps s (pollStep s h) := by
  cases h <;> simp only [pollStep, pollInit, pollReset, pollFree, pollWait, endHold] <;> split <;>
    constructor <;> simp

theorem exec_keeps {i : Instr} {s t : State} (h : exec i s = .next t) : Keeps s t := by
  cases i <;> simp only [exec] at h
  case split =>
    unfold execSplit at h
    split at h
    · exact keeps_raise h
    split at h <;> cases h <;> constructor <;> simp
  case init => exact keeps_onChannel h fun e => by cases e; constructor <;> simp [issueReset]
  case reset => exact keeps_onChannel h fun e => by cases e; constructor <;> simp [issueReset]
  case setburst =>
    unfold execSetburst at h
    dsimp only at h
    split at h
    · exact keeps_raise h
    · exact keeps_onChannel h fun e => by cases e; constructor <;> simp
  case setthr =>
    unfold execSetthr at h
    dsimp only at h
    split at h
    · exact keeps_raise h
    · exact keeps_onChannel h fun e => by cases e; constructor <;> simp
  case start =>
    unfold execStart at h
    dsimp only at h
    split at h
    · exact keeps_raise h
    · refine keeps_onChannel h fun e => ?_
      cases e
      unfold logStart
      constructor <;> simp <;> split <;> simp
  case xferdone => exact keeps_onChannel h fun e => by cases e; constructor <;> simp
  case free => exact keeps_onChannel h fun e => by cases e; constructor <;> simp
  case restart => exact keeps_onChannel h fun e => by cases e; constructor <;> simp
  case bind =>
    refine keeps_onChannel h fun e => ?_
    split at e
    · exact keeps_raise e
    split at e
    · exact keeps_raise e
    · cases e
      constructor <;> simp
  case wait =>
    refine keeps_onChannel h fun e => ?_
    split at e
    · exact keeps_raise e
    · cases e
      constructor <;> simp
  case memrd =>
    unfold execMemrd at h
    dsimp only at h
    (repeat' split at h) <;> first | exact keeps_raise h | (cases h; constructor <;> simp)
  case memwr =>
    unfold execMemwr at h
    dsimp only at h
    (repeat' split at h) <;> first | exact keeps_raise h | (cases h; constructor <;> simp)
  case intenset => exact keeps_onChannel h fun e => by cases e; constructor <;> simp
  case intenclr => exact keeps_onChannel h fun e => by cases e; constructor <;> simp
  case chkclr => exact keeps_onChannel h fun e => by cases e; constructor <;> simp
  case callback =>
    refine keeps_onChannel h fun e => ?_
    cases e
    constructor <;> simp <;> split <;> simp
  case csenter => cases h; constructor <;> simp
  case csexit =>
    unfold execCsexit at h
    split at h
    · exact keeps_raise h
    split at h
    · exact keeps_raise h
    · cases h
      constructor <;> simp
  case cellput =>
    unfold execCellput at h
    (repeat' split at h) <;> first | exact keeps_raise h | (cases h; constructor <;> simp)
  case cellborrow =>
    unfold execCellborrow at h
    (repeat' split at h) <;> first | exact keeps_raise h | (cases h; constructor <;> simp)
  case cellrelease =>
    unfold execCellrelease at h
    (repeat' split at h) <;> first | exact keeps_raise h | (cases h; constructor <;> simp)
  case iret =>
    unfold execIret at h
    (repeat' split at h) <;> first | exact keeps_raise h | (cases h; constructor <;> simp)

/-- Only MEMWR of the commands changes `Mem` (R73). -/
theorem exec_mem {i : Instr} {s t : State} (h : exec i s = .next t) :
    t.mem = s.mem ∨ ∃ size addr data n, i = .memwr size addr data
      ∧ t.mem = memWrite s.mem addr n data := by
  have hr : ∀ {code w}, raise s code w = .next t → t.mem = s.mem := by
    intro code w h
    cases h
    rfl
  have hch : ∀ {w c allowed k}, onChannel s w c allowed k = .next t →
      (k = .next t → t.mem = s.mem) → t.mem = s.mem := by
    intro w c allowed k h hk
    rcases onChannel_cases h with ⟨r, rfl⟩ | ⟨_, _, _, _, e⟩
    · rfl
    · exact hk e
  cases i <;> simp only [exec] at h
  case memwr =>
    unfold execMemwr at h
    dsimp only at h
    split at h
    · exact .inl (hr h)
    next n _ =>
      (repeat' split at h) <;>
        first | exact .inl (hr h) | (cases h; exact .inr ⟨_, _, _, n, rfl, by simp⟩)
  all_goals left
  case split =>
    unfold execSplit at h
    split at h
    · exact hr h
    split at h <;> cases h <;> simp
  case init => exact hch h fun e => by cases e; simp [issueReset]
  case reset => exact hch h fun e => by cases e; simp [issueReset]
  case setburst =>
    unfold execSetburst at h
    dsimp only at h
    split at h
    · exact hr h
    · exact hch h fun e => by cases e; simp
  case setthr =>
    unfold execSetthr at h
    dsimp only at h
    split at h
    · exact hr h
    · exact hch h fun e => by cases e; simp
  case start =>
    unfold execStart at h
    dsimp only at h
    split at h
    · exact hr h
    · refine hch h fun e => ?_
      cases e
      unfold logStart
      simp
      split <;> simp
  case xferdone => exact hch h fun e => by cases e; simp
  case free => exact hch h fun e => by cases e; simp
  case restart => exact hch h fun e => by cases e; simp
  case bind =>
    refine hch h fun e => ?_
    split at e
    · exact hr e
    split at e
    · exact hr e
    · cases e
      simp
  case wait =>
    refine hch h fun e => ?_
    split at e
    · exact hr e
    · cases e
      simp
  case memrd =>
    unfold execMemrd at h
    dsimp only at h
    (repeat' split at h) <;> first | exact hr h | (cases h; simp)
  case intenset => exact hch h fun e => by cases e; simp
  case intenclr => exact hch h fun e => by cases e; simp
  case chkclr => exact hch h fun e => by cases e; simp
  case callback =>
    refine hch h fun e => ?_
    cases e
    simp
    split <;> simp
  case csenter => cases h; simp
  case csexit =>
    unfold execCsexit at h
    split at h
    · exact hr h
    split at h
    · exact hr h
    · cases h
      simp
  case cellput =>
    unfold execCellput at h
    (repeat' split at h) <;> first | exact hr h | (cases h; simp)
  case cellborrow =>
    unfold execCellborrow at h
    (repeat' split at h) <;> first | exact hr h | (cases h; simp)
  case cellrelease =>
    unfold execCellrelease at h
    (repeat' split at h) <;> first | exact hr h | (cases h; simp)
  case iret =>
    unfold execIret at h
    (repeat' split at h) <;> first | exact hr h | (cases h; simp)

theorem pollStep_mem (s : State) (h : Hold) : (pollStep s h).mem = s.mem := by
  cases h <;> simp only [pollStep, pollInit, pollReset, pollFree, pollWait, endHold] <;> split <;> simp

/-! ### What any enabled pick can do -/

/-- The step of the context, before the latches: it keeps what `Keeps` says, and changes `Mem` only by
a MEMWR that was fetched. -/
theorem contextStep_cases {s t : State} (h : contextStep s = .next t) :
    Keeps s t ∧ (t.mem = s.mem ∨
      ∃ size addr data n rest, s.cur.hold = none
        ∧ decode (fetchWords s) = .ok (.memwr size addr data) rest
        ∧ t.mem = memWrite s.mem addr n data) := by
  unfold contextStep at h
  split at h
  · cases h
    exact ⟨pollStep_keeps _ _, .inl (pollStep_mem _ _)⟩
  next hh =>
    unfold issueStep at h
    split at h
    · cases h
      exact ⟨keeps_withFault _ _, .inl rfl⟩
    next hw =>
      split at h
      next i rest hd =>
        refine ⟨exec_keeps h, ?_⟩
        rcases exec_mem h with hm | ⟨size, addr, data, n, rfl, hm⟩
        · exact .inl hm
        · exact .inr ⟨size, addr, data, n, rest, hh, by rw [hw]; exact hd, hm⟩
      next =>
        cases h
        exact ⟨keeps_withFault _ _, .inl rfl⟩

/-- Every enabled pick is the context, an entry, or an engine step of one channel. -/
theorem pickEffect_cases {s t : State} {p : Pick} (h : pickEffect s p = .next t) :
    (p = .context ∧ contextStep s = .next t)
      ∨ (∃ v, p = .entry v ∧ t = takeInterrupt s v)
      ∨ (∃ c, p ∈ enginePicks c ∧
          ∃ x m d f, t = { s.setCh c x with mem := m, drawIdx := d, fault := f }
            ∧ x.status = (s.ch c).status) := by
  have hp : ∀ c, p ∈ enginePicks c →
      ∃ x m d f, t = { s.setCh c x with mem := m, drawIdx := d, fault := f }
        ∧ x.status = (s.ch c).status := by
    intro c hp
    obtain ⟨x, m, d, f, e1, e2⟩ := engine_effect s c p hp
    rw [e1] at h
    exact ⟨x, m, d, f, (Host.Outcome.next.inj h).symm, e2⟩
  cases p with
  | context => exact .inl ⟨rfl, h⟩
  | entry v => exact .inr (.inl ⟨v, rfl, (Host.Outcome.next.inj h).symm⟩)
  | eRst c | eSwt c | ePtrig c | eBeat c | eErr c | eSusp c | eDack c =>
    exact .inr (.inr ⟨c, by simp [enginePicks], hp c (by simp [enginePicks])⟩)

end Sys2Proof.Machine
end

