-- ==== Sys2Proof/Laws/Engine.lean ====
section
/-! SUPPORT. The engine's shared operations: the size of a burst and of a release (R27, R244, R245), the
code check of a beat, and the frame of an engine step that writes only its channel. -/

namespace Sys2Proof.Machine

open Sys2Proof.Safety

/-! ### The software reset -/

theorem resetChannel_eq (ch : Channel) : resetChannel ch = channelAtReset ch.status ch.prilvl := rfl

/-! ### Bursts and releases -/

theorem burstBeats_eq (p : Params) (ch : Channel) :
    burstBeats p ch = if p.hasBurstFifo = true then ch.burstlen.toNat + 1 else 1 := by
  simp only [burstBeats, burstlenField]
  split <;> rfl

/-- A burst is 1 to 16 beats. -/
theorem burstBeats_bounds (p : Params) (ch : Channel) :
    1 ≤ burstBeats p ch ∧ burstBeats p ch ≤ 16 := by
  have := (burstlenField p ch).isLt
  unfold burstBeats
  omega

/-- The beats left in the burst at a beat, as a number: no wrap in 5 bits. -/
theorem toNat_burstAtBeat (p : Params) (ch : Channel) :
    (burstAtBeat p ch).toNat =
      if ch.burstLeft = 0 then min (burstBeats p ch) ch.auth.toNat else ch.burstLeft.toNat := by
  have := burstBeats_bounds p ch
  unfold burstAtBeat
  split
  · rw [BitVec.toNat_ofNat, Nat.mod_eq_of_lt (by omega)]
  · rfl

/-- The beats a trigger releases, as a number: no wrap in 16 bits. -/
theorem toNat_releaseBeats (p : Params) (ch : Channel) :
    (releaseBeats p ch).toNat =
      match ch.trigact with
      | .beat => 1
      | .burst => min (burstBeats p ch) ch.rem.toNat
      | .transaction => ch.rem.toNat := by
  have := ch.rem.isLt
  cases h : ch.trigact <;> simp only [releaseBeats, h]
  · rfl
  · rw [BitVec.toNat_ofNat, Nat.mod_eq_of_lt (by omega)]

/-- R77: a beat hits code where a byte of its destination is of the code region and no device's. -/
theorem beatHitsCode_iff (p : Params) (ch : Channel) :
    beatHitsCode p ch = true ↔
      ∃ i, i < 2 ^ (sizeCode ch.dSize).toNat
        ∧ isCode p (ch.curDst + BitVec.ofNat 32 i) = true
        ∧ isDev p (ch.curDst + BitVec.ofNat 32 i) = false := by
  simp [beatHitsCode, anyByte_iff, sizeBytes_eq]

/-! ### Frames -/

theorem engineFrame_write (s : State) (c : Chan) (x : Channel) (m : Memory) (d : Nat)
    (f : Option FaultRecord) (hx : x.status = (s.ch c).status) :
    engineFrame c s { s.setCh c x with mem := m, drawIdx := d, fault := f } := by
  refine ⟨fun c' h => ch_setCh_ne s x h, ?_, ?_⟩
  · show ((s.setCh c x).ch c).status = _
    rw [ch_setCh_same, hx]
  · simp [sameSlot]

theorem engineFrame_setCh (s : State) (c : Chan) (x : Channel)
    (hx : x.status = (s.ch c).status) : engineFrame c s (s.setCh c x) :=
  engineFrame_write s c x s.mem s.drawIdx s.fault hx

/-- What an enabled engine step leaves when it writes only its channel (R256, R311). -/
theorem engine_writes_channel {s : State} {c : Chan} {p : Pick} {x : Channel}
    (he : pickEnabled s p = true) (hx : x.status = (s.ch c).status)
    (h : pickEffect s p = .next (s.setCh c x)) :
    ∃ t, agentStep p s = .next t ∧ t.ch c = x ∧ engineFrame c s t ∧ sameMemory s t
      ∧ t.drawIdx = s.drawIdx ∧ t.fault = none := by
  have hf : s.fault = none := by
    simp only [pickEnabled, Bool.and_eq_true, Option.isNone_iff_eq_none] at he
    exact he.1
  refine ⟨latchPending (s.setCh c x), ?_, by simp,
    engineFrame_latchPending (engineFrame_setCh s c x hx), by simp [sameMemory], by simp, by simp [hf]⟩
  rw [agentStep_enabled he h]
  simp [hf]

end Sys2Proof.Machine
end

