-- ==== Sys2Proof/Laws/PerInstr.lean ====
section
/-! SUPPORT. Statements about every command as syntax, one lemma per constructor. -/

namespace Sys2Proof.Laws

/-- The number of words a command has, by its opcode: BIND 5, MEMRD 2, MEMWR 3, every other 1 (R91). -/
def wordsOfOpcode (opc : Nat) : Nat :=
  if opc = 0x0A then 5 else if opc = 0x0C then 2 else if opc = 0x0D then 3 else 1

/-- The opcode of a command's word is one of 0x01 to 0x17 (R102), and it fixes the command's length
(R91), whatever the operands. -/
def EncodeLength.Statement (i : Instr) : Prop :=
  1 ≤ (opcodeOf (commandWord i)).toNat ∧ (opcodeOf (commandWord i)).toNat ≤ 0x17
    ∧ lengthOf i = wordsOfOpcode (opcodeOf (commandWord i)).toNat

theorem EncodeLength.split :
    EncodeLength.Statement .split := by
  simp [Statement, commandWord, fields_wordN, lengthOf, encode, argWords, wordsOfOpcode]

theorem EncodeLength.init (c : Chan) (lvl : BitVec 2) :
    EncodeLength.Statement (.init c lvl) := by
  simp [Statement, commandWord, fields_wordPair, lengthOf, encode, argWords, wordsOfOpcode]

theorem EncodeLength.reset (c : Chan) :
    EncodeLength.Statement (.reset c) := by
  simp [Statement, commandWord, fields_wordN, lengthOf, encode, argWords, wordsOfOpcode]

theorem EncodeLength.setburst (c : Chan) (blen : BitVec 4) :
    EncodeLength.Statement (.setburst c blen) := by
  simp [Statement, commandWord, fields_wordB, lengthOf, encode, argWords, wordsOfOpcode]

theorem EncodeLength.setthr (c : Chan) (thr : BitVec 2) :
    EncodeLength.Statement (.setthr c thr) := by
  simp [Statement, commandWord, fields_wordPair, lengthOf, encode, argWords, wordsOfOpcode]

theorem EncodeLength.start (c : Chan) (trigsrc : BitVec 7) (trigact : BitVec 2) :
    EncodeLength.Statement (.start c trigsrc trigact) := by
  simp [Statement, commandWord, fields_wordT, lengthOf, encode, argWords, wordsOfOpcode]

theorem EncodeLength.xferdone (c : Chan) :
    EncodeLength.Statement (.xferdone c) := by
  simp [Statement, commandWord, fields_wordN, lengthOf, encode, argWords, wordsOfOpcode]

theorem EncodeLength.free (c : Chan) :
    EncodeLength.Statement (.free c) := by
  simp [Statement, commandWord, fields_wordN, lengthOf, encode, argWords, wordsOfOpcode]

theorem EncodeLength.restart (c : Chan) :
    EncodeLength.Statement (.restart c) := by
  simp [Statement, commandWord, fields_wordN, lengthOf, encode, argWords, wordsOfOpcode]

theorem EncodeLength.bind (c : Chan) (src dst cnt ctl : Word) :
    EncodeLength.Statement (.bind c src dst cnt ctl) := by
  simp [Statement, commandWord, fields_wordN, lengthOf, encode, argWords, wordsOfOpcode]

theorem EncodeLength.wait (c : Chan) :
    EncodeLength.Statement (.wait c) := by
  simp [Statement, commandWord, fields_wordN, lengthOf, encode, argWords, wordsOfOpcode]

theorem EncodeLength.memrd (size : BitVec 2) (addr : Word) :
    EncodeLength.Statement (.memrd size addr) := by
  simp [Statement, commandWord, fields_wordPair, lengthOf, encode, argWords, wordsOfOpcode]

theorem EncodeLength.memwr (size : BitVec 2) (addr data : Word) :
    EncodeLength.Statement (.memwr size addr data) := by
  simp [Statement, commandWord, fields_wordPair, lengthOf, encode, argWords, wordsOfOpcode]

theorem EncodeLength.intenset (c : Chan) (mask : FlagSet) :
    EncodeLength.Statement (.intenset c mask) := by
  simp [Statement, commandWord, fields_wordM, lengthOf, encode, argWords, wordsOfOpcode]

theorem EncodeLength.intenclr (c : Chan) (mask : FlagSet) :
    EncodeLength.Statement (.intenclr c mask) := by
  simp [Statement, commandWord, fields_wordM, lengthOf, encode, argWords, wordsOfOpcode]

theorem EncodeLength.chkclr (c : Chan) (mask : FlagSet) :
    EncodeLength.Statement (.chkclr c mask) := by
  simp [Statement, commandWord, fields_wordM, lengthOf, encode, argWords, wordsOfOpcode]

theorem EncodeLength.callback (c : Chan) :
    EncodeLength.Statement (.callback c) := by
  simp [Statement, commandWord, fields_wordN, lengthOf, encode, argWords, wordsOfOpcode]

theorem EncodeLength.csenter :
    EncodeLength.Statement .csenter := by
  simp [Statement, commandWord, fields_wordN, lengthOf, encode, argWords, wordsOfOpcode]

theorem EncodeLength.csexit :
    EncodeLength.Statement .csexit := by
  simp [Statement, commandWord, fields_wordN, lengthOf, encode, argWords, wordsOfOpcode]

theorem EncodeLength.cellput :
    EncodeLength.Statement .cellput := by
  simp [Statement, commandWord, fields_wordN, lengthOf, encode, argWords, wordsOfOpcode]

theorem EncodeLength.cellborrow :
    EncodeLength.Statement .cellborrow := by
  simp [Statement, commandWord, fields_wordN, lengthOf, encode, argWords, wordsOfOpcode]

theorem EncodeLength.cellrelease :
    EncodeLength.Statement .cellrelease := by
  simp [Statement, commandWord, fields_wordN, lengthOf, encode, argWords, wordsOfOpcode]

theorem EncodeLength.iret :
    EncodeLength.Statement .iret := by
  simp [Statement, commandWord, fields_wordN, lengthOf, encode, argWords, wordsOfOpcode]

end Sys2Proof.Laws
end

