-- ==== Sys2Proof/Tests/Slice0.lean ====
section
/-! SUPPORT. Tests. Expected values come from spec/95_test_vectors.md (a vector's id stands in the
docstring) or from the rule named. Each `witness_…` shows that the hypotheses of a statement, or of one
of its clauses, are met together by a concrete state. -/

namespace Sys2Proof.Tests

open Sys2Proof Sys2Proof.Machine Sys2Proof.Safety

/-! ### Well-formedness: an ill-formed term for each check -/

/-- R103 (c). -/
theorem test_start_trigact3_illformed : (Instr.start 1 0 3).wf = false := by decide

/-- R103 (d). -/
theorem test_memrd_size3_illformed : (Instr.memrd 3 0).wf = false := by decide

/-- R103 (d). -/
theorem test_memwr_size3_illformed : (Instr.memwr 3 0 0).wf = false := by decide

/-! ### Decoding: one word of each command, as section 2.1 of the vectors writes it -/

/-- V-30-01. -/
theorem test_decode_split : decode [0x00000001] = .ok .split [] := by decide

/-- V-30-04. -/
theorem test_decode_init : decode [0x00001882] = .ok (.init 2 3) [] := by decide

/-- V-30-08. -/
theorem test_decode_reset : decode [0x00000083] = .ok (.reset 2) [] := by decide

/-- V-30-11. -/
theorem test_decode_setburst : decode [0x000008C4] = .ok (.setburst 3 1) [] := by decide

/-- V-30-13. -/
theorem test_decode_setthr : decode [0x00001805] = .ok (.setthr 0 3) [] := by decide

/-- V-30-19. -/
theorem test_decode_start : decode [0x000448C6] = .ok (.start 3 9 1) [] := by decide

/-- V-30-18. -/
theorem test_decode_start_127 : decode [0x0007F846] = .ok (.start 1 127 1) [] := by decide

/-- V-30-21. -/
theorem test_decode_xferdone : decode [0x00000047] = .ok (.xferdone 1) [] := by decide

/-- V-30-22. -/
theorem test_decode_free : decode [0x00000048] = .ok (.free 1) [] := by decide

/-- V-30-23. -/
theorem test_decode_restart : decode [0x000000C9] = .ok (.restart 3) [] := by decide

/-- V-30-26, with the words after it left. -/
theorem test_decode_bind :
    decode [0x0000008A, 0x100, 0x200, 4, 0xE, 0x1] = .ok (.bind 2 0x100 0x200 4 0xE) [0x1] := by decide

/-- V-30-27. -/
theorem test_decode_wait : decode [0x0000000B] = .ok (.wait 0) [] := by decide

/-- V-30-29. -/
theorem test_decode_memrd : decode [0x0000080C, 0x300] = .ok (.memrd 1 0x300) [] := by decide

/-- V-30-33. -/
theorem test_decode_memwr :
    decode [0x0000100D, 0x300, 0x55] = .ok (.memwr 2 0x300 0x55) [] := by decide

/-- V-30-34. -/
theorem test_decode_intenset : decode [0x0000104E] = .ok (.intenset 1 0b010) [] := by decide

/-- V-30-37. -/
theorem test_decode_intenclr : decode [0x0000384F] = .ok (.intenclr 1 0b111) [] := by decide

/-- V-30-40. -/
theorem test_decode_chkclr : decode [0x00003090] = .ok (.chkclr 2 0b110) [] := by decide

/-- V-30-44. -/
theorem test_decode_callback : decode [0x000000D1] = .ok (.callback 3) [] := by decide

/-- V-30-45. -/
theorem test_decode_csenter : decode [0x00000012] = .ok .csenter [] := by decide

/-- V-30-46. -/
theorem test_decode_csexit : decode [0x00000013] = .ok .csexit [] := by decide

/-- V-30-47. -/
theorem test_decode_cellput : decode [0x00000014] = .ok .cellput [] := by decide

/-- V-30-48. -/
theorem test_decode_cellborrow : decode [0x00000015] = .ok .cellborrow [] := by decide

/-- V-30-49. -/
theorem test_decode_cellrelease : decode [0x00000016] = .ok .cellrelease [] := by decide

/-- V-30-50. -/
theorem test_decode_iret : decode [0x00000017] = .ok .iret [] := by decide

/-- V-30-60, V-30-61, V-30-62. -/
theorem test_decode_reserved_opcodes :
    decode [0x00000000] = .reject .reservedOpcode ∧ decode [0x00000018] = .reject .reservedOpcode
      ∧ decode [0x0000003F] = .reject .reservedOpcode := by decide

/-- V-30-63, V-30-64, V-30-65, V-30-70, V-30-71, V-30-72. -/
theorem test_decode_reserved_bits :
    decode [0x00000041] = .reject .reservedBits ∧ decode [0x0000004C] = .reject .reservedBits
      ∧ decode [0x00004042] = .reject .reservedBits ∧ decode [0x00100046] = .reject .reservedBits
      ∧ decode [0x00000843] = .reject .reservedBits ∧ decode [0x80000001] = .reject .reservedBits := by
  decide

/-- V-30-66, V-30-67. -/
theorem test_decode_reserved_values :
    decode [0x000C0046] = .reject .reservedTrigAct ∧ decode [0x0000180C] = .reject .reservedSize := by
  decide

/-- V-30-73. -/
theorem test_decode_missing_argument :
    decode [0xA, 0x100, 0x200, 0x1] = .reject .missingArgument := by decide

/-- The table's numbering of bits: BIND 2 with zero argument words, 32 bits given (V-30-26). -/
theorem test_decodeTableWord_bind : decodeTableWord 32 0x8A = some (.bind 2 0 0 0 0) := by decide

/-! ### Small states -/

/-- The fact holds of the next state; false where there is none. -/
def onNext (r : StepResult) (f : State → Bool) : Bool :=
  match r with
  | .next t => f t
  | .fault _ => false
  | .refused _ => false

/-- The answer is a next state in which the fact holds. -/
theorem exists_of_onNext {r : StepResult} {f : State → Bool} (h : onNext r f = true) :
    ∃ t, r = .next t ∧ f t = true := by
  cases r with
  | next t => exact ⟨t, rfl, h⟩
  | fault _ => cases h
  | refused _ => cases h

/-- The answer records the fault. -/
def faultsWith (r : StepResult) (code : FaultCode) : Bool :=
  onNext r fun t => decide (t.fault.map (·.code) = some code)

/-- The launch state with a main program, the context picked next. -/
def atWords (prog : List Word) : State :=
  { State.reset with
    params := { Params.default with pMain := prog }
    sched := [.context] }

/-- The launch state after SPLIT, with channel 1 as given. -/
def withCh (x : Channel) : State := { State.reset.setCh 1 x with split := true }

/-- The same in a handler that owns nothing, with the controller in the slot. -/
def inHandler (s : State) : State := { s with isrActive := some 0, ctrlLoc := .cell }

/-- A channel ready, and one busy with a bound descriptor of four words under way. -/
def readyCh : Channel := { status := .ready }

def busyCh : Channel :=
  { status := .busy
    enable := true
    trigsrc := 1
    trigact := .transaction
    bound := true
    dSrc := 0x100
    dDst := 0x200
    dCnt := 4
    dSize := .word
    dSinc := true
    dDinc := true
    rem := 4
    curSrc := 0x100
    curDst := 0x200 }

/-! ### One step of each command -/

/-- R120: the first SPLIT. -/
theorem test_split :
    onNext (exec .split State.reset) (fun t => t.split && t.main.pc == 1) = true := by decide

/-- V-40-13: a second SPLIT changes no tag. -/
theorem test_split_again :
    onNext (exec .split (withCh readyCh)) (fun t => (t.ch 1).status == .ready) = true := by decide

/-- V-40-08, first entry of the log. -/
theorem test_init_issue :
    onNext (exec (.init 1 3) (withCh {})) (fun t =>
      (t.ch 1).swrst && t.main.hold == some (.initWait 1 3)
        && t.log == [.write 1 .swrst (.val 1)]) = true := by decide

/-- V-40-02: BadChannel before NotSplit. -/
theorem test_init_badChannel : faultsWith (exec (.init 31 0) State.reset) .badChannel = true := by
  decide

/-- V-40-04. -/
theorem test_reset_uninitialized : faultsWith (exec (.reset 1) (withCh {})) .illegalState = true := by
  decide

/-- R125. -/
theorem test_reset_issue :
    onNext (exec (.reset 1) (withCh readyCh)) (fun t =>
      (t.ch 1).swrst && t.main.hold == some (.resetWait 1)) = true := by decide

/-- V-40-05: no burst length without HAS_BURST_FIFO. -/
theorem test_setburst_noFifo :
    faultsWith (exec (.setburst 1 3) (withCh readyCh)) .illegalCommand = true := by decide

/-- A chip with HAS_BURST_FIFO. -/
def fifo (s : State) : State := { s with params := { s.params with hasBurstFifo := true } }

/-- V-40-07. -/
theorem test_setburst :
    onNext (exec (.setburst 1 15) (fifo (withCh readyCh))) (fun t =>
      burstBeats t.params (t.ch 1) == 16 && t.log == [.write 1 .burstlen (.val 15)]) = true := by
  decide

/-- V-40-07. -/
theorem test_setthr :
    onNext (exec (.setthr 1 3) (fifo (withCh readyCh))) (fun t =>
      (t.ch 1).threshold == 3 && t.log == [.write 1 .threshold (.val 3)]) = true := by decide

/-- V-40-12: no software trigger with a peripheral source. -/
theorem test_start_peripheral :
    onNext (exec (.start 1 5 0) (withCh readyCh)) (fun t =>
      (t.ch 1).enable && !(t.ch 1).swtrig && (t.ch 1).status == .busy && t.log.length == 3) = true := by
  decide

/-- V-S8-3: one software trigger with the DISABLE source. -/
theorem test_start_disable :
    onNext (exec (.start 1 0 2) (withCh readyCh)) (fun t =>
      (t.ch 1).swtrig && t.log.getLast? == some (.write 1 .swtrig (.val 1)) && t.log.length == 4) = true := by
  decide

/-- V-40-12. -/
theorem test_xferdone_running :
    onNext (exec (.xferdone 1) (withCh busyCh)) (fun t => t.main.res == 0 && t.main.pc == 1) = true := by
  decide

/-- Program A, schedule A1. -/
theorem test_xferdone_done :
    onNext (exec (.xferdone 1) (withCh { status := .busy })) (fun t => t.main.res == 1) = true := by
  decide

/-- V-60-08: FREE asks for the disable. -/
theorem test_free :
    onNext (exec (.free 1) (withCh busyCh)) (fun t =>
      (t.ch 1).disableReq && (t.ch 1).enable && t.log == [.write 1 .enable (.val 0)]
        && t.main.hold == some (.freeWait 1)) = true := by decide

/-- V-40-17. -/
theorem test_free_ready : faultsWith (exec (.free 1) (withCh readyCh)) .illegalState = true := by decide

/-- V-40-16: RESTART of a finished transfer. -/
theorem test_restart_finished :
    onNext (exec (.restart 1) (withCh { busyCh with enable := false, rem := 0, curSrc := 0x110 })) (fun t =>
      (t.ch 1).enable && (t.ch 1).rem == 4 && (t.ch 1).curSrc == 0x100 && !(t.ch 1).swtrig) = true := by
  decide

/-- R146: a suspended channel resumes where it was. -/
theorem test_restart_suspended :
    onNext (exec (.restart 1) (withCh { busyCh with suspended := true, rem := 2 })) (fun t =>
      !(t.ch 1).suspended && (t.ch 1).rem == 2) = true := by decide

/-- V-41-21. -/
theorem test_bind :
    onNext (exec (.bind 1 0x300 0x400 2 0xD) (withCh readyCh)) (fun t =>
      (t.ch 1).bound && (t.ch 1).dCnt == 2 && (t.ch 1).dSize == .half && (t.ch 1).dSinc
        && (t.ch 1).dDinc && t.main.pc == 5) = true := by decide

/-- V-41-06: BadDescriptor before Misaligned. -/
theorem test_bind_order :
    faultsWith (exec (.bind 1 0x102 0x200 0 0xE) (withCh readyCh)) .badDescriptor = true := by decide

/-- V-41-09. -/
theorem test_wait_notBound :
    faultsWith (exec (.wait 1) (withCh { status := .busy })) .notBound = true := by decide

/-- R172. -/
theorem test_wait :
    onNext (exec (.wait 1) (withCh busyCh)) (fun t =>
      t.main.hold == some (.waitPoll 1) && t.log == []) = true := by decide

/-- V-41-12: little-endian, and a source range may be read. -/
theorem test_memrd :
    onNext (exec (.memrd 2 0x104)
        { withCh busyCh with mem := [(0x104, 0x11), (0x105, 0x22), (0x106, 0x33), (0x107, 0x44)] })
      (fun t => t.main.res == 0x44332211 && t.main.pc == 2) = true := by decide

/-- V-41-11. -/
theorem test_memrd_race : faultsWith (exec (.memrd 2 0x208) (withCh busyCh)) .bufferRace = true := by
  decide

/-- V-41-15. -/
theorem test_memwr :
    onNext (exec (.memwr 1 0x20000002 0xABCD) State.reset) (fun t =>
      t.mem == [(0x20000002, 0xCD), (0x20000003, 0xAB)] && t.main.pc == 3) = true := by decide

/-- V-41-10. -/
theorem test_memwr_race : faultsWith (exec (.memwr 2 0x104 0) (withCh busyCh)) .bufferRace = true := by
  decide

/-- V-42-21. -/
theorem test_intenset :
    onNext (exec (.intenset 1 0b100) (withCh { inten := 0b011 })) (fun t => (t.ch 1).inten == 0b111)
      = true := by decide

/-- V-42-22. -/
theorem test_intenclr :
    onNext (exec (.intenclr 1 0b010) (withCh { inten := 0b111 })) (fun t => (t.ch 1).inten == 0b101)
      = true := by decide

/-- V-42-10. -/
theorem test_chkclr :
    onNext (exec (.chkclr 1 0b110) (withCh { intflag := 0b011 })) (fun t =>
      t.main.res == 0b010 && (t.ch 1).intflag == 0b001) = true := by decide

/-- V-42-12: the write of 0 is logged. -/
theorem test_chkclr_none :
    onNext (exec (.chkclr 1 0b111) (withCh {})) (fun t =>
      t.log == [.read 1 .intflag (.val 0), .write 1 .intflag (.val 0)]) = true := by decide

/-- V-42-08. -/
theorem test_callback_all :
    onNext (exec (.callback 1) (withCh { intflag := 0b111 })) (fun t =>
      t.main.res == 0 && (t.ch 1).intflag == 0b101) = true := by decide

/-- V-42-01. -/
theorem test_callback_spurious :
    onNext (exec (.callback 1) (withCh {})) (fun t =>
      t.main.res == 1 && t.log == [.read 1 .intflag (.val 0)]) = true := by decide

/-- A main context inside critical sections. -/
def inSection (stack : List Bool) (s : State) : State :=
  { s with
    main := { s.main with csStack := stack }
    primask := true }

/-- V-43-01, second CSENTER. -/
theorem test_csenter :
    onNext (exec .csenter (inSection [false] State.reset)) (fun t =>
      t.main.csStack == [false, true] && t.primask) = true := by decide

/-- V-43-02, last CSEXIT. -/
theorem test_csexit :
    onNext (exec .csexit (inSection [false] State.reset)) (fun t =>
      t.main.csStack == [] && !t.primask) = true := by decide

/-- V-43-10. -/
theorem test_csexit_borrow :
    faultsWith (exec .csexit
      { inSection [false] State.reset with ctrlLoc := .cell, borrowedBy := some .main, borrowDepth := 1 })
      .borrowOutlivesCS = true := by decide

/-- V-43-05, first CELLPUT. -/
theorem test_cellput :
    onNext (exec .cellput (inSection [false] State.reset)) (fun t => t.ctrlLoc == .cell) = true := by
  decide

/-- V-43-05, second CELLPUT. -/
theorem test_cellput_again :
    faultsWith (exec .cellput { inSection [false] State.reset with ctrlLoc := .cell }) .notOwner = true := by
  decide

/-- V-43-07. -/
theorem test_cellborrow :
    onNext (exec .cellborrow { inSection [false] State.reset with ctrlLoc := .cell }) (fun t =>
      t.borrowedBy == some .main && t.borrowDepth == 1) = true := by decide

/-- V-43-12. -/
theorem test_cellborrow_empty :
    faultsWith (exec .cellborrow (inSection [false] State.reset)) .cellEmpty = true := by decide

/-- V-43-07. -/
theorem test_cellrelease :
    onNext (exec .cellrelease
      { inSection [false] State.reset with ctrlLoc := .cell, borrowedBy := some .main, borrowDepth := 1 })
      (fun t => t.borrowedBy == none && t.borrowDepth == 0) = true := by decide

/-- V-43-09. -/
theorem test_cellrelease_notBorrowed : faultsWith (exec .cellrelease State.reset) .notBorrowed = true := by
  decide

/-- R227. -/
theorem test_iret :
    onNext (exec .iret (inHandler State.reset)) (fun t => t.isrActive == none) = true := by decide

/-- V-43-13. -/
theorem test_iret_main : faultsWith (exec .iret State.reset) .iretOutsideIsr = true := by decide

/-! ### The step, the engine and the interrupt controller -/

/-- The machine runs a placed instruction: MEMWR.W of 0 at 0 (V-30-33's command word). -/
theorem test_step_runs_placed_word :
    onNext (step (State.reset.withFetchWord 32 0x100D)) (fun t => t.main.pc == 3 && t.fault == none)
      = true := by decide

/-- V-40-02 through the step: the fault is recorded with context, pc and word. -/
theorem test_step_fault_record :
    onNext (step (atWords [0x7C2])) (fun t =>
      t.fault == some ⟨.badChannel, .command .main 0 0x7C2 none⟩) = true := by decide

/-- V-44-01: a byte moves, and the second trigger is not yet needed. -/
theorem test_beat :
    onNext (agentStep (.eBeat 1)
        { withCh { busyCh with dSize := .byte, auth := 1 } with mem := [(0x100, 0x10)] }) (fun t =>
      t.mem == [(0x100, 0x10), (0x200, 0x10)] && (t.ch 1).rem == 3 && (t.ch 1).curSrc == 0x101
        && (t.ch 1).auth == 0) = true := by decide

/-- V-44-02: the last beat sets TCMPL and clears ENABLE. -/
theorem test_beat_last :
    onNext (agentStep (.eBeat 1) (withCh { busyCh with rem := 1, auth := 1 })) (fun t =>
      (t.ch 1).intflag == 0b010 && !(t.ch 1).enable && (t.ch 1).rem == 0) = true := by decide

/-- V-44-11: a software trigger without a descriptor is a transfer error. -/
theorem test_swt_unbound :
    onNext (agentStep (.eSwt 1) (withCh { status := .busy, enable := true, swtrig := true }))
      (fun t => (t.ch 1).intflag == 0b001 && !(t.ch 1).enable && !(t.ch 1).swtrig) = true := by decide

/-- V-44-14: the reset keeps PRILVL only. -/
theorem test_rst :
    onNext (agentStep (.eRst 1)
        (withCh { busyCh with prilvl := 3, inten := 0b111, intflag := 0b101, swrst := true })) (fun t =>
      t.ch 1 == { status := .busy, prilvl := 3 }) = true := by decide

/-- Section 3.6, entry effect. -/
theorem test_entry :
    onNext (agentStep (.entry 2)
        { State.reset with
          nvicPend := State.reset.nvicPend.set 2 true
          isr := { pc := 9, res := 9 } }) (fun t =>
      t.isrActive == some 2 && t.nvicPend[2] == false && t.isr == {}) = true := by decide

/-- V-60-01: a handler past its program's end. -/
theorem test_noIret :
    onNext (agentStep .context (inHandler State.reset)) (fun t =>
      t.fault == some ⟨.noIret, .command .isr 0 0 none⟩) = true := by decide

/-- R23 and V-44-14's fields: CTRL as a word, THRESHOLD 2, BURSTLEN 5, TRIGACT 1, ENABLE 1. -/
theorem test_ctrlWord :
    ctrlWord { Params.default with hasBurstFifo := true }
      { burstlen := 5, threshold := 2, trigact := .burst, enable := true } = 0x25100002 := by decide

/-- R33: PEND and SUSP alone, then BUSY and SYNCBUSY alone. -/
theorem test_statusWord :
    statusWord { trigPend := true, suspended := true } = 0b0101
      ∧ statusWord { auth := 1, disableReq := true } = 0b1010 := by decide

/-! ### Witnesses: encoding and the fetch -/

theorem witness_DecodeOfEncodeIsInstr : (Instr.start 31 127 2).wf = true := by decide

theorem witness_EncodeOfDecodeIsWords :
    decode [0x0000080C, 0x300, 0x1] = .ok (.memrd 1 0x300) [0x1] := by decide

/-- The hypotheses of IllegalWordFaults but for the clause of R103. -/
abbrev fetches (s : State) (w : Word) (args : List Word) : Prop :=
  s.fault = none ∧ nextPick s = .context ∧ s.cur.hold = none ∧ fetchWords s = w :: args

/-- R103 (a), the reserved opcode 0. -/
theorem witness_IllegalWordFaults_opcode0 :
    fetches (atWords [0x0]) 0x0 [] ∧ illegalWord (atWords [0x0]).params 0x0 [] := by
  refine ⟨by decide, ?_⟩
  simp [illegalWord]

/-- R103 (a), the first reserved opcode above. -/
theorem witness_IllegalWordFaults_opcode18 :
    fetches (atWords [0x18]) 0x18 [] ∧ illegalWord (atWords [0x18]).params 0x18 [] := by
  refine ⟨by decide, ?_⟩
  simp [illegalWord]

/-- R103 (b), format G. -/
theorem witness_IllegalWordFaults_formatG :
    fetches (atWords [0x41]) 0x41 [] ∧ illegalWord (atWords [0x41]).params 0x41 [] := by
  refine ⟨by decide, ?_⟩
  simp [illegalWord]

/-- R103 (b), formats N and D. -/
theorem witness_IllegalWordFaults_formatN :
    fetches (atWords [0x843]) 0x843 [] ∧ illegalWord (atWords [0x843]).params 0x843 [] := by
  refine ⟨by decide, ?_⟩
  simp [illegalWord]

/-- R103 (b), formats P and H. -/
theorem witness_IllegalWordFaults_formatP :
    fetches (atWords [0x2002]) 0x2002 [] ∧ illegalWord (atWords [0x2002]).params 0x2002 [] := by
  refine ⟨by decide, ?_⟩
  simp [illegalWord]

/-- R103 (b), format M. -/
theorem witness_IllegalWordFaults_formatM :
    fetches (atWords [0x400E]) 0x400E [] ∧ illegalWord (atWords [0x400E]).params 0x400E [] := by
  refine ⟨by decide, ?_⟩
  simp [illegalWord]

/-- R103 (b), format B. -/
theorem witness_IllegalWordFaults_formatB :
    fetches (fifo (atWords [0x8004])) 0x8004 []
      ∧ illegalWord (fifo (atWords [0x8004])).params 0x8004 [] := by
  refine ⟨by decide, ?_⟩
  simp [illegalWord]

/-- R103 (b), format T. -/
theorem witness_IllegalWordFaults_formatT :
    fetches (atWords [0x100046]) 0x100046 []
      ∧ illegalWord (atWords [0x100046]).params 0x100046 [] := by
  refine ⟨by decide, ?_⟩
  simp [illegalWord]

/-- R103 (b), format S, channel bits. -/
theorem witness_IllegalWordFaults_formatS :
    fetches (atWords [0x4C, 0x0]) 0x4C [0x0] ∧ illegalWord (atWords [0x4C, 0x0]).params 0x4C [0x0] := by
  refine ⟨by decide, ?_⟩
  simp [illegalWord]

/-- R103 (c). -/
theorem witness_IllegalWordFaults_trigact :
    fetches (atWords [0xC0046]) 0xC0046 [] ∧ illegalWord (atWords [0xC0046]).params 0xC0046 [] := by
  refine ⟨by decide, ?_⟩
  simp [illegalWord]

/-- R103 (d). -/
theorem witness_IllegalWordFaults_size :
    fetches (atWords [0x180C, 0x0]) 0x180C [0x0]
      ∧ illegalWord (atWords [0x180C, 0x0]).params 0x180C [0x0] := by
  refine ⟨by decide, ?_⟩
  simp [illegalWord]

/-- R103 (e). -/
theorem witness_IllegalWordFaults_noFifo :
    fetches (atWords [0x1804]) 0x1804 [] ∧ illegalWord (atWords [0x1804]).params 0x1804 [] := by
  refine ⟨by decide, ?_⟩
  simp [illegalWord, atWords, Params.default]

/-- R103 (f), BIND one word short. -/
theorem witness_IllegalWordFaults_bindShort :
    fetches (atWords [0xA, 0x1, 0x2, 0x3]) 0xA [0x1, 0x2, 0x3]
      ∧ illegalWord (atWords [0xA, 0x1, 0x2, 0x3]).params 0xA [0x1, 0x2, 0x3] := by
  refine ⟨by decide, ?_⟩
  simp [illegalWord]

/-- R103 (f), MEMRD and MEMWR one word short. -/
theorem witness_IllegalWordFaults_memShort :
    (fetches (atWords [0xC]) 0xC [] ∧ illegalWord (atWords [0xC]).params 0xC [])
      ∧ fetches (atWords [0xD, 0x1]) 0xD [0x1]
      ∧ illegalWord (atWords [0xD, 0x1]).params 0xD [0x1] := by
  refine ⟨⟨by decide, ?_⟩, by decide, ?_⟩ <;> simp [illegalWord]

theorem witness_LegalWordDecodes :
    ¬ illegalWord Params.default 0xA [0x1, 0x2, 0x3, 0x4] ∧ ¬ illegalWord Params.default 0x17 [] := by
  constructor <;> simp [illegalWord]

theorem witness_StepRunsDecodedInstruction :
    (atWords [0x1]).fault = none ∧ nextPick (atWords [0x1]) = .context
      ∧ (atWords [0x1]).cur.hold = none
      ∧ decode (fetchWords (atWords [0x1])) = .ok .split [] := by decide

/-- A pick of an engine is pending, and none is. -/
theorem witness_StepRunsDecodedInstruction_pick :
    ({ State.reset with sched := [.eBeat 1] } : State).fault = none
      ∧ ({ State.reset with sched := [.eBeat 1] } : State).sched = [.eBeat 1]
      ∧ State.reset.sched = [] := by decide

/-- Main runs, and the handlers of the first and the last vector run. -/
theorem witness_StepRunsDecodedInstruction_program :
    State.reset.isrActive = none
      ∧ ({ State.reset with isrActive := some 0 } : State).isrActive = some 0
      ∧ ({ State.reset with isrActive := some 32 } : State).isrActive = some 32 := by decide

/-- A main context that is held, picked next. -/
def held (h : Hold) (x : Channel) : State :=
  { withCh x with
    main := { hold := some h }
    sched := [.context] }

theorem witness_HeldContextPolls :
    (held (.waitPoll 1) busyCh).fault = none ∧ nextPick (held (.waitPoll 1) busyCh) = .context
      ∧ (held (.waitPoll 1) busyCh).cur.hold = some (.waitPoll 1) := by decide

theorem witness_FaultStopsEveryAgent :
    (State.reset.withFault ⟨.noIret, .command .isr 0 0 none⟩).fault
      = some ⟨.noIret, .command .isr 0 0 none⟩ := by decide

/-- Main exactly at its program's end. -/
theorem witness_ProgramEndStopsOrFaults_main :
    State.reset.fault = none ∧ State.reset.cur.hold = none
      ∧ State.reset.program.length ≤ State.reset.cur.pc ∧ State.reset.isrActive = none := by decide

/-- A handler exactly at its program's end. -/
theorem witness_ProgramEndStopsOrFaults_isr :
    (inHandler State.reset).fault = none ∧ (inHandler State.reset).cur.hold = none
      ∧ (inHandler State.reset).program.length ≤ (inHandler State.reset).cur.pc
      ∧ (inHandler State.reset).isrActive ≠ none := by decide

/-- Either context strictly past its program's end (notes/assumptions/18.md). -/
theorem witness_ProgramEndStopsOrFaults_past :
    let pastMain : State := { State.reset with main := { pc := 1 } }
    let pastIsr : State := { inHandler State.reset with isr := { pc := 1 } }
    (pastMain.fault = none ∧ pastMain.cur.hold = none ∧ pastMain.program.length < pastMain.cur.pc
        ∧ pastMain.isrActive = none)
      ∧ pastIsr.fault = none ∧ pastIsr.cur.hold = none
      ∧ pastIsr.program.length < pastIsr.cur.pc ∧ pastIsr.isrActive ≠ none := by decide

/-! ### Witnesses: the channel checks

Every statement about a command on channel c takes its fault clauses from `checksAny` and
`checksFirst`; these are their clauses, at the boundary N = 4 of the channel numbers. -/

/-- The hypotheses of ChannelChecksInOrder, for a command that needs a burst FIFO and one that
does not. -/
theorem witness_ChannelChecksInOrder :
    (channelNeeds (.init 3 1) = some (3, [.uninitialized]) ∧ (Instr.init 3 1).wf = true
      ∧ needsBurstFifo (.init 3 1) = false)
      ∧ (channelNeeds (.setthr 3 1) = some (3, [.ready]) ∧ (Instr.setthr 3 1).wf = true
        ∧ (fifo State.reset).params.hasBurstFifo = true) := by decide

/-- `checksAny`, first clause: the first channel that does not exist, and the last of the field. -/
theorem witness_checks_badChannel :
    State.reset.params.numChannels ≤ (4 : Chan).toNat
      ∧ State.reset.params.numChannels ≤ (31 : Chan).toNat := by decide

/-- `checksAny`, second clause: the last channel that exists, a handler that does not own. -/
theorem witness_checks_notOwner :
    (3 : Chan).toNat < (inHandler State.reset).params.numChannels
      ∧ owner (inHandler State.reset) (inHandler State.reset).ctx = false := by decide

/-- `checksAny`, third clause. -/
theorem witness_checks_notSplit :
    (3 : Chan).toNat < State.reset.params.numChannels ∧ owner State.reset State.reset.ctx = true
      ∧ State.reset.split = false := by decide

/-- `checksFirst`, last clause, for the tag sets {Uninitialized}, {Ready} and {Busy}. -/
theorem witness_checks_illegalState :
    (allowsAny (withCh readyCh) 1 ∧ ((withCh readyCh).ch 1).status ∉ [Status.uninitialized])
      ∧ (allowsAny (withCh busyCh) 1 ∧ ((withCh busyCh).ch 1).status ∉ [Status.ready])
      ∧ (allowsAny (withCh {}) 1 ∧ ((withCh {}).ch 1).status ∉ [Status.busy]) := by decide

/-- The commands of R109 pass: each tag, and every tag. -/
theorem witness_allows :
    allows (withCh {}) 1 .uninitialized ∧ allows (withCh readyCh) 1 .ready
      ∧ allows (withCh busyCh) 1 .busy ∧ allowsAny (withCh {}) 1 := by decide

/-- R225 from both sides. -/
theorem witness_OneOwner :
    owner State.reset .main = true
      ∧ owner { State.reset with ctrlLoc := .cell, borrowedBy := some .isr } .isr = true
      ∧ owner { State.reset with ctrlLoc := .cell, borrowedBy := some .isr } .main = false := by decide

/-! ### Witnesses: the commands of one channel -/

theorem witness_SplitCreatesChannelsOnce_notOwner :
    owner (inHandler State.reset) (inHandler State.reset).ctx = false := by decide

/-- The first and a second SPLIT, with the last channel that exists and the first that does not. -/
theorem witness_SplitCreatesChannelsOnce_owner :
    owner State.reset State.reset.ctx = true ∧ State.reset.split = false
      ∧ (3 : Chan).toNat < State.reset.params.numChannels
      ∧ ¬ (4 : Chan).toNat < State.reset.params.numChannels
      ∧ owner (withCh readyCh) (withCh readyCh).ctx = true ∧ (withCh readyCh).split = true := by decide

theorem witness_InitAndResetIssueStartsReset :
    allows (withCh {}) 1 .uninitialized ∧ allows (withCh readyCh) 1 .ready := by decide

theorem witness_InitAndResetPollSwrst_init :
    (held (.initWait 1 3) { swrst := true }).cur.hold = some (.initWait 1 3)
      ∧ ((held (.initWait 1 3) { swrst := true }).ch 1).swrst = true
      ∧ (held (.initWait 1 3) {}).cur.hold = some (.initWait 1 3)
      ∧ ((held (.initWait 1 3) {}).ch 1).swrst = false := by decide

theorem witness_InitAndResetPollSwrst_reset :
    (held (.resetWait 1) { readyCh with swrst := true }).cur.hold = some (.resetWait 1)
      ∧ ((held (.resetWait 1) { readyCh with swrst := true }).ch 1).swrst = true
      ∧ (held (.resetWait 1) readyCh).cur.hold = some (.resetWait 1)
      ∧ ((held (.resetWait 1) readyCh).ch 1).swrst = false := by decide

theorem witness_InitThenResetKeepsRegisters :
    (withCh {}).cur.hold = none ∧ allows (withCh {}) 1 .uninitialized := by decide

theorem witness_BurstAndThresholdStored :
    (withCh readyCh).params.hasBurstFifo = false
      ∧ (fifo (withCh readyCh)).params.hasBurstFifo = true
      ∧ allows (fifo (withCh readyCh)) 1 .ready := by decide

/-- TRIGACT 3, TRIGACT 2, and a START that passes. -/
theorem witness_StartEnablesChannel :
    (3 : BitVec 2) = 3 ∧ (2 : BitVec 2) ≠ 3 ∧ trigActCode .transaction = 2
      ∧ allows (withCh readyCh) 1 .ready := by decide

theorem witness_XferdoneReadsEnable : allows (withCh busyCh) 1 .busy := by decide

theorem witness_FreeIssueRequestsDisable :
    allows (withCh busyCh) 1 .busy ∧ allows (withCh { status := .busy }) 1 .busy := by decide

theorem witness_FreePollReturnsBuffers :
    (held (.freeWait 1) busyCh).cur.hold = some (.freeWait 1)
      ∧ ((held (.freeWait 1) busyCh).ch 1).enable = true
      ∧ (held (.freeWait 1) { status := .busy }).cur.hold = some (.freeWait 1)
      ∧ ((held (.freeWait 1) { status := .busy }).ch 1).enable = false := by decide

theorem witness_RestartResumesOrReruns_suspended :
    allows (withCh { busyCh with suspended := true }) 1 .busy
      ∧ ((withCh { busyCh with suspended := true }).ch 1).suspended = true := by decide

theorem witness_RestartResumesOrReruns_stopped :
    (allows (withCh { busyCh with enable := false }) 1 .busy
        ∧ ((withCh { busyCh with enable := false }).ch 1).suspended = false
        ∧ ((withCh { busyCh with enable := false }).ch 1).enable = false
        ∧ ((withCh { busyCh with enable := false }).ch 1).bound = true)
      ∧ (allows (withCh { status := .busy }) 1 .busy
        ∧ ((withCh { status := .busy }).ch 1).suspended = false
        ∧ ((withCh { status := .busy }).ch 1).enable = false
        ∧ ((withCh { status := .busy }).ch 1).bound = false) := by decide

theorem witness_RestartResumesOrReruns_running :
    allows (withCh busyCh) 1 .busy ∧ ((withCh busyCh).ch 1).suspended = false
      ∧ ((withCh busyCh).ch 1).enable = true := by decide

/-- V-41-03, V-41-01, V-41-04, V-41-02: the four ways to be a bad descriptor, each at its boundary. -/
theorem witness_BindChecksAndWritesDescriptor_bad :
    allows (withCh readyCh) 1 .ready ∧ (0x10001 : Word).toNat / 65536 ≠ 0
      ∧ (0 : Word).toNat % 65536 = 0 ∧ (0x10 : Word).toNat / 16 ≠ 0 ∧ (3 : Word).toNat % 4 = 3 := by
  decide

/-- V-41-05: a word descriptor whose source is not a multiple of 4. -/
theorem witness_BindChecksAndWritesDescriptor_misaligned :
    allows (withCh readyCh) 1 .ready
      ∧ ¬ ((1 : Word).toNat / 65536 ≠ 0 ∨ (1 : Word).toNat % 65536 = 0
        ∨ (0xE : Word).toNat / 16 ≠ 0 ∨ (0xE : Word).toNat % 4 = 3)
      ∧ (0x102 : Word).toNat % 2 ^ ((0xE : Word).toNat % 4) ≠ 0 := by decide

/-- V-41-07, with the largest BTCNT: bytes need no alignment. -/
theorem witness_BindChecksAndWritesDescriptor_ok :
    allows (withCh readyCh) 1 .ready
      ∧ ¬ ((0xFFFF : Word).toNat / 65536 ≠ 0 ∨ (0xFFFF : Word).toNat % 65536 = 0
        ∨ (0xC : Word).toNat / 16 ≠ 0 ∨ (0xC : Word).toNat % 4 = 3)
      ∧ ¬ ((0x101 : Word).toNat % 2 ^ ((0xC : Word).toNat % 4) ≠ 0
        ∨ (0x203 : Word).toNat % 2 ^ ((0xC : Word).toNat % 4) ≠ 0) := by decide

/-- Each trigger action, on a channel's slot. -/
theorem witness_RegisterPortWords :
    ((withCh {}).ch 1).trigact = .beat ∧ ((withCh { trigact := .burst }).ch 1).trigact = .burst
      ∧ ((withCh busyCh).ch 1).trigact = .transaction := by decide

theorem witness_WaitParksThenTurnsIntoFree_issue :
    (allows (withCh { status := .busy }) 1 .busy
        ∧ ((withCh { status := .busy }).ch 1).bound = false)
      ∧ allows (withCh busyCh) 1 .busy ∧ ((withCh busyCh).ch 1).bound = true := by decide

theorem witness_WaitParksThenTurnsIntoFree_poll :
    (held (.waitPoll 1) busyCh).cur.hold = some (.waitPoll 1)
      ∧ ((held (.waitPoll 1) busyCh).ch 1).enable = true
      ∧ (held (.waitPoll 1) { busyCh with enable := false }).cur.hold = some (.waitPoll 1)
      ∧ ((held (.waitPoll 1) { busyCh with enable := false }).ch 1).enable = false := by decide

/-- The last byte of the destination range 0x200..0x20F races; the next one does not, and a source byte
races for a write only (V-41-10 to V-41-12). -/
theorem witness_RacesAreBusyRanges :
    raceRead (withCh busyCh) 0x20F 1 = true ∧ raceRead (withCh busyCh) 0x210 1 = false
      ∧ raceWrite (withCh busyCh) 0x10F 1 = true ∧ raceRead (withCh busyCh) 0x10F 1 = false := by decide

/-- A chip whose device bytes start at 0x40000000 (V-41-17). -/
def withDev (s : State) : State :=
  { s with params := { s.params with dev := [⟨0x40000000, 0x100⟩] } }

/-- R176 and R177 have the same clauses: SIZE 3, misaligned, device, race, and none of them, the last
three with word accesses; the device access starts at the first device byte. -/
theorem witness_MemrdReadsOrFaults :
    (2 : BitVec 2) ≠ 3 ∧ (0x40000002 : Word).toNat % 4 ≠ 0
      ∧ ((0x40000000 : Word).toNat % 4 = 0
        ∧ ∃ i : Nat, i < 4 ∧ isDev (withDev State.reset).params (0x40000000 + BitVec.ofNat 32 i) = true)
      ∧ ((0x208 : Word).toNat % 4 = 0
        ∧ (¬ ∃ i : Nat, i < 4 ∧ isDev (withCh busyCh).params (0x208 + BitVec.ofNat 32 i) = true)
        ∧ raceRead (withCh busyCh) 0x208 4 = true)
      ∧ ((0xFFFFFFFC : Word).toNat % 4 = 0
        ∧ (¬ ∃ i : Nat, i < 4 ∧ isDev (withCh busyCh).params (0xFFFFFFFC + BitVec.ofNat 32 i) = true)
        ∧ raceRead (withCh busyCh) 0xFFFFFFFC 4 = false) := by
  refine ⟨by decide, by decide, ⟨by decide, 0, by decide, by decide⟩, ⟨by decide, ?_, by decide⟩,
    by decide, ?_, by decide⟩ <;> simp [isDev, inRegions, withCh, State.setCh, State.reset, Params.default]

theorem witness_MemwrWritesOrFaults :
    (2 : BitVec 2) ≠ 3 ∧ (0x40000002 : Word).toNat % 4 ≠ 0
      ∧ ((0x40000000 : Word).toNat % 4 = 0
        ∧ ∃ i : Nat, i < 4 ∧ isDev (withDev State.reset).params (0x40000000 + BitVec.ofNat 32 i) = true)
      ∧ ((0x104 : Word).toNat % 4 = 0
        ∧ (¬ ∃ i : Nat, i < 4 ∧ isDev (withCh busyCh).params (0x104 + BitVec.ofNat 32 i) = true)
        ∧ raceWrite (withCh busyCh) 0x104 4 = true)
      ∧ ((0x210 : Word).toNat % 4 = 0
        ∧ (¬ ∃ i : Nat, i < 4 ∧ isDev (withCh busyCh).params (0x210 + BitVec.ofNat 32 i) = true)
        ∧ raceWrite (withCh busyCh) 0x210 4 = false) := by
  refine ⟨by decide, by decide, ⟨by decide, 0, by decide, by decide⟩, ⟨by decide, ?_, by decide⟩,
    by decide, ?_, by decide⟩ <;> simp [isDev, inRegions, withCh, State.setCh, State.reset, Params.default]

theorem witness_InterruptEnablesSetAndCleared : allowsAny (withCh {}) 1 := by decide

theorem witness_ChkclrReturnsWhatItClears : allowsAny (withCh { intflag := 0b111 }) 1 := by decide

/-- The four reports: complete above all, error above suspended, suspended alone, none. -/
theorem witness_CallbackReportsInOrder :
    allowsAny (withCh { intflag := 0b111 }) 1
      ∧ (0b111 : FlagSet).getLsbD 1 = true
      ∧ ((0b101 : FlagSet).getLsbD 1 = false ∧ (0b101 : FlagSet).getLsbD 0 = true)
      ∧ ((0b100 : FlagSet).getLsbD 1 = false ∧ (0b100 : FlagSet).getLsbD 0 = false
        ∧ (0b100 : FlagSet).getLsbD 2 = true)
      ∧ ((withCh {}).ch 1).intflag = 0 ∧ allowsAny (withCh {}) 1 := by decide

/-! ### Witnesses: the registry -/

/-- Main borrows at depth d. -/
def borrowing (d : Nat) (s : State) : State :=
  { s with
    ctrlLoc := .cell
    borrowedBy := some .main
    borrowDepth := d }

/-- No section; the section of the borrow; an inner section of the borrow's holder. -/
theorem witness_CsexitRestoresMask :
    State.reset.cur.csStack = []
      ∧ ((borrowing 1 (inSection [false] State.reset)).cur.csStack = [] ++ [false]
        ∧ (borrowing 1 (inSection [false] State.reset)).borrowedBy
          = some (borrowing 1 (inSection [false] State.reset)).ctx
        ∧ (borrowing 1 (inSection [false] State.reset)).cur.csStack.length
          = (borrowing 1 (inSection [false] State.reset)).borrowDepth)
      ∧ ((borrowing 1 (inSection [false, true] State.reset)).cur.csStack = [false] ++ [true]
        ∧ ¬ ((borrowing 1 (inSection [false, true] State.reset)).borrowedBy
              = some (borrowing 1 (inSection [false, true] State.reset)).ctx
            ∧ (borrowing 1 (inSection [false, true] State.reset)).cur.csStack.length
              = (borrowing 1 (inSection [false, true] State.reset)).borrowDepth)) := by decide

/-- A handler inside a section of its own. -/
def handlerInSection (s : State) : State := { inHandler s with isr := { csStack := [false] } }

theorem witness_CellputMovesController :
    State.reset.cur.csStack = []
      ∧ ((handlerInSection State.reset).cur.csStack ≠ []
        ∧ (handlerInSection State.reset).ctx ≠ .main)
      ∧ ((inSection [false] { State.reset with ctrlLoc := .cell }).cur.csStack ≠ []
        ∧ (inSection [false] { State.reset with ctrlLoc := .cell }).ctrlLoc ≠ .main)
      ∧ ((inSection [false] State.reset).cur.csStack ≠ []
        ∧ (inSection [false] State.reset).ctx = .main
        ∧ (inSection [false] State.reset).ctrlLoc = .main) := by decide

theorem witness_CellborrowTakesSlot :
    State.reset.cur.csStack = []
      ∧ ((inSection [false] State.reset).cur.csStack ≠ []
        ∧ (inSection [false] State.reset).ctrlLoc ≠ .cell)
      ∧ ((borrowing 1 (inSection [false] State.reset)).cur.csStack ≠ []
        ∧ (borrowing 1 (inSection [false] State.reset)).ctrlLoc = .cell
        ∧ (borrowing 1 (inSection [false] State.reset)).borrowedBy ≠ none)
      ∧ ((handlerInSection State.reset).cur.csStack ≠ []
        ∧ (handlerInSection State.reset).ctrlLoc = .cell
        ∧ (handlerInSection State.reset).borrowedBy = none) := by decide

theorem witness_CellreleaseEndsBorrow :
    State.reset.borrowedBy ≠ some State.reset.ctx
      ∧ (borrowing 1 (inSection [false] State.reset)).borrowedBy
        = some (borrowing 1 (inSection [false] State.reset)).ctx := by decide

/-- Main; a handler with its borrow; a handler with an open section; a handler that may return. -/
theorem witness_IretReturnsToMain :
    State.reset.ctx = .main
      ∧ ((inHandler { State.reset with borrowedBy := some .isr }).ctx = .isr
        ∧ (inHandler { State.reset with borrowedBy := some .isr }).borrowedBy = some .isr)
      ∧ ((handlerInSection State.reset).ctx = .isr
        ∧ (handlerInSection State.reset).borrowedBy ≠ some .isr
        ∧ (handlerInSection State.reset).isr.csStack ≠ [])
      ∧ ((inHandler State.reset).ctx = .isr ∧ (inHandler State.reset).borrowedBy ≠ some .isr
        ∧ (inHandler State.reset).isr.csStack = []) := by decide

/-! ### Witnesses: the engine -/

theorem witness_EngineResetClearsChannel :
    pickEnabled (withCh { swrst := true }) (.eRst 1) = true := by decide

theorem witness_ReleaseSizeByTrigact :
    ({} : Channel).trigact = .beat ∧ ({ trigact := .burst } : Channel).trigact = .burst
      ∧ busyCh.trigact = .transaction
      ∧ busyCh.rem ≠ 0 := by decide

/-- A software and a peripheral trigger, each without a descriptor, with none released, and with beats
outstanding. -/
theorem witness_TriggerReleasesOrFails_soft :
    (pickEnabled (withCh { status := .busy, enable := true, swtrig := true }) (.eSwt 1) = true
        ∧ ((withCh { status := .busy, enable := true, swtrig := true }).ch 1).bound = false)
      ∧ (pickEnabled (withCh { busyCh with swtrig := true }) (.eSwt 1) = true
        ∧ ((withCh { busyCh with swtrig := true }).ch 1).bound = true
        ∧ ((withCh { busyCh with swtrig := true }).ch 1).auth = 0)
      ∧ (pickEnabled (withCh { busyCh with swtrig := true, auth := 1 }) (.eSwt 1) = true
        ∧ ((withCh { busyCh with swtrig := true, auth := 1 }).ch 1).bound = true
        ∧ ((withCh { busyCh with swtrig := true, auth := 1 }).ch 1).auth ≠ 0) := by decide

theorem witness_TriggerReleasesOrFails_peripheral :
    (pickEnabled (withCh { status := .busy, enable := true, trigsrc := 127 }) (.ePtrig 1) = true
        ∧ ((withCh { status := .busy, enable := true, trigsrc := 127 }).ch 1).bound = false)
      ∧ (pickEnabled (withCh busyCh) (.ePtrig 1) = true ∧ ((withCh busyCh).ch 1).bound = true
        ∧ ((withCh busyCh).ch 1).auth = 0)
      ∧ (pickEnabled (withCh { busyCh with auth := 4 }) (.ePtrig 1) = true
        ∧ ((withCh { busyCh with auth := 4 }).ch 1).bound = true
        ∧ ((withCh { busyCh with auth := 4 }).ch 1).auth ≠ 0) := by decide

/-- A beat that both ends admit and that hits no code. -/
abbrev movable (s : State) (c : Chan) : Prop :=
  pickEnabled s (.eBeat c) = true ∧ dmaOk s.params (s.ch c).curSrc (s.ch c).dSize = true
    ∧ dmaOk s.params (s.ch c).curDst (s.ch c).dSize = true ∧ s.params.codeRegion = []

/-- The last beat; a held trigger at the last released beat; a beat with more to come. -/
theorem witness_BeatMovesBytes :
    (movable (withCh { busyCh with rem := 1, auth := 1 }) 1
        ∧ ((withCh { busyCh with rem := 1, auth := 1 }).ch 1).rem - 1 = 0)
      ∧ (movable (withCh { busyCh with auth := 1, trigPend := true }) 1
        ∧ ((withCh { busyCh with auth := 1, trigPend := true }).ch 1).rem - 1 ≠ 0
        ∧ ((withCh { busyCh with auth := 1, trigPend := true }).ch 1).auth - 1 = 0
        ∧ ((withCh { busyCh with auth := 1, trigPend := true }).ch 1).trigPend = true)
      ∧ (movable (withCh { busyCh with auth := 4 }) 1
        ∧ ((withCh { busyCh with auth := 4 }).ch 1).rem - 1 ≠ 0
        ∧ ((withCh { busyCh with auth := 4 }).ch 1).auth - 1 ≠ 0) := by decide

/-- V-44-07: the source is a device byte; the destination's byte is none. -/
theorem witness_BeatMovesBytes_device :
    movable (withDev (withCh { busyCh with auth := 1, dSize := .byte, curSrc := 0x40000000 })) 1
      ∧ isDev (withDev (withCh { busyCh with auth := 1 })).params 0x40000000 = true
      ∧ isDev (withDev (withCh { busyCh with auth := 1 })).params 0x200 = false := by decide

/-- No access is admitted; every access is, and the destination's byte is code. -/
def noDma (s : State) : State := { s with params := { s.params with dmaOk4 := [] } }

def withCode (s : State) : State :=
  { s with params := { s.params with codeRegion := [⟨0x200, 1⟩] } }

theorem witness_BeatErrorOrCodeWrite :
    (pickEnabled (noDma (withCh { busyCh with auth := 1 })) (.eBeat 1) = true
        ∧ dmaOk (noDma (withCh { busyCh with auth := 1 })).params 0x100 .word = false)
      ∧ (pickEnabled (withCode (withCh { busyCh with auth := 1 })) (.eBeat 1) = true
        ∧ dmaOk (withCode (withCh { busyCh with auth := 1 })).params 0x100 .word = true
        ∧ dmaOk (withCode (withCh { busyCh with auth := 1 })).params 0x200 .word = true
        ∧ isCode (withCode (withCh { busyCh with auth := 1 })).params 0x200 = true
        ∧ isDev (withCode (withCh { busyCh with auth := 1 })).params 0x200 = false) := by decide

/-- A chip whose environment may raise errors and suspend. -/
def unruly (s : State) : State :=
  { s with params := { s.params with mayError := true, maySuspend := true } }

theorem witness_EnvironmentErrorStopsChannel :
    pickEnabled (unruly (withCh { busyCh with auth := 1 })) (.eErr 1) = true := by decide

theorem witness_SuspendKeepsTransfer :
    pickEnabled (unruly (withCh busyCh)) (.eSusp 1) = true
      ∧ ((withCh { busyCh with suspended := true }).ch 1).suspended = true := by decide

theorem witness_DisableAcknowledgedAtBoundary :
    pickEnabled (withCh { busyCh with disableReq := true }) (.eDack 1) = true := by decide

/-- A suspend that MAY_SUSPEND forbids and an entry with no vector pending are not enabled; a state
without the clock. -/
theorem witness_NoClockNoEngineStep :
    pickEnabled (withCh busyCh) (.eSusp 1) = false ∧ pickEnabled State.reset (.entry 4) = false
      ∧ ({ State.reset with params := { State.reset.params with clockReady := false } } :
        State).params.clockReady = false := by decide

theorem witness_EngineStepsLeaveContexts :
    ∃ t, agentStep (.eBeat 1) (withCh { busyCh with auth := 1 }) = .next t
      ∧ ((t.ch 1).rem == 3) = true :=
  exists_of_onNext (by decide)

/-- A beat of channel 1, and a MEMWR of Main, each changing a byte. -/
theorem witness_MemoryChangesOnlyByBeatOrMemwr :
    (∃ t, step { withCh { busyCh with auth := 1 } with sched := [.eBeat 1], mem := [(0x100, 0x10)] }
          = .next t ∧ decide (readByte t.mem 0x200 ≠ readByte [(0x100, 0x10)] 0x200) = true)
      ∧ (∃ t, step (atWords [0x100D, 0x300, 0x55]) = .next t
          ∧ decide (readByte t.mem 0x300 ≠ readByte (atWords []).mem 0x300) = true) :=
  ⟨exists_of_onNext (by decide), exists_of_onNext (by decide)⟩

/-! ### Witnesses: interrupts -/

/-- Channel 1 with its completion interrupt on: its line is high, its own vector is 1 and exists. -/
theorem witness_LatchFollowsLine_high :
    ∃ t, agentStep (.eBeat 1) (withCh { busyCh with rem := 1, auth := 1, inten := 0b010 }) = .next t
      ∧ decide (pickEnabled (withCh { busyCh with rem := 1, auth := 1, inten := 0b010 }) (.eBeat 1) = true
          ∧ t.fault = none ∧ (1 : VecNum).val ≤ t.params.numVectors ∧ t.isrActive ≠ some 1
          ∧ (1 : Chan).toNat < t.params.numChannels ∧ (1 : Chan).toNat < t.params.numVectors
          ∧ (t.ch 1).intflag &&& (t.ch 1).inten ≠ 0) = true :=
  exists_of_onNext (by decide)

/-- The beat that completes sets the latch of its own vector. -/
theorem witness_LatchFollowsLine_set :
    ∃ t, agentStep (.eBeat 1) (withCh { busyCh with rem := 1, auth := 1, inten := 0b010 }) = .next t
      ∧ decide ((withCh { busyCh with rem := 1, auth := 1, inten := 0b010 }).nvicPend[(1 : VecNum)]
          = false ∧ t.nvicPend[(1 : VecNum)] = true) = true :=
  exists_of_onNext (by decide)

/-- The launch state with vector v pending. -/
def pending (v : VecNum) : State := { State.reset with nvicPend := State.reset.nvicPend.set v.val true }

/-- An entry clears the latch of its own vector. -/
theorem witness_LatchFollowsLine_cleared :
    ∃ t, agentStep (.entry 4) (pending 4) = .next t
      ∧ decide ((pending 4).nvicPend[(4 : VecNum)] = true ∧ t.nvicPend[(4 : VecNum)] = false) = true :=
  exists_of_onNext (by decide)

/-- The last vector that exists. -/
theorem witness_EntryStartsHandler :
    (pending 4).fault = none ∧ (pending 4).isrActive = none ∧ (pending 4).primask = false
      ∧ (4 : VecNum).val ≤ (pending 4).params.numVectors ∧ (pending 4).nvicPend[(4 : VecNum)] = true
      ∧ (pending 4).params.vecEn[(4 : VecNum)] = true := by decide

theorem witness_EntryOnlyWhenUnmasked :
    ∃ t, step { pending 4 with sched := [.entry 4] } = .next t
      ∧ decide ((pending 4).isrActive ≠ t.isrActive ∧ t.isrActive ≠ none) = true :=
  exists_of_onNext (by decide)

/-! ### Witnesses: the invariants -/

theorem reset_ch (c : Chan) : State.reset.ch c = {} := by simp [State.reset, State.ch]

/-- A state whose channel 1 alone is in use meets the invariants when that channel does, no handler
runs, no section is open, nothing is borrowed, and Main's hold, if any, is one its tag allows. -/
theorem inv_of_channel (s : State) (x : Channel) (hch : ∀ c, s.ch c = (State.reset.setCh 1 x).ch c)
    (hx : channelInv x) (hs : s.split = true) (hl : s.ctrlLoc = .main) (hb : s.borrowedBy = none)
    (hi : s.isrActive = none) (hisr : s.isr = {}) (hm : s.main.csStack = [])
    (hh : ∀ h, s.main.hold = some h → (s.ch (holdTag h).1).status = (holdTag h).2) : blockInv s := by
  have hc : ∀ c, channelInv (s.ch c) := by
    intro c
    rw [hch]
    by_cases h : c = 1
    · subst h
      simpa [State.setCh, State.ch] using hx
    · have : (State.reset.setCh 1 x).ch c = {} := by
        have hn : ¬ 1 = c.toNat := fun e => h (BitVec.eq_of_toNat_eq e.symm)
        simp [State.setCh, State.ch, hn, State.reset]
      rw [this]
      simp [channelInv, quiet]
  refine ⟨hc, ?_, ?_, ?_, ?_, ?_⟩
  · intro y hy
    rw [hb] at hy
    cases hy
  · intro y
    cases y <;> simp [State.ctxOf, hm, hisr]
  · simp [handlerInv, hi, hisr, hb]
  · intro y h hy
    cases y with
    | main => exact ⟨by simp [owner, hl], hs, hh h hy⟩
    | isr => simp [State.ctxOf, hisr] at hy
  · intro hf
    rw [hs] at hf
    cases hf

/-- A bound channel in a state that meets the invariants takes a peripheral and a software trigger. -/
theorem witness_ReleaseSizeByTrigact_trigger :
    (blockInv (withCh busyCh) ∧ ((withCh busyCh).ch 1).bound = true
        ∧ pickEnabled (withCh busyCh) (.ePtrig 1) = true)
      ∧ blockInv (withCh { busyCh with swtrig := true })
        ∧ ((withCh { busyCh with swtrig := true }).ch 1).bound = true
        ∧ pickEnabled (withCh { busyCh with swtrig := true }) (.eSwt 1) = true := by
  have hinv : ∀ x, channelInv x → blockInv (withCh x) := fun x hx =>
    inv_of_channel _ x (fun _ => rfl) hx rfl rfl rfl rfl rfl rfl (fun h hh => by cases hh)
  exact ⟨⟨hinv _ (by simp [channelInv, quiet, busyCh]), by decide, by decide⟩,
    hinv _ (by simp [channelInv, quiet, busyCh]), by decide, by decide⟩

/-- The launch state meets every invariant, and a step from it answers a next state. -/
theorem witness_EveryStepKeepsBlockInvariant :
    blockInv State.reset ∧ ∃ t, step (atWords []) = .next t ∧ (t.log == []) = true := by
  refine ⟨⟨fun c => ?_, ?_, ?_, ?_, ?_, fun _ c => ?_⟩, exists_of_onNext (by decide)⟩
  · rw [reset_ch]
    simp [channelInv, quiet]
  · intro y hy
    cases hy
  · intro y
    cases y <;> simp [State.ctxOf, State.reset]
  · simp [handlerInv, State.reset]
  · intro y h hy
    cases y <;> cases hy
  · rw [reset_ch]

theorem witness_EveryStepKeepsMemoryForm :
    (atWords [0x100D, 0x300, 0x55]).mem.wf = true
      ∧ ∃ t, step (atWords [0x100D, 0x300, 0x55]) = .next t ∧ (t.mem == [(0x300, 0x55)]) = true :=
  ⟨by decide, exists_of_onNext (by decide)⟩

theorem witness_ParametersNeverChange :
    ∃ t, step (atWords [0x1]) = .next t ∧ t.split = true := exists_of_onNext (by decide)

theorem witness_LogOnlyGrows :
    ∃ t, step { withCh { swrst := true } with sched := [.eRst 1] } = .next t
      ∧ decide (nextPick { withCh { swrst := true } with sched := [.eRst 1] } ≠ .context) = true :=
  exists_of_onNext (by decide)

/-- The end of an INIT. -/
theorem witness_LifecycleTransitions_init :
    blockInv (held (.initWait 1 2) {}) ∧ ∃ t, step (held (.initWait 1 2) {}) = .next t
      ∧ decide ((t.ch 1).status ≠ ((held (.initWait 1 2) {}).ch 1).status) = true := by
  refine ⟨inv_of_channel _ {} (fun _ => rfl) (by simp [channelInv, quiet]) rfl rfl rfl rfl rfl rfl ?_,
    exists_of_onNext (by decide)⟩
  intro h hh
  cases hh
  decide

/-- The end of a RESET. -/
theorem witness_LifecycleTransitions_reset :
    blockInv (held (.resetWait 1) readyCh) ∧ ∃ t, step (held (.resetWait 1) readyCh) = .next t
      ∧ decide ((t.ch 1).status ≠ ((held (.resetWait 1) readyCh).ch 1).status) = true := by
  refine ⟨inv_of_channel _ readyCh (fun _ => rfl) (by simp [channelInv, quiet, readyCh]) rfl rfl rfl rfl
    rfl rfl ?_, exists_of_onNext (by decide)⟩
  intro h hh
  cases hh
  decide

/-- A START. -/
theorem witness_LifecycleTransitions_start :
    blockInv { atWords [0x2846] with chans := (withCh readyCh).chans, split := true }
      ∧ ∃ t, step { atWords [0x2846] with chans := (withCh readyCh).chans, split := true } = .next t
        ∧ decide ((t.ch 1).status ≠ ((withCh readyCh).ch 1).status) = true := by
  refine ⟨inv_of_channel _ readyCh (fun _ => rfl) (by simp [channelInv, quiet, readyCh]) rfl rfl rfl rfl
    rfl rfl ?_, exists_of_onNext (by decide)⟩
  intro h hh
  cases hh

/-- The end of a FREE. -/
theorem witness_LifecycleTransitions_free :
    blockInv (held (.freeWait 1) { status := .busy })
      ∧ ∃ t, step (held (.freeWait 1) { status := .busy }) = .next t
        ∧ decide ((t.ch 1).status ≠ ((held (.freeWait 1) { status := .busy }).ch 1).status) = true := by
  refine ⟨inv_of_channel _ { status := .busy } (fun _ => rfl) (by simp [channelInv, quiet]) rfl rfl rfl
    rfl rfl rfl ?_, exists_of_onNext (by decide)⟩
  intro h hh
  cases hh
  decide

/-- The borrow held by Main in its section, and the mask set; by a handler in its own. -/
theorem witness_BorrowHolderExcludesOther_borrowed :
    (blockInv (borrowing 1 (inSection [false] State.reset))
        ∧ (borrowing 1 (inSection [false] State.reset)).borrowedBy = some .main)
      ∧ (blockInv { handlerInSection State.reset with
            borrowedBy := some .isr, borrowDepth := 1, primask := true }
        ∧ ({ handlerInSection State.reset with
            borrowedBy := some .isr, borrowDepth := 1, primask := true } : State).borrowedBy
          = some .isr) := by
  refine ⟨⟨⟨fun c => ?_, ?_, ?_, ?_, ?_, fun _ c => ?_⟩, rfl⟩,
    ⟨fun c => ?_, ?_, ?_, ?_, ?_, fun _ c => ?_⟩, rfl⟩
  · show channelInv (State.reset.ch c)
    rw [reset_ch]
    simp [channelInv, quiet]
  · intro y hy
    cases hy
    decide
  · intro y
    cases y <;> decide
  · simp [handlerInv, borrowing, inSection, State.reset]
  · intro y h hy
    cases y <;> cases hy
  · show (State.reset.ch c).status = _
    rw [reset_ch]
  · show channelInv (State.reset.ch c)
    rw [reset_ch]
    simp [channelInv, quiet]
  · intro y hy
    cases hy
    decide
  · intro y
    cases y <;> decide
  · simp [handlerInv, handlerInSection, inHandler, State.reset]
  · intro y h hy
    cases y <;> cases hy
  · show (State.reset.ch c).status = _
    rw [reset_ch]

/-- Main held, and an entry that can be taken. -/
theorem witness_BorrowHolderExcludesOther_held :
    (blockInv (held (.freeWait 1) { status := .busy })
        ∧ (held (.freeWait 1) { status := .busy }).main.hold ≠ none)
      ∧ (blockInv { pending 4 with split := true }
        ∧ pickEnabled { pending 4 with split := true } (.entry 4) = true) := by
  refine ⟨⟨inv_of_channel _ { status := .busy } (fun _ => rfl) (by simp [channelInv, quiet]) rfl rfl rfl
    rfl rfl rfl ?_, by decide⟩, inv_of_channel _ {} (fun c => ?_) (by simp [channelInv, quiet]) rfl rfl
    rfl rfl rfl rfl ?_, by decide⟩
  · intro h hh
    cases hh
    decide
  · have : State.reset.setCh 1 {} = State.reset := by decide
    rw [this]
    rfl
  · intro h hh
    cases hh

/-! ### Witness: a fair run -/

/-- Channel 0 with a reset started; the engine completes it, and nothing is left to do. -/
def resetting : State := State.reset.setCh 0 { swrst := true }

/-- The run: the reset, then nothing. -/
def resetRun (n : Nat) : State := if n = 0 then resetting else State.reset

theorem resetting_step : agentStep (.eRst 0) resetting = .next State.reset := by
  obtain ⟨t, h, e⟩ : ∃ t, agentStep (.eRst 0) resetting = .next t ∧ decide (t = State.reset) = true :=
    exists_of_onNext (by decide)
  rw [h, of_decide_eq_true e]

/-- At launch with no program, no agent can step. -/
theorem reset_quiescent (p : Pick) : pickEnabled State.reset p = false := by
  cases p <;>
    simp [pickEnabled, contextEnabled, entryEnabled, rstEnabled, swtEnabled, ptrigEnabled, beatEnabled,
      errEnabled, suspEnabled, dackEnabled, takesTriggers, reset_ch] <;>
    simp [State.reset, State.ctx, State.cur, State.ctxOf, State.program, Params.default]

theorem witness_FairRunCompletesReset :
    isRun (fun _ => .eRst 0) resetRun ∧ weaklyFair (fun _ => .eRst 0) resetRun
      ∧ (∀ m, (resetRun m).fault = none) ∧ (0 : Chan).toNat < (resetRun 0).params.numChannels
      ∧ (resetRun 0).params.clockReady = true := by
  refine ⟨fun n => ?_, fun p _ n h => ?_, fun m => ?_, by decide, by decide⟩
  · cases n with
    | zero => exact resetting_step
    | succ n =>
      show agentStep _ State.reset = .next State.reset
      simp [agentStep, reset_quiescent]
  · have := h (n + 1) (by omega)
    rw [show resetRun (n + 1) = State.reset from rfl, reset_quiescent] at this
    cases this
  · cases m <;> rfl

end Sys2Proof.Tests
end

section
/-! # Proofs of the state's family (10_state.md)

## What a step can do to the memory, the parameters and the log -/

namespace Sys2Proof.Machine

open Sys2Proof.Safety

/-- Every step consumes a pick; beyond that it does nothing, or it is an enabled pick's effect with
or without the latches of R311 after it. -/
theorem step_effect {s t : State} (h : step s = .next t) :
    t = dropPick s ∨
      (pickEnabled s (nextPick s) = true ∧
        ∃ u, pickEffect (dropPick s) (nextPick s) = .next u ∧ (t = u ∨ t = latchPending u)) := by
  rcases agentStep_cases (step_cases h).2 with ⟨_, rfl⟩ | ⟨he, u, hu, rfl⟩
  · exact .inl rfl
  · refine .inr ⟨by rwa [pickEnabled_dropPick] at he, u, hu, ?_⟩
    split
    · exact .inl rfl
    · exact .inr rfl

theorem engineBeat_mem (s : State) (c : Chan) :
    (engineBeat s c).mem = s.mem
      ∨ ∃ bs, (engineBeat s c).mem = beatStore s.params s.mem (s.ch c).curDst bs := by
  unfold engineBeat
  dsimp only
  split
  · exact .inl rfl
  split
  · exact .inl rfl
  · exact .inr ⟨_, rfl⟩

/-- What an effect can do to `Mem`: a beat stores bytes, a fetched MEMWR writes, nothing else
touches it (R73). -/
theorem pickEffect_mem {s t : State} {p : Pick} (h : pickEffect s p = .next t) :
    t.mem = s.mem
      ∨ (∃ c bs, p = .eBeat c ∧ t.mem = beatStore s.params s.mem (s.ch c).curDst bs)
      ∨ (p = .context ∧ ∃ size addr data n rest, s.cur.hold = none
          ∧ decode (fetchWords s) = .ok (.memwr size addr data) rest
          ∧ t.mem = memWrite s.mem addr n data) := by
  cases p with
  | context =>
    rcases (contextStep_cases h).2 with hm | hm
    · exact .inl hm
    · exact .inr (.inr ⟨rfl, hm⟩)
  | eBeat c =>
    cases h
    rcases engineBeat_mem s c with hm | ⟨bs, hm⟩
    · exact .inl hm
    · exact .inr (.inl ⟨c, bs, rfl, hm⟩)
  | entry | eRst | eSwt | ePtrig | eErr | eSusp | eDack =>
    cases h
    exact .inl rfl

/-- What a step can do to `Mem`, in terms of the state it starts from. -/
theorem step_mem {s t : State} (h : step s = .next t) :
    t.mem = s.mem
      ∨ (∃ c bs, nextPick s = .eBeat c ∧ beatEnabled s c = true
          ∧ t.mem = beatStore s.params s.mem (s.ch c).curDst bs)
      ∨ (nextPick s = .context ∧ ∃ size addr data n rest, s.cur.hold = none
          ∧ decode (fetchWords s) = .ok (.memwr size addr data) rest
          ∧ t.mem = memWrite s.mem addr n data) := by
  rcases step_effect h with rfl | ⟨he, u, hu, ht⟩
  · exact .inl (dropPick_mem s)
  · have htu : t.mem = u.mem := by rcases ht with rfl | rfl <;> simp
    rw [htu]
    rcases pickEffect_mem hu with hm | ⟨c, bs, hp, hm⟩ | hm
    · exact .inl (by simpa using hm)
    · rw [hp] at he
      have hb : beatEnabled s c = true := by
        simp only [pickEnabled, Bool.and_eq_true] at he
        exact he.2
      exact .inr (.inl ⟨c, bs, hp, hb, by simpa using hm⟩)
    · exact .inr (.inr (by simpa using hm))

/-- What a channel must be for its beat to be enabled (R245). -/
theorem beatEnabled_channel {s : State} {c : Chan} (h : beatEnabled s c = true) :
    c.toNat < s.params.numChannels ∧ (s.ch c).enable = true ∧ (s.ch c).suspended = false
      ∧ (s.ch c).auth ≠ 0 := by
  simp only [beatEnabled, engineReady, chanValid, Bool.and_eq_true, decide_eq_true_eq,
    Bool.not_eq_true'] at h
  obtain ⟨⟨⟨⟨⟨hc, _⟩, he⟩, hs⟩, ha⟩, _⟩ := h
  exact ⟨hc, he, hs, ha⟩

/-- No effect changes a launch parameter, and only the context logs (R37, R46). -/
theorem pickEffect_params_log {s t : State} {p : Pick} (h : pickEffect s p = .next t) :
    t.params = s.params ∧ ∃ es, t.log = s.log ++ es ∧ (p ≠ .context → es = []) := by
  rcases pickEffect_cases h with ⟨rfl, hc⟩ | ⟨v, rfl, rfl⟩ | ⟨c, _, x, m, d, f, rfl, _⟩
  · obtain ⟨hk, _⟩ := contextStep_cases hc
    obtain ⟨es, hl⟩ := hk.log
    exact ⟨hk.params, es, hl, fun hp => absurd rfl hp⟩
  · exact ⟨rfl, [], by simp⟩
  · exact ⟨rfl, [], by simp⟩

theorem step_params_log {s t : State} (h : step s = .next t) :
    t.params = s.params ∧ ∃ es, t.log = s.log ++ es ∧ (nextPick s ≠ .context → es = []) := by
  rcases step_effect h with rfl | ⟨_, u, hu, rfl | rfl⟩
  · exact ⟨dropPick_params s, [], by simp⟩
  · simpa using pickEffect_params_log hu
  · simpa using pickEffect_params_log hu

/-- Settles O55: the two operations that write `Mem` keep its canonical form. -/
theorem everyStepKeepsMemoryForm : Obligations.EveryStepKeepsMemoryForm := by
  intro s t hwf h
  rcases step_mem h with hm | ⟨c, bs, _, _, hm⟩ | ⟨_, size, addr, data, n, rest, _, _, hm⟩
  · rw [hm]
    exact hwf
  · rw [hm]
    exact wf_beatStore _ _ _ _ hwf
  · rw [hm]
    exact wf_memWrite _ _ _ _ hwf

/-- Settles O48: the cases of `step_mem`, with what the beat's precondition says of its channel. -/
theorem memoryChangesOnlyByBeatOrMemwr : Obligations.MemoryChangesOnlyByBeatOrMemwr := by
  rintro s t h ⟨a, ha⟩
  rcases step_mem h with hm | ⟨c, _, hp, hb, _⟩ | ⟨hp, size, addr, data, _, rest, hh, hd, _⟩
  · rw [hm] at ha
    exact absurd rfl ha
  · obtain ⟨hc, he, hs, _⟩ := beatEnabled_channel hb
    exact .inl ⟨c, hp, he, hs, hc⟩
  · exact .inr ⟨hp, hh, size, addr, data, rest, hd⟩

/-- Settles O56: no pick's effect, nor the pick's consumption, nor the latches write `params`. -/
theorem parametersNeverChange : Obligations.ParametersNeverChange :=
  fun _ _ h => (step_params_log h).1

/-- Settles O57: only the context's step writes the log, and it appends. -/
theorem logOnlyGrows : Obligations.LogOnlyGrows :=
  fun _ _ h => (step_params_log h).2

/-! ## The step of the running context (R305, R311, R315) -/

/-- A context with words to fetch can step. -/
theorem contextEnabled_of_fetch {s : State} {i : Instr} {rest : List Word}
    (hd : decode (fetchWords s) = .ok i rest) : contextEnabled s = true := by
  have hw : fetchWords s ≠ [] := fun e => by rw [e] at hd; cases hd
  have hpc : s.cur.pc < s.program.length := by
    by_contra hge
    exact hw (List.drop_eq_nil_of_le (Nat.le_of_not_lt hge))
  simp [contextEnabled, hpc]

/-- A free context issues the command its words decode to. -/
theorem contextStep_decoded {s : State} {i : Instr} {rest : List Word} (hh : s.cur.hold = none)
    (hd : decode (fetchWords s) = .ok i rest) : contextStep s = exec i s := by
  unfold contextStep issueStep
  rw [hh]
  cases hw : fetchWords s with
  | nil => rw [hw] at hd; cases hd
  | cons w args =>
    rw [hw] at hd
    simp only [hd]

/-- The machine's step when the running context is picked and can step. -/
theorem step_context {s : State} (hf : s.fault = none) (hp : nextPick s = .context)
    (he : contextEnabled s = true) : step s = settle (contextStep (dropPick s)) := by
  have he' : pickEnabled (dropPick s) .context = true := by
    rw [pickEnabled_dropPick]
    simp [pickEnabled, hf, he]
  rw [step_running hf, hp, agentStep, if_pos he']
  rfl

/-- Which context runs and what it fetches (R312). -/
theorem running_main {s : State} (h : s.isrActive = none) :
    s.ctx = .main ∧ s.cur = s.main ∧ s.program = s.params.pMain
      ∧ fetchWords s = s.params.pMain.drop s.main.pc := by
  simp [fetchWords, State.program, State.cur, State.ctx, h]

theorem running_isr {s : State} {v : VecNum} (h : s.isrActive = some v) :
    s.ctx = .isr ∧ s.cur = s.isr ∧ s.program = s.params.handlers[v]
      ∧ fetchWords s = s.params.handlers[v].drop s.isr.pc := by
  simp [fetchWords, State.program, State.cur, State.ctx, h]

/-- Settles O6: the context that runs, the pick consumed, and the fetched command's `exec`. -/
theorem stepRunsDecodedInstruction : Obligations.StepRunsDecodedInstruction := by
  intro s i rest
  refine ⟨running_main, fun v => running_isr, ?_, ?_, step_running, ?_⟩
  · intro p picks h
    simp [nextPick, dropPick, h]
  · intro h
    simp [dropPick, h]
  · intro hf hp hh hd
    rw [step_context hf hp (contextEnabled_of_fetch hd),
      contextStep_decoded (by simpa using hh) (by simpa using hd)]
    cases exec i (dropPick s) <;> rfl

theorem contextStep_held {s : State} {h : Hold} (hh : s.cur.hold = some h) :
    contextStep s = .next (pollStep s h) := by
  simp only [contextStep, hh]

/-- A poll raises no fault. -/
theorem pollStep_fault (s : State) (h : Hold) : (pollStep s h).fault = s.fault := by
  cases h <;> simp only [pollStep, pollInit, pollReset, pollFree, pollWait, endHold] <;> split <;>
    simp

/-- Settles O7: a held context can step, its step is the poll, and a poll raises no fault. -/
theorem heldContextPolls : Obligations.HeldContextPolls := by
  intro s h hh
  refine ⟨contextStep_held hh, fun hf hp => ?_⟩
  have he : contextEnabled s = true := by simp [contextEnabled, hh]
  have hq : (dropPick s).cur.hold = some h := by simpa using hh
  rw [step_context hf hp he, contextStep_held hq, settle_next, pollStep_fault]
  simp [hf]

/-! ## The register port (R23, R33) -/

theorem portAddress_eq (p : Params) (c : Chan) (r : PortReg) :
    portAddress p c r = p.regBase + BitVec.ofNat 32 (0x20 * c.toNat + (portOffset r).toNat) := by
  unfold portAddress
  rw [BitVec.add_assoc]
  congr 1
  apply BitVec.eq_of_toNat_eq
  simp

/-- A bit of a word, from its number. -/
theorem bit_eq (w : Word) (k : Nat) (b : Bool) (h : w.toNat / 2 ^ k % 2 = b.toNat) :
    w.getLsbD k = b := by
  rw [BitVec.getLsbD, Nat.testBit_eq_decide_div_mod_eq, h]
  cases b <;> rfl

theorem toNat_ctrlWord (p : Params) (ch : Channel) :
    (ctrlWord p ch).toNat =
      (thresholdField p ch).toNat * 2 ^ 28 + (burstlenField p ch).toNat * 2 ^ 24
        + (trigActCode ch.trigact).toNat * 2 ^ 20 + ch.trigsrc.toNat * 2 ^ 8
        + ch.enable.toNat * 2 + ch.swrst.toNat := by
  simp only [ctrlWord, toNat_append_add, BitVec.toNat_ofBool]
  simp
  omega

/-- The bits of CTRL as R23's map gives them, the reserved ones 0. -/
theorem ctrlWord_fields (p : Params) (ch : Channel) :
    (ctrlWord p ch).getLsbD 0 = ch.swrst ∧ (ctrlWord p ch).getLsbD 1 = ch.enable
      ∧ (ctrlWord p ch).extractLsb' 2 6 = 0 ∧ (ctrlWord p ch).extractLsb' 8 7 = ch.trigsrc
      ∧ (ctrlWord p ch).extractLsb' 15 5 = 0
      ∧ (ctrlWord p ch).extractLsb' 20 2 = trigActCode ch.trigact
      ∧ (ctrlWord p ch).extractLsb' 22 2 = 0
      ∧ (ctrlWord p ch).extractLsb' 24 4 = burstlenField p ch
      ∧ (ctrlWord p ch).extractLsb' 28 2 = thresholdField p ch
      ∧ (ctrlWord p ch).extractLsb' 30 2 = 0 := by
  have hw := toNat_ctrlWord p ch
  have := (thresholdField p ch).isLt
  have := (burstlenField p ch).isLt
  have := (trigActCode ch.trigact).isLt
  have := ch.trigsrc.isLt
  have := ch.enable.toNat_lt
  have := ch.swrst.toNat_lt
  refine ⟨bit_eq _ _ _ ?_, bit_eq _ _ _ ?_, field_eq _ _ _ ?_, field_eq _ _ _ ?_, field_eq _ _ _ ?_,
    field_eq _ _ _ ?_, field_eq _ _ _ ?_, field_eq _ _ _ ?_, field_eq _ _ _ ?_,
    field_eq _ _ _ ?_⟩ <;> rw [hw] <;> simp <;> omega

/-- A field in the low bits of a register, every bit above it 0. -/
theorem zeroExtend_fields {n : Nat} (x : BitVec n) (k : Nat) (h : n + k = 32) :
    (x.zeroExtend 32).extractLsb' 0 n = x ∧ (x.zeroExtend 32).extractLsb' n k = 0 := by
  have hx : x.toNat < 2 ^ 32 :=
    Nat.lt_of_lt_of_le x.isLt (Nat.pow_le_pow_right (by decide) (by omega))
  have hw : (x.zeroExtend 32).toNat = x.toNat := by
    rw [BitVec.zeroExtend, BitVec.toNat_setWidth, Nat.mod_eq_of_lt hx]
  refine ⟨field_eq _ _ _ ?_, (high_zero_iff _ _ _ h).2 ?_⟩ <;> rw [hw]
  · simp [Nat.mod_eq_of_lt x.isLt]
  · exact Nat.div_eq_of_lt x.isLt

theorem toNat_statusWord (ch : Channel) :
    (statusWord ch).toNat =
      (statusSyncbusy ch).toNat * 8 + (statusSusp ch).toNat * 4 + (statusBusy ch).toNat * 2
        + (statusPend ch).toNat := by
  simp only [statusWord, toNat_append_add, BitVec.toNat_ofBool]
  simp
  omega

/-- The bits of STATUS (R33), the reserved ones 0. -/
theorem statusWord_fields (ch : Channel) :
    (statusWord ch).getLsbD 0 = statusPend ch ∧ (statusWord ch).getLsbD 1 = statusBusy ch
      ∧ (statusWord ch).getLsbD 2 = statusSusp ch ∧ (statusWord ch).getLsbD 3 = statusSyncbusy ch
      ∧ (statusWord ch).extractLsb' 4 28 = 0 := by
  have hw := toNat_statusWord ch
  have := (statusPend ch).toNat_lt
  have := (statusBusy ch).toNat_lt
  have := (statusSusp ch).toNat_lt
  have := (statusSyncbusy ch).toNat_lt
  refine ⟨bit_eq _ _ _ ?_, bit_eq _ _ _ ?_, bit_eq _ _ _ ?_, bit_eq _ _ _ ?_, field_eq _ _ _ ?_⟩ <;>
    rw [hw] <;> simp <;> omega

theorem statusBusy_iff (ch : Channel) : statusBusy ch = true ↔ 0 < ch.auth.toNat := by
  rw [statusBusy, decide_eq_true_eq, Nat.pos_iff_ne_zero, ne_eq, ne_eq, ← BitVec.toNat_inj]
  rfl

theorem statusSyncbusy_iff (ch : Channel) :
    statusSyncbusy ch = true ↔ ch.swrst = true ∨ ch.disableReq = true := by
  simp [statusSyncbusy]

/-- SWTRIG holds its one bit, every other bit 0. -/
theorem bitValue_fields (b : Bool) :
    (bitValue b).getLsbD 0 = b ∧ (bitValue b).extractLsb' 1 31 = 0 := by
  cases b <;> decide

/-- Settles O24: the address formula and the fields of each register's word. -/
theorem registerPortWords : Obligations.RegisterPortWords := by
  intro s c ch at_
  obtain ⟨c0, c1, c2, c8, c15, c20, c22, c24, c28, c30⟩ := ctrlWord_fields s.params ch
  obtain ⟨s0, s1, s2, s3, s4⟩ := statusWord_fields ch
  refine ⟨⟨portAddress_eq _ _ _, portAddress_eq _ _ _, portAddress_eq _ _ _, portAddress_eq _ _ _,
      portAddress_eq _ _ _, portAddress_eq _ _ _, portAddress_eq _ _ _⟩,
    ⟨_, rfl, c0, c1, c2, c8, c15, ?_, ?_, ?_, c22, c24, c28, c30⟩,
    ⟨_, rfl, zeroExtend_fields ch.prilvl 30 rfl⟩, ⟨_, rfl, zeroExtend_fields ch.inten 29 rfl⟩,
    ⟨_, rfl, zeroExtend_fields ch.intflag 29 rfl⟩, ⟨_, rfl, s0, ?_, s2, ?_, s4⟩,
    ⟨_, rfl, bitValue_fields ch.swtrig⟩⟩
  · exact fun h => by rw [c20, h]; rfl
  · exact fun h => by rw [c20, h]; rfl
  · exact fun h => by rw [c20, h]; rfl
  · rw [s1, statusBusy_iff]
  · rw [s3, statusSyncbusy_iff]

/-! ## Launch (R44, R351, R352) -/

theorem ch_reset (c : Chan) : State.reset.ch c = {} := by
  simp [State.reset, State.ch]

/-- Settles O52: every channel slot at launch is the default channel. -/
theorem launchState : Obligations.LaunchState := by
  refine ⟨fun c => ?_, rfl, rfl, rfl, rfl, fun v => ?_, rfl, rfl, rfl, rfl, rfl, rfl, rfl⟩
  · simp only [ch_reset]
    decide
  · simp [State.reset]

/-- A channel at launch, at rest and unbound, meets its invariants. -/
theorem channelInv_default : channelInv {} := by
  simp [channelInv, quiet]

/-- At launch no context is held and no section is open. -/
theorem ctxOf_reset (x : Ctx) : State.reset.ctxOf x = {} := by
  cases x <;> rfl

/-- Settles O53: at launch no borrow is held, no section open and no context blocked. -/
theorem invariantsHoldAtLaunch : Obligations.InvariantsHoldAtLaunch := by
  have hborrow : borrowInv State.reset := fun x hx => by cases hx
  have hmask : maskInv State.reset := fun x => by simp [ctxOf_reset]
  have hhandler : handlerInv State.reset := by simp [handlerInv, State.reset]
  have hhold : holdInv State.reset := fun x h hx => by simp [ctxOf_reset] at hx
  have hsplit : splitInv State.reset := fun _ c => by rw [ch_reset]
  have hchan : ∀ c, channelInv (State.reset.ch c) := fun c => by
    rw [ch_reset]
    exact channelInv_default
  exact ⟨⟨hchan, hborrow, hmask, hhandler, hhold, hsplit⟩, wf_reset⟩

end Sys2Proof.Machine
end

section
/-! # The invariants of R45: what they read, and what a channel's update keeps -/

namespace Sys2Proof.Machine

open Sys2Proof.Safety

/-! ## Holds and sections after a write of the running context -/

/-- A field of a context after the running context is written. -/
theorem setCtx_ctxOf_field {α : Type} (f : CtxState → α) (s : State) (v : CtxState) (x : Ctx) :
    f ((s.setCtx s.ctx v).ctxOf x) = if x = s.ctx then f v else f (s.ctxOf x) := by
  split
  next e => rw [e, setCtx_ctxOf_same]
  next e => rw [setCtx_ctxOf_ne s v e]

/-- A field that the write leaves as it was. -/
theorem setCtx_ctxOf_keeps {α : Type} (f : CtxState → α) {s : State} {v : CtxState}
    (hv : f v = f s.cur) (x : Ctx) : f ((s.setCtx s.ctx v).ctxOf x) = f (s.ctxOf x) := by
  rw [setCtx_ctxOf_field f, hv]
  split
  next e => rw [e, State.cur]
  · rfl

@[simp] theorem advance_ctxOf_hold (s : State) (k : Nat) (x : Ctx) :
    ((s.advance k).ctxOf x).hold = (s.ctxOf x).hold :=
  setCtx_ctxOf_keeps CtxState.hold (by rfl) x

@[simp] theorem advance_ctxOf_csStack (s : State) (k : Nat) (x : Ctx) :
    ((s.advance k).ctxOf x).csStack = (s.ctxOf x).csStack :=
  setCtx_ctxOf_keeps CtxState.csStack (by rfl) x

@[simp] theorem setRes_ctxOf_hold (s : State) (v : Word) (x : Ctx) :
    ((s.setRes v).ctxOf x).hold = (s.ctxOf x).hold :=
  setCtx_ctxOf_keeps CtxState.hold (by rfl) x

@[simp] theorem setRes_ctxOf_csStack (s : State) (v : Word) (x : Ctx) :
    ((s.setRes v).ctxOf x).csStack = (s.ctxOf x).csStack :=
  setCtx_ctxOf_keeps CtxState.csStack (by rfl) x

@[simp] theorem setHold_ctxOf_hold (s : State) (h : Option Hold) (x : Ctx) :
    ((s.setHold h).ctxOf x).hold = if x = s.ctx then h else (s.ctxOf x).hold :=
  setCtx_ctxOf_field CtxState.hold s _ x

@[simp] theorem setHold_ctxOf_csStack (s : State) (h : Option Hold) (x : Ctx) :
    ((s.setHold h).ctxOf x).csStack = (s.ctxOf x).csStack :=
  setCtx_ctxOf_keeps CtxState.csStack (by rfl) x

@[simp] theorem setCsStack_ctxOf_hold (s : State) (l : List Bool) (x : Ctx) :
    ((s.setCsStack l).ctxOf x).hold = (s.ctxOf x).hold :=
  setCtx_ctxOf_keeps CtxState.hold (by rfl) x

@[simp] theorem setCsStack_ctxOf_csStack (s : State) (l : List Bool) (x : Ctx) :
    ((s.setCsStack l).ctxOf x).csStack = if x = s.ctx then l else (s.ctxOf x).csStack :=
  setCtx_ctxOf_field CtxState.csStack s _ x

/-! ## What the invariants read -/

/-- The two states agree on everything the invariants of R45 speak of. -/
structure SameBlock (s t : State) : Prop where
  ch : ∀ c, t.ch c = s.ch c
  split : t.split = s.split
  ctrlLoc : t.ctrlLoc = s.ctrlLoc
  borrowedBy : t.borrowedBy = s.borrowedBy
  borrowDepth : t.borrowDepth = s.borrowDepth
  primask : t.primask = s.primask
  isrActive : t.isrActive = s.isrActive
  hold : ∀ x, (t.ctxOf x).hold = (s.ctxOf x).hold
  csStack : ∀ x, (t.ctxOf x).csStack = (s.ctxOf x).csStack

theorem sameBlock_refl (s : State) : SameBlock s s := by constructor <;> simp

theorem sameBlock_withFault (s : State) (r : FaultRecord) : SameBlock s (s.withFault r) := by
  constructor <;> simp

theorem sameBlock_latchPending (s : State) : SameBlock s (latchPending s) := by
  constructor <;> simp

theorem sameBlock_dropPick (s : State) : SameBlock s (dropPick s) := by
  constructor <;> simp

theorem sameBlock_log (s : State) (l : List Event) : SameBlock s { s with log := l } :=
  ⟨fun _ => rfl, rfl, rfl, rfl, rfl, rfl, rfl, fun x => by cases x <;> rfl,
    fun x => by cases x <;> rfl⟩

theorem sameBlock_store (s : State) (m : Memory) (d : Nat) :
    SameBlock s { s with mem := m, drawIdx := d } :=
  ⟨fun _ => rfl, rfl, rfl, rfl, rfl, rfl, rfl, fun x => by cases x <;> rfl,
    fun x => by cases x <;> rfl⟩

theorem SameBlock.ctx {s t : State} (h : SameBlock s t) : t.ctx = s.ctx := ctx_congr h.isrActive

theorem SameBlock.advance {s t : State} (h : SameBlock s t) (k : Nat) :
    SameBlock s (t.advance k) := by
  constructor <;> simp [h.ch, h.split, h.ctrlLoc, h.borrowedBy, h.borrowDepth, h.primask,
    h.isrActive, h.hold, h.csStack]

theorem SameBlock.setRes {s t : State} (h : SameBlock s t) (v : Word) :
    SameBlock s (t.setRes v) := by
  constructor <;> simp [h.ch, h.split, h.ctrlLoc, h.borrowedBy, h.borrowDepth, h.primask,
    h.isrActive, h.hold, h.csStack]

theorem SameBlock.setCh {s t : State} (h : SameBlock s t) (c : Chan) (x : Channel) :
    SameBlock (s.setCh c x) (t.setCh c x) :=
  ⟨fun c' => by rw [ch_setCh, ch_setCh, h.ch], h.split, h.ctrlLoc, h.borrowedBy, h.borrowDepth,
    h.primask, h.isrActive, h.hold, h.csStack⟩

theorem SameBlock.setHold {s t : State} (h : SameBlock s t) (k : Option Hold) :
    SameBlock (s.setHold k) (t.setHold k) := by
  constructor <;> simp [h.ch, h.split, h.ctrlLoc, h.borrowedBy, h.borrowDepth, h.primask,
    h.isrActive, h.hold, h.csStack, h.ctx]

/-- R45 (f) and its counterpart, said of the context that does not run (R222 b). -/
theorem handlerInv_iff (s : State) :
    handlerInv s ↔
      (∀ x, x ≠ s.ctx → (s.ctxOf x).csStack = [] ∧ s.borrowedBy ≠ some x)
        ∧ (s.isrActive = none → s.isr.hold = none) := by
  have hctx : ∀ P : Ctx → Prop, (∀ x, P x) ↔ P .main ∧ P .isr :=
    fun P => ⟨fun h => ⟨h _, h _⟩, fun h x => by cases x; exacts [h.1, h.2]⟩
  rw [hctx]
  cases h : s.isrActive
  · simp [handlerInv, State.ctx, h]
    tauto
  · simp [handlerInv, State.ctx, h]

theorem blockInv_congr {s t : State} (e : SameBlock s t) (h : blockInv s) : blockInv t := by
  obtain ⟨hch, hborrow, hmask, hhandler, hhold, hsplit⟩ := h
  have hisr := e.hold .isr
  refine ⟨fun c => ?_, fun x hx => ?_, fun x => ?_, ?_, fun x k hk => ?_, fun hs c => ?_⟩
  · rw [e.ch]
    exact hch c
  · rw [e.borrowedBy] at hx
    rw [e.borrowDepth, e.csStack]
    exact hborrow x hx
  · rw [e.csStack, e.primask]
    exact hmask x
  · rw [handlerInv_iff] at hhandler ⊢
    simp only [ctxOf_isr] at hisr
    simpa only [e.csStack, e.borrowedBy, e.isrActive, e.ctx, hisr] using hhandler
  · rw [e.hold] at hk
    rw [owner_congr e.ctrlLoc e.borrowedBy, e.split, e.ch]
    exact hhold x k hk
  · rw [e.split] at hs
    rw [e.ch]
    exact hsplit hs c

/-! ## Writes of a channel -/

/-- An update of a channel that keeps its tag and, if they hold, its invariants. -/
def KeepsChannel (ch x : Channel) : Prop :=
  x.status = ch.status ∧ (channelInv ch → channelInv x)

theorem setCh_status_of_keeps {s : State} {d : Chan} {x : Channel} (hx : KeepsChannel (s.ch d) x)
    (c : Chan) : ((s.setCh d x).ch c).status = (s.ch c).status := by
  rw [ch_setCh]
  split
  next e => rw [e, hx.1]
  · rfl

theorem blockInv_setCh_keeps {s : State} {c : Chan} {x : Channel} (h : blockInv s)
    (hx : KeepsChannel (s.ch c) x) : blockInv (s.setCh c x) := by
  obtain ⟨hch, hborrow, hmask, hhandler, hhold, hsplit⟩ := h
  have htag := setCh_status_of_keeps hx
  refine ⟨fun c' => ?_, hborrow, hmask, hhandler, fun y k hk => ?_, fun hs c' => ?_⟩
  · rw [ch_setCh]
    split
    · exact hx.2 (hch c)
    · exact hch c'
  · rw [htag]
    exact hhold y k hk
  · rw [htag]
    exact hsplit hs c'

/-- Once the controller is split, a channel may change its tag while no context is held. -/
theorem blockInv_setCh_retag {s : State} {c : Chan} {x : Channel} (h : blockInv s)
    (hs : s.split = true) (hfree : ∀ y, (s.ctxOf y).hold = none) (hx : channelInv x) :
    blockInv (s.setCh c x) := by
  obtain ⟨hch, hborrow, hmask, hhandler, _, _⟩ := h
  refine ⟨fun c' => ?_, hborrow, hmask, hhandler, fun y k hk => ?_, fun hs' c' => ?_⟩
  · rw [ch_setCh]
    split
    · exact hx
    · exact hch c'
  · rw [setCh_ctxOf, hfree y] at hk
    cases hk
  · rw [setCh_split, hs] at hs'
    cases hs'

/-! ## Holds -/

/-- The controller has one owner (R225, R226). -/
theorem owner_unique {s : State} {x y : Ctx} (hx : owner s x = true) (hy : owner s y = true) :
    x = y := by
  rw [owner_iff] at hx hy
  rcases hx with ⟨rfl, hl⟩ | ⟨hl, hb⟩ <;> rcases hy with ⟨rfl, hl'⟩ | ⟨hl', hb'⟩
  · rfl
  · rw [hl] at hl'; cases hl'
  · rw [hl] at hl'; cases hl'
  · rw [hb] at hb'
    exact Option.some.inj hb'

/-- While the running context owns the controller, the other is not held. -/
theorem hold_none_of_owner {s : State} (h : holdInv s) (ho : owner s s.ctx = true) {y : Ctx}
    (hy : y ≠ s.ctx) : (s.ctxOf y).hold = none := by
  rw [Option.eq_none_iff_forall_not_mem]
  intro k hk
  obtain ⟨hoy, _, _⟩ := h y k hk
  exact hy (owner_unique hoy ho)

/-- Ending or starting a hold, for a hold that meets its invariant. -/
theorem blockInv_setHold {s : State} {k : Option Hold} (h : blockInv s)
    (hk : ∀ k', k = some k' →
      owner s s.ctx = true ∧ s.split = true ∧ (s.ch (holdTag k').1).status = (holdTag k').2) :
    blockInv (s.setHold k) := by
  obtain ⟨hch, hborrow, hmask, hhandler, hhold, hsplit⟩ := h
  refine ⟨fun c => ?_, fun x hx => ?_, fun x => ?_, ?_, fun x k' hx => ?_, fun hs c => ?_⟩
  · rw [setHold_ch]
    exact hch c
  · rw [setHold_borrowedBy] at hx
    rw [setHold_borrowDepth, setHold_ctxOf_csStack]
    exact hborrow x hx
  · rw [setHold_ctxOf_csStack, setHold_primask]
    exact hmask x
  · rw [handlerInv_iff] at hhandler ⊢
    simp only [setHold_ctxOf_csStack, setHold_borrowedBy, setHold_isrActive, setHold_ctx]
    refine ⟨hhandler.1, fun hn => ?_⟩
    have hmain : Ctx.isr ≠ s.ctx := by simp [State.ctx, hn]
    rw [← ctxOf_isr, setHold_ctxOf_ne s k hmain]
    exact hhandler.2 hn
  · have ho : owner (s.setHold k) x = owner s x := owner_congr (by simp) (by simp) x
    rw [setHold_ctxOf_hold] at hx
    rw [ho, setHold_split, setHold_ch]
    split at hx
    · next e => rw [e]; exact hk k' hx
    · exact hhold x k' hx
  · rw [setHold_split] at hs
    rw [setHold_ch]
    exact hsplit hs c

theorem setCh_setHold (s : State) (c : Chan) (x : Channel) (k : Option Hold) :
    (s.setCh c x).setHold k = (s.setHold k).setCh c x := by
  cases h : s.isrActive <;>
    simp [State.setHold, State.setCtx, State.setCh, State.ctx, State.cur, State.ctxOf, h]

/-! ## The channel invariants under the channel's operations -/

theorem quiet_not_enabled {ch : Channel} (hq : quiet ch) (he : ch.enable = true) : False := by
  rw [hq.1] at he
  cases he

/-- An enabled channel is Busy (R45 a). -/
theorem busy_of_enabled {ch : Channel} (h : channelInv ch) (he : ch.enable = true) :
    ch.status = .busy := by
  obtain ⟨hq, _⟩ := h
  by_contra hb
  exact quiet_not_enabled (hq hb) he

/-- Only an enabled channel is suspended or disabling. -/
theorem enabled_of_active {ch : Channel} (h : channelInv ch)
    (ha : ch.suspended = true ∨ ch.disableReq = true) : ch.enable = true := by
  obtain ⟨_, _, hq, _⟩ := h
  by_contra he
  obtain ⟨_, _, hd, hs, _⟩ := hq (by simpa using he)
  simp [hd, hs] at ha

theorem quiet_stopChannel (ch : Channel) : quiet (stopChannel ch) := by
  simp [quiet, stopChannel]

/-- Stopping a Busy channel (R241). -/
theorem channelInv_stopChannel {ch : Channel} (hb : ch.status = .busy)
    (hd : ch.bound = true → ch.dCnt ≠ 0) : channelInv (stopChannel ch) := by
  refine ⟨fun _ => quiet_stopChannel ch, ⟨Nat.le_refl _, Nat.zero_le _⟩,
    fun _ => quiet_stopChannel ch, hd, fun _ h => ?_⟩
  rcases h with h | h
  · exact absurd hb h
  · cases h

/-- A trigger releases no more beats than remain (R244). -/
theorem releaseBeats_le (p : Params) {ch : Channel} (hr : ch.rem ≠ 0) :
    (releaseBeats p ch).toNat ≤ ch.rem.toNat := by
  have hpos : ch.rem.toNat ≠ 0 := fun e => hr (BitVec.eq_of_toNat_eq e)
  rw [toNat_releaseBeats]
  split <;> omega

/-- A Busy, enabled channel with beats remaining: only its counts can break an invariant. -/
theorem channelInv_of_enabled {ch : Channel} (hb : ch.status = .busy) (he : ch.enable = true)
    (hd : ch.bound = true → ch.dCnt ≠ 0) (hr : ch.rem ≠ 0)
    (hla : ch.burstLeft.toNat ≤ ch.auth.toNat) (har : ch.auth.toNat ≤ ch.rem.toNat) :
    channelInv ch :=
  ⟨fun hn => absurd hb hn, ⟨hla, har⟩, fun hn => absurd he (by simp [hn]), hd, fun _ _ => hr⟩

/-- A trigger of an enabled channel (R241, R244): it stops the channel, releases beats or is
held. -/
theorem keepsChannel_triggerChannel (p : Params) {ch : Channel} (he : ch.enable = true) :
    KeepsChannel ch (triggerChannel p ch) := by
  refine ⟨triggerChannel_status p ch, fun h => ?_⟩
  have hb := busy_of_enabled h he
  obtain ⟨_, ⟨hla, har⟩, _, hd, hrem⟩ := h
  unfold triggerChannel
  split
  · exact channelInv_stopChannel hb hd
  next hbound =>
  have hr : ch.rem ≠ 0 := hrem (by simpa using hbound) (.inr he)
  split
  next ha =>
    rw [ha] at hla
    exact channelInv_of_enabled hb he hd hr (Nat.le_trans hla (Nat.zero_le _))
      (releaseBeats_le p hr)
  · exact channelInv_of_enabled hb he hd hr hla har

/-- The burst at a beat is not empty and is within the released beats (R245). -/
theorem burstAtBeat_bounds (p : Params) {ch : Channel} (ha : ch.auth ≠ 0)
    (hla : ch.burstLeft.toNat ≤ ch.auth.toNat) :
    1 ≤ (burstAtBeat p ch).toNat ∧ (burstAtBeat p ch).toNat ≤ ch.auth.toNat := by
  have hpos : ch.auth.toNat ≠ 0 := fun e => ha (BitVec.eq_of_toNat_eq e)
  have := burstBeats_bounds p ch
  rw [toNat_burstAtBeat]
  split
  · omega
  next hl =>
    have : ch.burstLeft.toNat ≠ 0 := fun e => hl (BitVec.eq_of_toNat_eq e)
    omega

/-- Counting down a bit vector that is not 0. -/
theorem toNat_sub_one {n : Nat} (x : BitVec (n + 1)) (h : 1 ≤ x.toNat) :
    (x - 1).toNat = x.toNat - 1 := by
  have hle : (1 : BitVec (n + 1)) ≤ x := by
    rw [BitVec.le_def]
    simpa using h
  rw [BitVec.toNat_sub_of_le hle]
  simp

/-- A beat of an enabled channel (R245, R247, R248): the counts go down together. -/
theorem keepsChannel_afterBeat (p : Params) {ch : Channel} (he : ch.enable = true)
    (ha : ch.auth ≠ 0) : KeepsChannel ch (afterBeat p ch) := by
  refine ⟨afterBeat_status p ch, fun h => ?_⟩
  have hb := busy_of_enabled h he
  obtain ⟨_, ⟨hla, har⟩, _, hd, _⟩ := h
  obtain ⟨hl1, hla'⟩ := burstAtBeat_bounds p ha hla
  have hburst : (burstAtBeat p ch - 1).toNat = (burstAtBeat p ch).toNat - 1 := toNat_sub_one _ hl1
  have hauth : (ch.auth - 1).toNat = ch.auth.toNat - 1 := toNat_sub_one _ (by omega)
  have hcount : (ch.rem - 1).toNat = ch.rem.toNat - 1 := toNat_sub_one _ (by omega)
  unfold afterBeat
  dsimp only
  split
  · exact channelInv_stopChannel hb hd
  next hr =>
  split
  next hq =>
    have hz : (ch.auth - 1).toNat = 0 := by rw [hq.1]; rfl
    refine channelInv_of_enabled hb he hd hr ?_ (releaseBeats_le p hr)
    show (burstAtBeat p ch - 1).toNat ≤ _
    omega
  · refine channelInv_of_enabled hb he hd hr ?_ ?_
    · show (burstAtBeat p ch - 1).toNat ≤ (ch.auth - 1).toNat
      omega
    · show (ch.auth - 1).toNat ≤ (ch.rem - 1).toNat
      omega

/-! ## The engine steps -/

theorem enable_of_takesTriggers {ch : Channel} (h : takesTriggers ch = true) :
    ch.enable = true := by
  simp only [takesTriggers, Bool.and_eq_true] at h
  obtain ⟨⟨he, _⟩, _⟩ := h
  exact he

theorem enable_of_swtEnabled {s : State} {c : Chan} (h : swtEnabled s c = true) :
    (s.ch c).enable = true := by
  simp only [swtEnabled, Bool.and_eq_true] at h
  obtain ⟨⟨_, ht⟩, _⟩ := h
  exact enable_of_takesTriggers ht

theorem enable_of_ptrigEnabled {s : State} {c : Chan} (h : ptrigEnabled s c = true) :
    (s.ch c).enable = true := by
  simp only [ptrigEnabled, Bool.and_eq_true] at h
  obtain ⟨⟨_, ht⟩, _⟩ := h
  exact enable_of_takesTriggers ht

theorem enable_of_errEnabled {s : State} {c : Chan} (h : errEnabled s c = true) :
    (s.ch c).enable = true := by
  simp only [errEnabled, Bool.and_eq_true] at h
  obtain ⟨⟨_, he⟩, _⟩ := h
  exact he

theorem enable_of_suspEnabled {s : State} {c : Chan} (h : suspEnabled s c = true) :
    (s.ch c).enable = true := by
  simp only [suspEnabled, Bool.and_eq_true] at h
  obtain ⟨⟨_, ht⟩, _⟩ := h
  exact enable_of_takesTriggers ht

theorem disableReq_of_dackEnabled {s : State} {c : Chan} (h : dackEnabled s c = true) :
    (s.ch c).disableReq = true := by
  simp only [dackEnabled, Bool.and_eq_true] at h
  obtain ⟨⟨_, hd⟩, _⟩ := h
  exact hd

theorem keepsChannel_resetChannel (ch : Channel) : KeepsChannel ch (resetChannel ch) :=
  ⟨rfl, fun _ => by simp [resetChannel_eq, channelInv, quiet, channelAtReset]⟩

theorem keepsChannel_failChannel {ch : Channel} (he : ch.enable = true) :
    KeepsChannel ch (failChannel ch) := by
  refine ⟨rfl, fun h => ?_⟩
  have hb := busy_of_enabled h he
  obtain ⟨_, _, _, hcnt, _⟩ := h
  exact channelInv_stopChannel hb hcnt

/-- The acknowledged disable (R252): a disabling channel is Busy, so its beats need not remain. -/
theorem keepsChannel_stopChannel {ch : Channel} (hd : ch.disableReq = true) :
    KeepsChannel ch (stopChannel ch) := by
  refine ⟨rfl, fun h => ?_⟩
  have hb := busy_of_enabled h (enabled_of_active h (.inr hd))
  obtain ⟨_, _, _, hcnt, _⟩ := h
  exact channelInv_stopChannel hb hcnt

/-- An update of an enabled channel, which is Busy, that touches neither the counts nor what is
bound (suspending, disabling, the software trigger). -/
theorem keepsChannel_of_enabled {ch x : Channel} (he : ch.enable = true)
    (htag : x.status = ch.status) (hx : x.enable = true)
    (hcount : x.burstLeft = ch.burstLeft ∧ x.auth = ch.auth ∧ x.rem = ch.rem)
    (hdesc : x.bound = ch.bound ∧ x.dCnt = ch.dCnt) : KeepsChannel ch x := by
  refine ⟨htag, fun h => ?_⟩
  have hb : x.status = .busy := htag.trans (busy_of_enabled h he)
  obtain ⟨_, hle, _, hcnt, hrem⟩ := h
  obtain ⟨hl, ha, hr⟩ := hcount
  obtain ⟨hbound, hd⟩ := hdesc
  refine ⟨fun hn => absurd hb hn, by rwa [hl, ha, hr], fun hn => absurd hx (by simp [hn]), ?_, ?_⟩
  · rwa [hbound, hd]
  · rw [hbound, hr]
    exact fun hbd _ => hrem hbd (.inr he)

/-- Taking the software trigger (R242). -/
theorem keepsChannel_softwareTrigger (p : Params) {ch : Channel} (he : ch.enable = true) :
    KeepsChannel ch (triggerChannel p { ch with swtrig := false }) := by
  have hk : KeepsChannel { ch with swtrig := false }
      (triggerChannel p { ch with swtrig := false }) := keepsChannel_triggerChannel p he
  have hc : KeepsChannel ch { ch with swtrig := false } :=
    keepsChannel_of_enabled he rfl he ⟨rfl, rfl, rfl⟩ ⟨rfl, rfl⟩
  exact ⟨hk.1, fun h => hk.2 (hc.2 h)⟩

/-- A beat writes its channel in a way that keeps the invariants, and nothing else that they
read. -/
theorem engineBeat_keepsChannel {s : State} {c : Chan} (h : beatEnabled s c = true) :
    ∃ x, KeepsChannel (s.ch c) x ∧ SameBlock (s.setCh c x) (engineBeat s c) := by
  obtain ⟨_, he, _, ha⟩ := beatEnabled_channel h
  unfold engineBeat
  dsimp only
  split
  · exact ⟨_, keepsChannel_failChannel he, sameBlock_refl _⟩
  split
  · refine ⟨s.ch c, ⟨rfl, id⟩, ?_⟩
    rw [setCh_self]
    exact sameBlock_withFault s _
  · exact ⟨_, keepsChannel_afterBeat _ he ha, sameBlock_store _ _ _⟩

/-- Every enabled engine step keeps the invariants: it writes its channel in a way that does, and
changes nothing else that they read (R256). -/
theorem engine_keepsChannel {s u : State} {c : Chan} {p : Pick} (hp : p ∈ enginePicks c)
    (he : pickEnabled s p = true) (hu : pickEffect s p = .next u) :
    ∃ x, KeepsChannel (s.ch c) x ∧ SameBlock (s.setCh c x) u := by
  simp only [enginePicks, List.mem_cons, List.not_mem_nil, or_false] at hp
  simp only [pickEnabled, Bool.and_eq_true] at he
  obtain ⟨_, he⟩ := he
  rcases hp with rfl | rfl | rfl | rfl | rfl | rfl | rfl <;> cases hu
  · exact ⟨_, keepsChannel_resetChannel _, sameBlock_refl _⟩
  · exact ⟨_, keepsChannel_softwareTrigger _ (enable_of_swtEnabled he), sameBlock_refl _⟩
  · exact ⟨_, keepsChannel_triggerChannel _ (enable_of_ptrigEnabled he), sameBlock_refl _⟩
  · exact engineBeat_keepsChannel he
  · exact ⟨_, keepsChannel_failChannel (enable_of_errEnabled he), sameBlock_refl _⟩
  · have hen := enable_of_suspEnabled he
    exact ⟨{ setFlags (s.ch c) flagSusp with suspended := true },
      keepsChannel_of_enabled hen rfl hen ⟨rfl, rfl, rfl⟩ ⟨rfl, rfl⟩, sameBlock_refl _⟩
  · exact ⟨_, keepsChannel_stopChannel (disableReq_of_dackEnabled he), sameBlock_refl _⟩

/-! ## The commands' channel updates -/

/-- BIND of a Ready channel with at least one beat (R170). -/
theorem keepsChannel_bindChannel {ch : Channel} {d : Descriptor} (ht : ch.status = .ready)
    (hd : d.cnt ≠ 0) : KeepsChannel ch (bindChannel ch d) := by
  refine ⟨rfl, fun h => ?_⟩
  obtain ⟨hq, _, _, _, _⟩ := h
  have hquiet : quiet ch := hq (by rw [ht]; decide)
  have ⟨_, _, _, _, ha, hl, _⟩ := hquiet
  refine ⟨fun _ => hquiet, ⟨?_, ?_⟩, fun _ => hquiet, fun _ => hd, fun _ _ => hd⟩
  · show ch.burstLeft.toNat ≤ ch.auth.toNat
    rw [hl]
    exact Nat.zero_le _
  · show ch.auth.toNat ≤ d.cnt.toNat
    rw [ha]
    exact Nat.zero_le _

/-- A legal descriptor has at least one beat (R100). -/
theorem descriptorOf_cnt_ne_zero {src dst cnt ctl : Word} {d : Descriptor}
    (h : descriptorOf src dst cnt ctl = some d) : d.cnt ≠ 0 := by
  unfold descriptorOf at h
  split at h
  · cases h
  next hn =>
    split at h
    · cases h
    · cases h
      exact fun e => hn (.inr (.inl e))

/-- FREE's request (R141). -/
theorem keepsChannel_requestDisable (ch : Channel) : KeepsChannel ch (requestDisable ch) := by
  unfold requestDisable
  split
  next he => exact keepsChannel_of_enabled he rfl he ⟨rfl, rfl, rfl⟩ ⟨rfl, rfl⟩
  · exact ⟨rfl, id⟩

/-- RESTART of a Busy channel (R146, R150): it resumes, re-runs its descriptor, or is unchanged. -/
theorem keepsChannel_restartChannel {ch : Channel} (hb : ch.status = .busy) :
    KeepsChannel ch (restartChannel ch) := by
  unfold restartChannel
  split
  next hs =>
    refine ⟨rfl, fun h => ?_⟩
    have he : ch.enable = true := enabled_of_active h (.inl hs)
    have hk : KeepsChannel ch { ch with suspended := false } :=
      keepsChannel_of_enabled he rfl he ⟨rfl, rfl, rfl⟩ ⟨rfl, rfl⟩
    exact hk.2 h
  split
  next he =>
    split
    next hbound =>
      refine ⟨rfl, fun h => ?_⟩
      obtain ⟨_, _, hq, hcnt, _⟩ := h
      obtain ⟨_, _, _, _, ha, hl, _⟩ := hq he
      refine channelInv_of_enabled hb rfl hcnt (hcnt hbound) ?_ ?_
      · show ch.burstLeft.toNat ≤ _
        rw [hl]
        exact Nat.zero_le _
      · show ch.auth.toNat ≤ _
        rw [ha]
        exact Nat.zero_le _
    next hbound =>
      refine ⟨rfl, fun h => ?_⟩
      obtain ⟨_, hle, _, hcnt, _⟩ := h
      exact ⟨fun hn => absurd hb hn, hle, fun hn => Bool.noConfusion hn, hcnt,
        fun h' => absurd h' hbound⟩
  · exact ⟨rfl, id⟩

/-- START of a Ready channel (R134). -/
theorem channelInv_startChannel {ch : Channel} (src : BitVec 7) (act : TrigAct)
    (ht : ch.status = .ready) (h : channelInv ch) : channelInv (startChannel ch src act) := by
  obtain ⟨_, hle, _, hcnt, hrem⟩ := h
  exact ⟨fun hn => absurd rfl hn, hle, fun hn => Bool.noConfusion hn, hcnt,
    fun hb _ => hrem hb (.inl (by rw [ht]; decide))⟩

/-! ## What a command can do to the block -/

/-- The effect of a command's issue step on what the invariants read: the channel it writes keeping
the tag, the hold it starts, START's and SPLIT's change of a tag, or one of the registry's
updates. -/
inductive IssueEffect : Instr → State → State → Prop
  | same (i : Instr) (s : State) : IssueEffect i s s
  | channel (i : Instr) {s : State} {c : Chan} {x : Channel} (hx : KeepsChannel (s.ch c) x) :
      IssueEffect i s (s.setCh c x)
  | hold (i : Instr) {s : State} {x : Channel} (k : Hold) (hx : KeepsChannel (s.ch (holdTag k).1) x)
      (ho : owner s s.ctx = true) (hs : s.split = true)
      (ht : (s.ch (holdTag k).1).status = (holdTag k).2) :
      IssueEffect i s ((s.setCh (holdTag k).1 x).setHold (some k))
  | start {s : State} {c : Chan} {src : BitVec 7} {bits : BitVec 2} {act : TrigAct}
      (ho : owner s s.ctx = true) (hs : s.split = true) (ht : (s.ch c).status = .ready) :
      IssueEffect (.start c src bits) s (s.setCh c (startChannel (s.ch c) src act))
  | split {s : State} (hs : s.split = false) :
      IssueEffect .split s { s with split := true, chans := splitChannels s.params s.chans }
  | csenter (s : State) :
      IssueEffect .csenter s { s.setCsStack (s.cur.csStack ++ [s.primask]) with primask := true }
  | csexit {s : State} {saved : Bool} (hl : s.cur.csStack.getLast? = some saved)
      (hb : ¬ (s.borrowedBy = some s.ctx ∧ s.cur.csStack.length = s.borrowDepth)) :
      IssueEffect .csexit s { s.setCsStack s.cur.csStack.dropLast with primask := saved }
  | cellput {s : State} (hx : s.ctx = .main) (hl : s.ctrlLoc = .main) :
      IssueEffect .cellput s { s with ctrlLoc := .cell }
  | cellborrow {s : State} (hcs : s.cur.csStack ≠ []) (hl : s.ctrlLoc = .cell)
      (hb : s.borrowedBy = none) :
      IssueEffect .cellborrow s
        { s with borrowedBy := some s.ctx, borrowDepth := s.cur.csStack.length }
  | cellrelease {s : State} (hb : s.borrowedBy = some s.ctx) :
      IssueEffect .cellrelease s { s with borrowedBy := none, borrowDepth := 0 }
  | iret {s : State} (hx : s.ctx = .isr) (hb : s.borrowedBy ≠ some .isr)
      (hcs : s.isr.csStack = []) : IssueEffect .iret s (returnFromInterrupt s)

/-- The command has an effect of `IssueEffect`, up to what the invariants do not read. -/
def Issues (i : Instr) (s t : State) : Prop := ∃ u, IssueEffect i s u ∧ SameBlock u t

theorem issues_withFault (i : Instr) (s : State) (r : FaultRecord) : Issues i s (s.withFault r) :=
  ⟨s, .same i s, sameBlock_withFault s r⟩

theorem issues_raise {i : Instr} {s t : State} {code : FaultCode} {w : Word}
    (h : raise s code w = .next t) : Issues i s t := by
  cases h
  exact issues_withFault i s _

theorem issues_onChannel {i : Instr} {s t : State} {w : Word} {c : Chan} {allowed : Status → Bool}
    {k : StepResult} (h : onChannel s w c allowed k = .next t)
    (hk : owner s s.ctx = true → s.split = true → allowed (s.ch c).status = true → k = .next t →
      Issues i s t) : Issues i s t := by
  rcases onChannel_cases h with ⟨r, rfl⟩ | ⟨_, ho, hs, ha, e⟩
  · exact issues_withFault i s r
  · exact hk ho hs ha e

/-- A command that only writes its channel, its log and the running context. -/
theorem issues_channel {i : Instr} {s t : State} {c : Chan} {x : Channel}
    (h : SameBlock (s.setCh c x) t) (hx : KeepsChannel (s.ch c) x) : Issues i s t :=
  ⟨_, .channel i hx, h⟩

/-- The software reset that INIT and RESET issue (R121, R125). -/
theorem issues_reset {i : Instr} {s : State} {c : Chan} {k : Hold} (hc : (holdTag k).1 = c)
    (ho : owner s s.ctx = true) (hs : s.split = true) (ht : (s.ch c).status = (holdTag k).2) :
    Issues i s (issueReset s c k) := by
  subst hc
  have hx : KeepsChannel (s.ch (holdTag k).1) { s.ch (holdTag k).1 with swrst := true } := ⟨rfl, id⟩
  exact ⟨_, .hold i k hx ho hs ht, ((sameBlock_log s _).setCh _ _).setHold _⟩

theorem sameBlock_logStart (s : State) (c : Chan) (src : BitVec 7) (act : TrigAct) :
    SameBlock s (logStart s c src act) := by
  unfold logStart
  dsimp only
  split
  · exact sameBlock_log s _
  · exact sameBlock_log s _

/-- What the issue step of any command does to the block. -/
theorem exec_issues {i : Instr} {s t : State} (h : exec i s = .next t) : Issues i s t := by
  cases i <;> simp only [exec] at h
  case split =>
    unfold execSplit at h
    split at h
    · exact issues_raise h
    split at h <;> cases h
    next hs => exact ⟨_, .split hs, (sameBlock_refl _).advance 1⟩
    next => exact ⟨_, .same _ s, (sameBlock_refl s).advance 1⟩
  case init c lvl =>
    refine issues_onChannel h fun ho hs ht e => ?_
    cases e
    exact issues_reset rfl ho hs (of_decide_eq_true ht)
  case reset c =>
    refine issues_onChannel h fun ho hs ht e => ?_
    cases e
    exact issues_reset rfl ho hs (of_decide_eq_true ht)
  case setburst c blen =>
    unfold execSetburst at h
    dsimp only at h
    split at h
    · exact issues_raise h
    · refine issues_onChannel h fun _ _ _ e => ?_
      cases e
      exact issues_channel (((sameBlock_log s _).setCh _ _).advance 1) ⟨rfl, id⟩
  case setthr c thr =>
    unfold execSetthr at h
    dsimp only at h
    split at h
    · exact issues_raise h
    · refine issues_onChannel h fun _ _ _ e => ?_
      cases e
      exact issues_channel (((sameBlock_log s _).setCh _ _).advance 1) ⟨rfl, id⟩
  case start c src bits =>
    unfold execStart at h
    dsimp only at h
    split at h
    · exact issues_raise h
    · refine issues_onChannel h fun ho hs ht e => ?_
      cases e
      exact ⟨_, .start ho hs (of_decide_eq_true ht),
        ((sameBlock_logStart s _ _ _).setCh _ _).advance 1⟩
  case xferdone c =>
    refine issues_onChannel h fun _ _ _ e => ?_
    cases e
    exact ⟨s, .same _ s, ((sameBlock_log s _).setRes _).advance 1⟩
  case free c =>
    refine issues_onChannel h fun ho hs ht e => ?_
    cases e
    exact ⟨_, .hold _ (.freeWait c) (keepsChannel_requestDisable _) ho hs (of_decide_eq_true ht),
      ((sameBlock_log s _).setCh _ _).setHold _⟩
  case restart c =>
    refine issues_onChannel h fun _ _ ht e => ?_
    cases e
    exact issues_channel (((sameBlock_log s _).setCh _ _).advance 1)
      (keepsChannel_restartChannel (of_decide_eq_true ht))
  case bind c src dst cnt ctl =>
    refine issues_onChannel h fun _ _ ht e => ?_
    split at e
    · exact issues_raise e
    next d hd =>
      split at e
      · exact issues_raise e
      · cases e
        exact issues_channel (((sameBlock_log s _).setCh _ _).advance 5)
          (keepsChannel_bindChannel (of_decide_eq_true ht) (descriptorOf_cnt_ne_zero hd))
  case wait c =>
    refine issues_onChannel h fun ho hs ht e => ?_
    split at e
    · exact issues_raise e
    · cases e
      refine ⟨_, .hold _ (x := s.ch c) (.waitPoll c) ⟨rfl, id⟩ ho hs (of_decide_eq_true ht), ?_⟩
      rw [show (holdTag (.waitPoll c)).1 = c from rfl, setCh_self]
      exact sameBlock_refl _
  case memrd =>
    unfold execMemrd at h
    dsimp only at h
    split at h
    · exact issues_raise h
    split at h
    · exact issues_raise h
    split at h
    · exact issues_raise h
    split at h
    · exact issues_raise h
    · cases h
      exact ⟨s, .same _ s, ((sameBlock_refl s).setRes _).advance 2⟩
  case memwr =>
    unfold execMemwr at h
    dsimp only at h
    split at h
    · exact issues_raise h
    split at h
    · exact issues_raise h
    split at h
    · exact issues_raise h
    split at h
    · exact issues_raise h
    · cases h
      exact ⟨s, .same _ s, (sameBlock_store s _ _).advance 3⟩
  case intenset c mask =>
    refine issues_onChannel h fun _ _ _ e => ?_
    cases e
    exact issues_channel (((sameBlock_log s _).setCh _ _).advance 1) ⟨rfl, id⟩
  case intenclr c mask =>
    refine issues_onChannel h fun _ _ _ e => ?_
    cases e
    exact issues_channel (((sameBlock_log s _).setCh _ _).advance 1) ⟨rfl, id⟩
  case chkclr c mask =>
    refine issues_onChannel h fun _ _ _ e => ?_
    cases e
    exact issues_channel ((((sameBlock_log s _).setCh _ _).setRes _).advance 1) ⟨rfl, id⟩
  case callback c =>
    refine issues_onChannel h fun _ _ _ e => ?_
    cases e
    split
    · exact issues_channel ((((sameBlock_log s _).setCh _ _).setRes _).advance 1) ⟨rfl, id⟩
    · exact ⟨s, .same _ s, ((sameBlock_log s _).setRes _).advance 1⟩
  case csenter =>
    cases h
    exact ⟨_, .csenter s, (sameBlock_refl _).advance 1⟩
  case csexit =>
    unfold execCsexit at h
    split at h
    · exact issues_raise h
    next saved hl =>
      split at h
      · exact issues_raise h
      next hb =>
        cases h
        exact ⟨_, .csexit hl hb, (sameBlock_refl _).advance 1⟩
  case cellput =>
    unfold execCellput at h
    split at h
    · exact issues_raise h
    split at h
    · exact issues_raise h
    next hx =>
      cases h
      simp only [ne_eq, not_or, not_not] at hx
      exact ⟨_, .cellput hx.1 hx.2, (sameBlock_refl _).advance 1⟩
  case cellborrow =>
    unfold execCellborrow at h
    split at h
    · exact issues_raise h
    next hcs =>
    split at h
    · exact issues_raise h
    next hl =>
    split at h
    · exact issues_raise h
    next hb =>
      cases h
      exact ⟨_, .cellborrow hcs (not_not.1 hl) (not_not.1 hb), (sameBlock_refl _).advance 1⟩
  case cellrelease =>
    unfold execCellrelease at h
    split at h
    · exact issues_raise h
    next hb =>
      cases h
      exact ⟨_, .cellrelease (not_not.1 hb), (sameBlock_refl _).advance 1⟩
  case iret =>
    unfold execIret at h
    split at h
    · exact issues_raise h
    next hx =>
    split at h
    · exact issues_raise h
    next hb =>
    split at h
    · exact issues_raise h
    next hcs =>
      cases h
      exact ⟨_, .iret (not_not.1 hx) hb (not_not.1 hcs), sameBlock_refl _⟩

/-! ## The registry's updates keep the invariants -/

@[simp] theorem ctxOf_primask (s : State) (m : Bool) (x : Ctx) :
    ({ s with primask := m } : State).ctxOf x = s.ctxOf x := by
  cases x <;> rfl

@[simp] theorem ctxOf_slot (s : State) (l : CtrlLoc) (b : Option Ctx) (d : Nat) (x : Ctx) :
    ({ s with ctrlLoc := l, borrowedBy := b, borrowDepth := d } : State).ctxOf x = s.ctxOf x := by
  cases x <;> rfl

/-- The running context opens or closes sections: its borrow stays inside an open section, the mask
is set while one is open, and every inner section saved a set mask. -/
theorem blockInv_setCsStack {s t : State} {l : List Bool} {m : Bool} (h : blockInv s)
    (ht : t = { s.setCsStack l with primask := m })
    (hborrow : s.borrowedBy = some s.ctx → s.borrowDepth ≤ l.length)
    (hmask : l ≠ [] → m = true) (htail : ∀ b ∈ l.tail, b = true) : blockInv t := by
  obtain ⟨hch, hborrow', _, hhandler, hhold, hsplit⟩ := h
  rw [handlerInv_iff] at hhandler
  obtain ⟨hother, hisr⟩ := hhandler
  have ech : ∀ c, t.ch c = s.ch c := fun c => by rw [ht]; exact setCsStack_ch s l c
  have esplit : t.split = s.split := by simp [ht]
  have eloc : t.ctrlLoc = s.ctrlLoc := by simp [ht]
  have eby : t.borrowedBy = s.borrowedBy := by simp [ht]
  have edepth : t.borrowDepth = s.borrowDepth := by simp [ht]
  have eactive : t.isrActive = s.isrActive := by simp [ht]
  have ehold : ∀ x, (t.ctxOf x).hold = (s.ctxOf x).hold := fun x => by
    rw [ht, ctxOf_primask, setCsStack_ctxOf_hold]
  have estack : ∀ x, (t.ctxOf x).csStack = if x = s.ctx then l else (s.ctxOf x).csStack :=
    fun x => by rw [ht, ctxOf_primask, setCsStack_ctxOf_csStack]
  refine ⟨fun c => ?_, fun x hx => ?_, fun x => ?_,
    (handlerInv_iff t).2 ⟨fun x hx => ?_, fun hn => ?_⟩, fun x k hk => ?_, fun hs c => ?_⟩
  · rw [ech]
    exact hch c
  · rw [eby] at hx
    rw [edepth, estack]
    split
    next e => exact ⟨(hborrow' x hx).1, hborrow (e ▸ hx)⟩
    · exact hborrow' x hx
  · rw [estack]
    split
    · rw [ht]
      exact ⟨hmask, htail⟩
    next hx => simp [(hother x hx).1]
  · rw [ctx_congr eactive] at hx
    rw [estack, if_neg hx, eby]
    exact hother x hx
  · rw [eactive] at hn
    rw [← ctxOf_isr, ehold]
    exact hisr hn
  · rw [ehold] at hk
    rw [owner_congr eloc eby, esplit, ech]
    exact hhold x k hk
  · rw [esplit] at hs
    rw [ech]
    exact hsplit hs c

/-- The running context, which is not held, moves the controller or takes or ends its borrow: a held
context stays its owner. -/
theorem blockInv_slot {s : State} {l : CtrlLoc} {b : Option Ctx} {d : Nat} (h : blockInv s)
    (hh : s.cur.hold = none)
    (hb : ∀ x, b = some x → x = s.ctx ∧ 1 ≤ d ∧ d ≤ s.cur.csStack.length)
    (ho : ∀ x, x ≠ s.ctx → owner s x = true →
      owner { s with ctrlLoc := l, borrowedBy := b, borrowDepth := d } x = true) :
    blockInv { s with ctrlLoc := l, borrowedBy := b, borrowDepth := d } := by
  obtain ⟨hch, _, hmask, hhandler, hhold, hsplit⟩ := h
  rw [handlerInv_iff] at hhandler
  obtain ⟨hother, hisr⟩ := hhandler
  have hctx : ({ s with ctrlLoc := l, borrowedBy := b, borrowDepth := d } : State).ctx = s.ctx :=
    rfl
  refine ⟨hch, fun x hx => ?_, fun x => ?_, ?_, fun x k hk => ?_, hsplit⟩
  · obtain ⟨rfl, h1, h2⟩ := hb x hx
    rw [ctxOf_slot]
    exact ⟨h1, h2⟩
  · rw [ctxOf_slot]
    exact hmask x
  · rw [handlerInv_iff, hctx]
    refine ⟨fun x hx => ?_, hisr⟩
    rw [ctxOf_slot]
    exact ⟨(hother x hx).1, fun e => hx (hb x e).1⟩
  · rw [ctxOf_slot] at hk
    have hx : x ≠ s.ctx := by
      rintro rfl
      rw [show (s.ctxOf s.ctx).hold = none from hh] at hk
      cases hk
    obtain ⟨hox, hs, ht⟩ := hhold x k hk
    exact ⟨ho x hx hox, hs, ht⟩

/-- An interrupt is taken with the mask clear, so no section is open and no borrow is held
(R222). -/
theorem blockInv_takeInterrupt {s : State} {v : VecNum} (h : blockInv s)
    (he : entryEnabled s v = true) : blockInv (takeInterrupt s v) := by
  obtain ⟨hch, hborrow, hmask, hhandler, hhold, hsplit⟩ := h
  simp only [entryEnabled, Bool.and_eq_true, Option.isNone_iff_eq_none, Bool.not_eq_true'] at he
  obtain ⟨⟨⟨⟨hactive, hclear⟩, _⟩, _⟩, _⟩ := he
  obtain ⟨_, _, hbisr⟩ := hhandler.1 hactive
  have hmain : s.main.csStack = [] := by
    by_contra hne
    exact absurd ((hmask .main).1 hne) (by simp [hclear])
  have hbmain : s.borrowedBy ≠ some .main := by
    intro hb
    obtain ⟨h1, h2⟩ := hborrow .main hb
    simp only [ctxOf_main, hmain, List.length_nil] at h2
    omega
  refine ⟨hch, fun x hx => ?_, fun x => ?_, ⟨fun hn => (nomatch hn), fun _ => ⟨hmain, hbmain⟩⟩,
    fun x k hk => ?_, hsplit⟩
  · cases x
    · exact absurd hx hbmain
    · exact absurd hx hbisr
  · cases x <;> simp [hmain]
  · cases x
    · exact hhold .main k hk
    · cases hk

/-- The handler returns with its sections closed, its borrow released and no hold (R227). -/
theorem blockInv_returnFromInterrupt {s : State} (h : blockInv s) (hx : s.ctx = .isr)
    (hh : s.cur.hold = none) (hb : s.borrowedBy ≠ some .isr) (hcs : s.isr.csStack = []) :
    blockInv (returnFromInterrupt s) := by
  obtain ⟨hch, hborrow, hmask, _, hhold, hsplit⟩ := h
  have hh' : s.isr.hold = none := by rwa [State.cur, hx] at hh
  exact ⟨hch, hborrow, hmask, ⟨fun _ => ⟨hcs, hh', hb⟩, fun hn => absurd rfl hn⟩, hhold, hsplit⟩

/-- The first SPLIT finds every channel Uninitialized and leaves it so (R120). -/
theorem ch_split {s : State} (h : splitInv s) (hs : s.split = false) (c : Chan) :
    ({ s with split := true, chans := splitChannels s.params s.chans } : State).ch c = s.ch c := by
  rw [ch_splitChannels, ← h hs c]
  exact ite_self _

theorem blockInv_split {s : State} (h : blockInv s) (hs : s.split = false) :
    blockInv { s with split := true, chans := splitChannels s.params s.chans } := by
  obtain ⟨hch, hborrow, hmask, hhandler, hhold, hsplit⟩ := h
  refine ⟨fun c => ?_, fun x => ?_, fun x => ?_, hhandler, fun x k hk => ?_, fun hn => nomatch hn⟩
  · rw [ch_split hsplit hs]
    exact hch c
  · cases x
    · exact hborrow .main
    · exact hborrow .isr
  · cases x
    · exact hmask .main
    · exact hmask .isr
  · have hk' : (s.ctxOf x).hold = some k := by cases x <;> exact hk
    rw [(hhold x k hk').2.1] at hs
    cases hs

/-! ## Every issue step and every poll step keeps the invariants -/

theorem blockInv_of_issueEffect {i : Instr} {s u : State} (e : IssueEffect i s u) (h : blockInv s)
    (hh : s.cur.hold = none) : blockInv u := by
  have hchan := h.1
  obtain ⟨_, hborrow, hmask, hhandler, hhold, _⟩ := id h
  obtain ⟨hother, _⟩ := (handlerInv_iff s).1 hhandler
  cases e with
  | same => exact h
  | channel i hx => exact blockInv_setCh_keeps h hx
  | hold i k hx ho hs ht =>
    refine blockInv_setHold (blockInv_setCh_keeps h hx) fun k' e => ?_
    cases e
    exact ⟨ho, hs, by rw [ch_setCh_same, hx.1, ht]⟩
  | @start _ c src _ act ho hs ht =>
    refine blockInv_setCh_retag h hs (fun y => ?_) (channelInv_startChannel src act ht (hchan c))
    by_cases hy : y = s.ctx
    · rw [hy]
      exact hh
    · exact hold_none_of_owner hhold ho hy
  | split hs => exact blockInv_split h hs
  | csenter =>
    refine blockInv_setCsStack h rfl (fun hb => ?_) (fun _ => rfl) fun b hb => ?_
    · obtain ⟨_, hle⟩ := hborrow s.ctx hb
      rw [List.length_append]
      exact Nat.le_trans hle (Nat.le_add_right _ _)
    · obtain ⟨hset, htail⟩ := hmask s.ctx
      change ∀ b ∈ s.cur.csStack.tail, b = true at htail
      by_cases hn : s.cur.csStack = []
      · simp [hn] at hb
      · rw [List.tail_append_of_ne_nil hn, List.mem_append, List.mem_singleton] at hb
        rcases hb with hb | rfl
        · exact htail b hb
        · exact hset hn
  | @csexit _ saved hl hb =>
    have hpop : s.cur.csStack.dropLast ++ [saved] = s.cur.csStack :=
      List.dropLast_append_getLast? saved hl
    obtain ⟨_, htail⟩ := hmask s.ctx
    change ∀ b ∈ s.cur.csStack.tail, b = true at htail
    refine blockInv_setCsStack h rfl (fun hby => ?_) (fun hn => ?_) fun b hb' => ?_
    · obtain ⟨_, hle⟩ := hborrow s.ctx hby
      change s.borrowDepth ≤ s.cur.csStack.length at hle
      have hne : s.cur.csStack.length ≠ s.borrowDepth := fun e => hb ⟨hby, e⟩
      rw [List.length_dropLast]
      omega
    · rw [← hpop, List.tail_append_of_ne_nil hn] at htail
      exact htail saved (by simp)
    · have hmem : b ∈ (s.cur.csStack.dropLast ++ [saved]).tail := by
        rw [List.tail_append_of_ne_nil (by rintro e; simp [e] at hb')]
        exact List.mem_append_left _ hb'
      rw [hpop] at hmem
      exact htail b hmem
  | cellput hx hl =>
    refine blockInv_slot h hh (fun x hb => ?_) fun x hx' ho => ?_
    · by_cases hne : x = s.ctx
      · exact ⟨hne, by rw [← show _ = s.cur from congrArg s.ctxOf hne]; exact hborrow x hb⟩
      · exact absurd hb (hother x hne).2
    · rcases (owner_iff s x).1 ho with ⟨rfl, _⟩ | ⟨hc, _⟩
      · exact absurd hx.symm hx'
      · rw [hl] at hc
        cases hc
  | cellborrow hcs hl hb =>
    refine blockInv_slot h hh (fun x hx => ?_) fun x _ ho => ?_
    · cases hx
      exact ⟨rfl, List.length_pos_of_ne_nil hcs, Nat.le_refl _⟩
    · rcases (owner_iff s x).1 ho with ⟨_, hm⟩ | ⟨_, hx⟩
      · rw [hl] at hm
        cases hm
      · rw [hb] at hx
        cases hx
  | cellrelease hb =>
    refine blockInv_slot h hh (fun x hx => nomatch hx) fun x hx ho => ?_
    rcases (owner_iff s x).1 ho with hm | ⟨_, hx'⟩
    · exact (owner_iff _ x).2 (.inl hm)
    · rw [hb] at hx'
      exact absurd (Option.some.inj hx').symm hx
  | iret hx hb hcs => exact blockInv_returnFromInterrupt h hx hh hb hcs

/-- The effect of a poll step on what the invariants read: the context waits on, WAIT turns into
FREE, or the hold ends and its channel takes its next tag (R122, R126, R142, R173). -/
inductive PollEffect : Hold → State → State → Prop
  | waits (k : Hold) (s : State) : PollEffect k s s
  | waitToFree (c : Chan) (s : State) :
      PollEffect (.waitPoll c) s (s.setHold (some (.freeWait c)))
  | initEnds (c : Chan) (lvl : BitVec 2) (s : State) :
      PollEffect (.initWait c lvl) s
        ((s.setHold none).setCh c { s.ch c with prilvl := lvl, status := .ready })
  | resetEnds (c : Chan) (s : State) :
      PollEffect (.resetWait c) s
        ((s.setHold none).setCh c { s.ch c with status := .uninitialized })
  | freeEnds {c : Chan} {s : State} (he : (s.ch c).enable = false) :
      PollEffect (.freeWait c) s
        ((s.setHold none).setCh c { s.ch c with status := .ready, bound := false })

/-- Ending a hold after a write of a channel and the log. -/
theorem sameBlock_endHold {s t : State} (c : Chan) (x : Channel) (h : SameBlock s t) :
    SameBlock ((s.setHold none).setCh c x) (endHold (t.setCh c x)) := by
  rw [← setCh_setHold]
  exact ((h.setCh c x).setHold none).advance 1

/-- What the poll step of any hold does to the block. -/
theorem pollStep_effect (s : State) (k : Hold) :
    ∃ u, PollEffect k s u ∧ SameBlock u (pollStep s k) := by
  cases k with
  | initWait c lvl =>
    simp only [pollStep, pollInit]
    split
    · exact ⟨s, .waits _ s, sameBlock_log s _⟩
    · exact ⟨_, .initEnds c lvl s, sameBlock_endHold c _ (sameBlock_log s _)⟩
  | resetWait c =>
    simp only [pollStep, pollReset]
    split
    · exact ⟨s, .waits _ s, sameBlock_log s _⟩
    · exact ⟨_, .resetEnds c s, sameBlock_endHold c _ (sameBlock_log s _)⟩
  | freeWait c =>
    simp only [pollStep, pollFree]
    split
    · exact ⟨s, .waits _ s, sameBlock_log s _⟩
    next he =>
      exact ⟨_, .freeEnds (by simpa using he), sameBlock_endHold c _ (sameBlock_log s _)⟩
  | waitPoll c =>
    simp only [pollStep, pollWait]
    split
    · exact ⟨s, .waits _ s, sameBlock_log s _⟩
    · exact ⟨_, .waitToFree c s, (sameBlock_log s _).setHold _⟩

/-- A channel that is not Busy is at rest, so it may take another tag (R122, R126). -/
theorem channelInv_retag {ch : Channel} (tag : Status) (lvl : BitVec 2) (h : channelInv ch)
    (hn : ch.status ≠ .busy) : channelInv { ch with prilvl := lvl, status := tag } := by
  obtain ⟨hq, hle, hq', hcnt, hrem⟩ := h
  exact ⟨fun _ => hq hn, hle, hq', hcnt, fun hb _ => hrem hb (.inl hn)⟩

/-- The end of a hold changes its channel's tag while no context is held. -/
theorem blockInv_holdEnds {s : State} {k : Hold} {x : Channel} (h : blockInv s)
    (hk : s.cur.hold = some k) (hx : channelInv x) :
    blockInv ((s.setHold none).setCh (holdTag k).1 x) := by
  obtain ⟨_, _, _, _, hhold, _⟩ := id h
  obtain ⟨ho, hs, _⟩ := hhold s.ctx k hk
  refine blockInv_setCh_retag (blockInv_setHold h fun _ e => nomatch e) (by simpa using hs)
    (fun y => ?_) hx
  rw [setHold_ctxOf_hold]
  split
  · rfl
  next hy => exact hold_none_of_owner hhold ho hy

theorem blockInv_of_pollEffect {k : Hold} {s u : State} (e : PollEffect k s u) (h : blockInv s)
    (hk : s.cur.hold = some k) : blockInv u := by
  obtain ⟨hch, _, _, _, hhold, _⟩ := id h
  obtain ⟨ho, hs, ht⟩ := hhold s.ctx k hk
  cases e with
  | waits => exact h
  | waitToFree c =>
    refine blockInv_setHold h fun k' e => ?_
    cases e
    exact ⟨ho, hs, ht⟩
  | initEnds c lvl =>
    have htag : (s.ch c).status = .uninitialized := ht
    exact blockInv_holdEnds h hk (channelInv_retag .ready lvl (hch c) (by simp [htag]))
  | resetEnds c =>
    have htag : (s.ch c).status = .ready := ht
    exact blockInv_holdEnds h hk
      (channelInv_retag .uninitialized (s.ch c).prilvl (hch c) (by simp [htag]))
  | @freeEnds c _ he =>
    obtain ⟨_, hle, hq, _, _⟩ := hch c
    exact blockInv_holdEnds h hk
      ⟨fun _ => hq he, hle, hq, fun hb => (nomatch hb), fun hb => (nomatch hb)⟩

/-! ## The context's step, said once -/

/-- The context's step as an effect on the block: the poll of its hold, a command it fetched, or
nothing (a fault). -/
theorem contextStep_effect {s t : State} (h : contextStep s = .next t) :
    (∃ k u, s.cur.hold = some k ∧ PollEffect k s u ∧ SameBlock u t)
      ∨ (∃ i rest u, s.cur.hold = none ∧ decode (fetchWords s) = .ok i rest ∧ IssueEffect i s u
          ∧ SameBlock u t)
      ∨ SameBlock s t := by
  cases hh : s.cur.hold with
  | some k =>
    rw [contextStep_held hh] at h
    cases h
    obtain ⟨u, he, hu⟩ := pollStep_effect s k
    exact .inl ⟨k, u, rfl, he, hu⟩
  | none =>
    cases hd : decode (fetchWords s) with
    | ok i rest =>
      rw [contextStep_decoded hh hd] at h
      obtain ⟨u, he, hu⟩ := exec_issues h
      exact .inr (.inl ⟨i, rest, u, rfl, rfl, he, hu⟩)
    | reject why =>
      right; right
      rw [contextStep, hh] at h
      simp only [issueStep] at h
      split at h
      · cases h
        exact sameBlock_withFault s _
      next hw =>
        rw [hw] at hd
        simp only [hd] at h
        cases h
        exact sameBlock_withFault s _

theorem blockInv_contextStep {s t : State} (hs : blockInv s) (h : contextStep s = .next t) :
    blockInv t := by
  rcases contextStep_effect h with ⟨k, u, hh, he, hu⟩ | ⟨i, rest, u, hh, _, he, hu⟩ | hu
  · exact blockInv_congr hu (blockInv_of_pollEffect he hs hh)
  · exact blockInv_congr hu (blockInv_of_issueEffect he hs hh)
  · exact blockInv_congr hu hs

theorem blockInv_pickEffect {s t : State} {p : Pick} (hs : blockInv s)
    (he : pickEnabled s p = true) (h : pickEffect s p = .next t) : blockInv t := by
  rcases pickEffect_cases h with ⟨rfl, hc⟩ | ⟨v, rfl, rfl⟩ | ⟨c, hp, _⟩
  · exact blockInv_contextStep hs hc
  · simp only [pickEnabled, Bool.and_eq_true] at he
    exact blockInv_takeInterrupt hs he.2
  · obtain ⟨x, hx, hu⟩ := engine_keepsChannel hp he h
    exact blockInv_congr hu (blockInv_setCh_keeps hs hx)

/-- Settles O54: each kind of step keeps the invariants, and neither the consumed pick nor the
latches are among what they read. -/
theorem everyStepKeepsBlockInvariant : Obligations.EveryStepKeepsBlockInvariant := by
  intro s t hs h
  have hd : blockInv (dropPick s) := blockInv_congr (sameBlock_dropPick s) hs
  rcases step_effect h with rfl | ⟨he, u, hu, ht⟩
  · exact hd
  · rw [← pickEnabled_dropPick] at he
    have hu' : blockInv u := blockInv_pickEffect hd he hu
    rcases ht with rfl | rfl
    · exact hu'
    · exact blockInv_congr (sameBlock_latchPending u) hu'

/-! ## Lifecycle transitions (R22, R152) -/

/-- A write of one channel changes no other channel's tag. -/
theorem eq_of_setCh_status_ne {s : State} {c d : Chan} {x : Channel}
    (h : ((s.setCh d x).ch c).status ≠ (s.ch c).status) : c = d := by
  by_contra hc
  rw [ch_setCh_ne s x hc] at h
  exact h rfl

/-- Of the commands' issue steps only START changes a tag, from Ready to Busy. -/
theorem issueEffect_tag {i : Instr} {s u : State} {c : Chan} (e : IssueEffect i s u)
    (hs : splitInv s) (hne : (u.ch c).status ≠ (s.ch c).status) :
    (s.ch c).status = .ready ∧ (u.ch c).status = .busy ∧ ∃ src act, i = .start c src act := by
  cases e with
  | same => exact absurd rfl hne
  | channel i hx => exact absurd (setCh_status_of_keeps hx c) hne
  | hold i k hx =>
    rw [setHold_ch] at hne
    exact absurd (setCh_status_of_keeps hx c) hne
  | start ho hs ht =>
    obtain rfl := eq_of_setCh_status_ne hne
    exact ⟨ht, by rw [ch_setCh_same]; rfl, _, _, rfl⟩
  | split hn => exact absurd (by rw [ch_split hs hn]) hne
  | csenter => exact absurd (congrArg Channel.status (setCsStack_ch s _ c)) hne
  | csexit => exact absurd (congrArg Channel.status (setCsStack_ch s _ c)) hne
  | cellput | cellborrow | cellrelease | iret => exact absurd rfl hne

/-- A poll step that changes a tag ends INIT's, RESET's or FREE's hold on that channel. -/
theorem pollEffect_tag {k : Hold} {s u : State} {c : Chan} (e : PollEffect k s u)
    (hne : (u.ch c).status ≠ (s.ch c).status) :
    ((u.ch c).status = .ready ∧ ∃ lvl, k = .initWait c lvl)
      ∨ ((u.ch c).status = .uninitialized ∧ k = .resetWait c)
      ∨ ((u.ch c).status = .ready ∧ k = .freeWait c) := by
  cases e with
  | waits => exact absurd rfl hne
  | waitToFree d => exact absurd (congrArg Channel.status (setHold_ch s _ c)) hne
  | initEnds d lvl =>
    rw [← setHold_ch s none c] at hne
    obtain rfl := eq_of_setCh_status_ne hne
    exact .inl ⟨by rw [ch_setCh_same], lvl, rfl⟩
  | resetEnds d =>
    rw [← setHold_ch s none c] at hne
    obtain rfl := eq_of_setCh_status_ne hne
    exact .inr (.inl ⟨by rw [ch_setCh_same], rfl⟩)
  | freeEnds he =>
    rw [← setHold_ch s none c] at hne
    obtain rfl := eq_of_setCh_status_ne hne
    exact .inr (.inr ⟨by rw [ch_setCh_same], rfl⟩)

/-- A context's step that changes a tag: the four transitions of R152. -/
theorem contextStep_tag {s t : State} {c : Chan} (hs : blockInv s) (h : contextStep s = .next t)
    (hne : (t.ch c).status ≠ (s.ch c).status) :
    ((s.ch c).status = .uninitialized ∧ (t.ch c).status = .ready
        ∧ ∃ lvl, s.cur.hold = some (.initWait c lvl))
      ∨ ((s.ch c).status = .ready ∧ (t.ch c).status = .uninitialized
        ∧ s.cur.hold = some (.resetWait c))
      ∨ ((s.ch c).status = .ready ∧ (t.ch c).status = .busy ∧ s.cur.hold = none
        ∧ ∃ src act rest, decode (fetchWords s) = .ok (.start c src act) rest)
      ∨ ((s.ch c).status = .busy ∧ (t.ch c).status = .ready ∧ s.cur.hold = some (.freeWait c)) := by
  obtain ⟨_, _, _, _, hhold, hsplit⟩ := hs
  rcases contextStep_effect h with ⟨k, u, hh, he, hu⟩ | ⟨i, rest, u, hh, hd, he, hu⟩ | hu <;>
    rw [hu.ch c] at hne ⊢
  · obtain ⟨_, _, ht⟩ := hhold s.ctx k hh
    rcases pollEffect_tag he hne with ⟨hu', lvl, rfl⟩ | ⟨hu', rfl⟩ | ⟨hu', rfl⟩
    · exact .inl ⟨ht, hu', lvl, hh⟩
    · exact .inr (.inl ⟨ht, hu', hh⟩)
    · exact .inr (.inr (.inr ⟨ht, hu', hh⟩))
  · obtain ⟨ht, hu', src, act, rfl⟩ := issueEffect_tag he hsplit hne
    exact .inr (.inr (.inl ⟨ht, hu', hh, src, act, rest, hd⟩))
  · exact absurd rfl hne

/-- No entry and no engine step changes a tag (R256). -/
theorem pickEffect_tag {s t : State} {p : Pick} {c : Chan} (h : pickEffect s p = .next t)
    (hne : (t.ch c).status ≠ (s.ch c).status) : p = .context := by
  rcases pickEffect_cases h with ⟨rfl, _⟩ | ⟨v, rfl, rfl⟩ | ⟨d, _, x, m, n, f, rfl, hx⟩
  · rfl
  · exact absurd rfl hne
  · obtain rfl := eq_of_setCh_status_ne (x := x) hne
    exact absurd ((congrArg Channel.status (ch_setCh_same s c x)).trans hx) hne

/-- Settles O58: a step that changes a tag is the context's, and `contextStep_tag` says which. -/
theorem lifecycleTransitions : Obligations.LifecycleTransitions := by
  intro s t c hs h hne
  rcases step_effect h with rfl | ⟨_, u, hu, ht⟩
  · exact absurd (by rw [dropPick_ch]) hne
  have htu : t.ch c = u.ch c := by rcases ht with rfl | rfl <;> simp
  rw [htu, ← dropPick_ch s c] at hne
  have hp : nextPick s = .context := pickEffect_tag hu hne
  rw [hp] at hu
  refine ⟨hp, ?_⟩
  rw [htu]
  simpa only [dropPick_ch, dropPick_cur, dropPick_fetchWords] using
    contextStep_tag (blockInv_congr (sameBlock_dropPick s) hs) hu hne

end Sys2Proof.Machine
end

section
/-! # Proofs of the memory's family (20_memory.md)

## A read of the bytes that a write at the same address stored (R61) -/

namespace Sys2Proof.Machine

/-- A read of no more bytes than were written at its address reads the first of them. -/
theorem readBytes_writeBytes_same (m : Memory) (a : Word) (bs : List Byte) (n : Nat)
    (hn : n ≤ bs.length) (hl : bs.length ≤ 4294967296) :
    readBytes (writeBytes m a bs) a n = bs.take n := by
  apply List.ext_getElem
  · simp [readBytes_length, hn]
  · intro i hi _
    rw [readBytes_length] at hi
    rw [readBytes_getElem, readByte_writeBytes_at m a bs i hl (by omega), List.getElem_take]

/-- The first bytes of a word's bytes are the bytes of its low part. -/
theorem bytesOfWord_take (v : Word) (n k : Nat) (h : n ≤ k) :
    (bytesOfWord v k).take n = bytesOfWord v n := by
  apply List.ext_getElem
  · simp [bytesOfWord_length, h]
  · intro i _ _
    rw [List.getElem_take, bytesOfWord_getElem, bytesOfWord_getElem]

theorem wordOfBytes_bytesOfWord_getLsbD (v : Word) (n i : Nat) :
    (wordOfBytes (bytesOfWord v n)).getLsbD i = (decide (i < 8 * n) && v.getLsbD i) := by
  induction n generalizing v i with
  | zero => simp [bytesOfWord, wordOfBytes]
  | succ n ih =>
    simp only [bytesOfWord, wordOfBytes, BitVec.getLsbD_or, BitVec.getLsbD_shiftLeft, ih]
    by_cases hi : i < 8
    · have hlt : i < 8 * (n + 1) := by omega
      have h32 : i < 32 := by omega
      simp [hi, hlt, h32]
    · have hsum : 8 + (i - 8) = i := by omega
      have hlt : i - 8 < 8 * n ↔ i < 8 * (n + 1) := by omega
      have hwidth : 32 ≤ i → v.getLsbD i = false := BitVec.getLsbD_of_ge v i
      by_cases h32 : i < 32
      · simp [hi, hsum, hlt, h32]
      · simp [hi, h32, hwidth (by omega)]

/-- The low n bytes of a word, read back as a word, are the word under a mask of 8n ones. -/
theorem wordOfBytes_bytesOfWord (v : Word) (n : Nat) :
    wordOfBytes (bytesOfWord v n) = v &&& BitVec.ofNat 32 (2 ^ (8 * n) - 1) := by
  apply BitVec.eq_of_getLsbD_eq
  intro i hi
  rw [wordOfBytes_bytesOfWord_getLsbD, BitVec.getLsbD_and, BitVec.getLsbD_ofNat,
    Nat.testBit_two_pow_sub_one]
  simp [hi, Bool.and_comm]

/-- A read at the address of a write at least as wide returns the low bytes of the data (R61, R63). -/
theorem memRead_memWrite_same (m : Memory) (a v : Word) (wide narrow : Size)
    (h : sizeBytes narrow ≤ sizeBytes wide) :
    memRead (memWrite m a wide v) a narrow =
      v &&& BitVec.ofNat 32 (2 ^ (8 * sizeBytes narrow) - 1) := by
  have hlen : (bytesOfWord v (sizeBytes wide)).length = sizeBytes wide := bytesOfWord_length v _
  have hmax : sizeBytes wide ≤ 4294967296 := by cases wide <;> decide
  unfold memRead memWrite
  rw [readBytes_writeBytes_same m a _ _ (by omega) (by omega), bytesOfWord_take v _ _ h,
    wordOfBytes_bytesOfWord]

/-- Settles O28: `memRead_memWrite_same` at each pair of widths; the mask of a word is all
ones. -/
theorem narrowReadAfterWideWrite : Obligations.NarrowReadAfterWideWrite := by
  intro m a v
  refine ⟨?_, memRead_memWrite_same m a v .word .half (by decide),
    memRead_memWrite_same m a v .word .byte (by decide),
    memRead_memWrite_same m a v .half .half (by decide),
    memRead_memWrite_same m a v .half .byte (by decide),
    memRead_memWrite_same m a v .byte .byte (by decide)⟩
  calc memRead (memWrite m a .word v) a .word
      = v &&& BitVec.allOnes 32 := memRead_memWrite_same m a v .word .word (by decide)
    _ = v := BitVec.and_allOnes

end Sys2Proof.Machine
end

section
/-! # Proofs of the memory's family: the beats that move nothing (R246, R320) -/

namespace Sys2Proof.Machine

open Sys2Proof.Safety

/-- E_BEAT's precondition, in full (R245, R300). -/
theorem pickEnabled_eBeat_iff (s : State) (c : Chan) :
    pickEnabled s (.eBeat c) = true ↔
      s.fault = none ∧ c.toNat < s.params.numChannels ∧ s.params.clockReady = true
        ∧ (s.ch c).enable = true ∧ (s.ch c).suspended = false ∧ (s.ch c).auth ≠ 0
        ∧ ((s.ch c).disableReq = false ∨ (s.ch c).burstLeft ≠ 0) := by
  simp [pickEnabled, beatEnabled, engineReady, chanValid, and_assoc]

theorem beatAccessible_iff (p : Params) (ch : Channel) :
    beatAccessible p ch = true ↔
      dmaOk p ch.curSrc ch.dSize = true ∧ dmaOk p ch.curDst ch.dSize = true := by
  simp [beatAccessible]

/-- The channel after a transfer error, field by field (R241). -/
theorem failChannel_eq (ch : Channel) : failChannel ch = stoppedWith 0b001 ch := rfl

/-- An inaccessible end is a transfer error, whatever the destination is (R246, R320 b). -/
theorem engineBeat_of_inaccessible {s : State} {c : Chan}
    (h : beatAccessible s.params (s.ch c) = false) :
    engineBeat s c = s.setCh c (failChannel (s.ch c)) := if_pos h

/-- A beat with accessible ends that would write code only records the fault (R77, R300). -/
theorem engineBeat_of_code {s : State} {c : Chan} (h : beatAccessible s.params (s.ch c) = true)
    (hc : beatHitsCode s.params (s.ch c) = true) :
    engineBeat s c = s.withFault ⟨.codeWrite, .engine c (s.ch c).curDst⟩ := by
  simp [engineBeat, h, hc]

/-- Settles O42: the two cases of `engineBeat` that move nothing, each carried through the end of the
step; the faulting one sets no latch. -/
theorem beatErrorOrCodeWrite : Obligations.BeatErrorOrCodeWrite := by
  intro s c
  refine ⟨pickEnabled_eBeat_iff s c, fun he => ⟨fun hbad => ?_, fun hok hcode => ?_⟩⟩
  · have hacc : beatAccessible s.params (s.ch c) = false := by
      rwa [← Bool.not_eq_true, beatAccessible_iff]
    obtain ⟨t, ht, hch, hframe, hmem, hdraw, hfault⟩ := engine_writes_channel he
      (failChannel_status _) (congrArg Host.Outcome.next (engineBeat_of_inaccessible hacc))
    exact ⟨t, ht, hch.trans (failChannel_eq _), hmem, hdraw, hframe, hfault⟩
  · have hbeat := engineBeat_of_code ((beatAccessible_iff _ _).2 hok) ((beatHitsCode_iff _ _).2 hcode)
    exact agentStep_enabled he (congrArg Host.Outcome.next hbeat)

end Sys2Proof.Machine
end

section
/-! # Proofs of the encoding's family (30_encoding.md)

## Reading back the words the encoder builds (R92) -/

namespace Sys2Proof

@[simp] theorem decodeG_wordN (o : BitVec 6) (i : Instr) (args : List Word) :
    decodeG (wordN 0#5 o) i args = .ok i args := by
  simp [decodeG, fields_wordN_zero]

@[simp] theorem decodeN_wordN (c : Chan) (o : BitVec 6) (mk : Chan → Instr) (args : List Word) :
    decodeN (wordN c o) mk args = .ok (mk c) args := by
  simp [decodeN, fields_wordN]

@[simp] theorem decodePair_wordPair (x : BitVec 2) (c : Chan) (o : BitVec 6)
    (mk : Chan → BitVec 2 → Instr) (args : List Word) :
    decodePair (wordPair x c o) mk args = .ok (mk c x) args := by
  simp [decodePair, fields_wordPair]

@[simp] theorem decodeM_wordM (mask : FlagSet) (c : Chan) (o : BitVec 6)
    (mk : Chan → FlagSet → Instr) (args : List Word) :
    decodeM (wordM mask c o) mk args = .ok (mk c mask) args := by
  simp [decodeM, fields_wordM]

@[simp] theorem decodeB_wordB (blen : BitVec 4) (c : Chan) (o : BitVec 6)
    (mk : Chan → BitVec 4 → Instr) (args : List Word) :
    decodeB (wordB blen c o) mk args = .ok (mk c blen) args := by
  simp [decodeB, fields_wordB]

theorem decodeT_wordT {act : BitVec 2} (h : act ≠ 3) (src : BitVec 7) (c : Chan) (o : BitVec 6)
    (args : List Word) : decodeT (wordT act src c o) args = .ok (.start c src act) args := by
  simp only [decodeT, fields_wordT, if_true, if_neg h]

@[simp] theorem decodeD_wordN (c : Chan) (o : BitVec 6) (src dst cnt ctl : Word)
    (rest : List Word) :
    decodeD (wordN c o) (src :: dst :: cnt :: ctl :: rest) = .ok (.bind c src dst cnt ctl) rest := by
  simp [decodeD, fields_wordN]

theorem rejectS_wordPair {size : BitVec 2} (h : size ≠ 3) (o : BitVec 6) :
    rejectS (wordPair size 0#5 o) = none := by
  have hch : (wordPair size 0#5 o).extractLsb' 6 5 = 0#5 := (fields_wordPair size 0#5 o).2.1
  have h' : size ≠ 3#2 := h
  simp [rejectS, fields_wordPair, hch, h']

theorem decodeMemrd_wordPair {size : BitVec 2} (h : size ≠ 3) (o : BitVec 6) (addr : Word)
    (rest : List Word) :
    decodeMemrd (wordPair size 0#5 o) (addr :: rest) = .ok (.memrd size addr) rest := by
  simp [decodeMemrd, rejectS_wordPair h, fields_wordPair]

theorem decodeMemwr_wordPair {size : BitVec 2} (h : size ≠ 3) (o : BitVec 6) (addr data : Word)
    (rest : List Word) :
    decodeMemwr (wordPair size 0#5 o) (addr :: data :: rest)
      = .ok (.memwr size addr data) rest := by
  simp [decodeMemwr, rejectS_wordPair h, fields_wordPair]

/-- A command's words are read by its own format (R102), which gives the command back. -/
theorem decode_encode {i : Instr} (rest : List Word) (hwf : i.wf = true) :
    decode (encode i ++ rest) = .ok i rest := by
  change decodeWord (commandWord i) (argWords i ++ rest) = .ok i rest
  cases i with
  | split | csenter | csexit | cellput | cellborrow | cellrelease | iret =>
    simp [commandWord, argWords, decodeWord, fields_wordN]
  | reset | xferdone | free | restart | wait | callback | bind =>
    simp [commandWord, argWords, decodeWord, fields_wordN]
  | init | setthr => simp [commandWord, argWords, decodeWord, fields_wordPair]
  | intenset | intenclr | chkclr => simp [commandWord, argWords, decodeWord, fields_wordM]
  | setburst => simp [commandWord, argWords, decodeWord, fields_wordB]
  | start c src act =>
    have hact : act ≠ 3 := by simpa [Instr.wf] using hwf
    simp [commandWord, argWords, decodeWord, fields_wordT, decodeT_wordT hact]
  | memrd size addr =>
    have hsize : size ≠ 3 := by simpa [Instr.wf] using hwf
    simp [commandWord, argWords, decodeWord, fields_wordPair, decodeMemrd_wordPair hsize]
  | memwr size addr data =>
    have hsize : size ≠ 3 := by simpa [Instr.wf] using hwf
    simp [commandWord, argWords, decodeWord, fields_wordPair, decodeMemwr_wordPair hsize]

/-- Settles O1: each format's reader on the words its encoder builds. -/
theorem decodeOfEncodeIsInstr : Obligations.DecodeOfEncodeIsInstr :=
  fun _ rest hwf => decode_encode rest hwf

/-! ## The words a decoded command was read from (R91, R104) -/

/-- The command is well-formed, and the words are its encoding and the words that are left. -/
def ReadFrom (i : Instr) (ws rest : List Word) : Prop := i.wf = true ∧ ws = encode i ++ rest

theorem wordN_zero_of_fields (w : Word) (h : w.extractLsb' 6 26 = 0) :
    wordN 0 (opcodeOf w) = w := by
  rw [high_zero_iff w 6 26 rfl] at h
  apply BitVec.eq_of_toNat_eq
  rw [toNat_wordN, toNat_opcodeOf]
  simp
  omega

/-- A legal word of format S is built from its SIZE, with channel bits 0. -/
theorem wordPair_of_rejectS {w : Word} (h : rejectS w = none) :
    wordPair (pairField w) 0 (opcodeOf w) = w ∧ pairField w ≠ 3 := by
  obtain ⟨hz, hch, hsize⟩ := rejectS_none h
  have hc : chanField w = 0 := hch
  exact ⟨by rw [← hc, wordPair_of_fields w hz], hsize⟩

section Formats

variable {w : Word} {j : Instr} {args rest : List Word} {o : BitVec 6}

theorem readFrom_decodeG {i : Instr} (h : decodeG w i args = .ok j rest) (hwf : i.wf = true)
    (he : encode i = [wordN 0 o]) (ho : opcodeOf w = o) : ReadFrom j (w :: args) rest := by
  obtain ⟨hz, rfl, rfl⟩ := decodeG_ok h
  exact ⟨hwf, by rw [he, ← ho, wordN_zero_of_fields w hz]; rfl⟩

theorem readFrom_decodeN {mk : Chan → Instr} (h : decodeN w mk args = .ok j rest)
    (hwf : ∀ c, (mk c).wf = true) (he : ∀ c, encode (mk c) = [wordN c o])
    (ho : opcodeOf w = o) : ReadFrom j (w :: args) rest := by
  obtain ⟨hz, rfl, rfl⟩ := decodeN_ok h
  exact ⟨hwf _, by rw [he, ← ho, wordN_of_fields w hz]; rfl⟩

theorem readFrom_decodePair {mk : Chan → BitVec 2 → Instr} (h : decodePair w mk args = .ok j rest)
    (hwf : ∀ c x, (mk c x).wf = true) (he : ∀ c x, encode (mk c x) = [wordPair x c o])
    (ho : opcodeOf w = o) : ReadFrom j (w :: args) rest := by
  obtain ⟨hz, rfl, rfl⟩ := decodePair_ok h
  exact ⟨hwf _ _, by rw [he, ← ho, wordPair_of_fields w hz]; rfl⟩

theorem readFrom_decodeM {mk : Chan → FlagSet → Instr} (h : decodeM w mk args = .ok j rest)
    (hwf : ∀ c x, (mk c x).wf = true) (he : ∀ c x, encode (mk c x) = [wordM x c o])
    (ho : opcodeOf w = o) : ReadFrom j (w :: args) rest := by
  obtain ⟨hz, rfl, rfl⟩ := decodeM_ok h
  exact ⟨hwf _ _, by rw [he, ← ho, wordM_of_fields w hz]; rfl⟩

theorem readFrom_decodeB {mk : Chan → BitVec 4 → Instr} (h : decodeB w mk args = .ok j rest)
    (hwf : ∀ c x, (mk c x).wf = true) (he : ∀ c x, encode (mk c x) = [wordB x c o])
    (ho : opcodeOf w = o) : ReadFrom j (w :: args) rest := by
  obtain ⟨hz, rfl, rfl⟩ := decodeB_ok h
  exact ⟨hwf _ _, by rw [he, ← ho, wordB_of_fields w hz]; rfl⟩

theorem readFrom_decodeT (h : decodeT w args = .ok j rest) (ho : opcodeOf w = 0x06) :
    ReadFrom j (w :: args) rest := by
  obtain ⟨hz, hact, rfl, rfl⟩ := decodeT_ok h
  exact ⟨by simpa [Instr.wf] using hact,
    by rw [encode, commandWord, ← ho, wordT_of_fields w hz]; rfl⟩

theorem readFrom_decodeD (h : decodeD w args = .ok j rest) (ho : opcodeOf w = 0x0A) :
    ReadFrom j (w :: args) rest := by
  obtain ⟨hz, src, dst, cnt, ctl, rfl, rfl⟩ := decodeD_ok h
  exact ⟨rfl, by rw [encode, commandWord, ← ho, wordN_of_fields w hz]; rfl⟩

theorem readFrom_decodeMemrd (h : decodeMemrd w args = .ok j rest) (ho : opcodeOf w = 0x0C) :
    ReadFrom j (w :: args) rest := by
  obtain ⟨hr, addr, rfl, rfl⟩ := decodeMemrd_ok h
  obtain ⟨hw, hsize⟩ := wordPair_of_rejectS hr
  exact ⟨by simpa [Instr.wf] using hsize, by rw [encode, commandWord, ← ho, hw]; rfl⟩

theorem readFrom_decodeMemwr (h : decodeMemwr w args = .ok j rest) (ho : opcodeOf w = 0x0D) :
    ReadFrom j (w :: args) rest := by
  obtain ⟨hr, addr, data, rfl, rfl⟩ := decodeMemwr_ok h
  obtain ⟨hw, hsize⟩ := wordPair_of_rejectS hr
  exact ⟨by simpa [Instr.wf] using hsize, by rw [encode, commandWord, ← ho, hw]; rfl⟩

end Formats

/-- The opcode's format was read, and it gives the words back (R102). -/
theorem readFrom_decodeWord {w : Word} {i : Instr} {args rest : List Word}
    (h : decodeWord w args = .ok i rest) : ReadFrom i (w :: args) rest := by
  unfold decodeWord at h
  split at h
  next ho => exact readFrom_decodeG h rfl rfl (BitVec.eq_of_toNat_eq ho)
  next ho => exact readFrom_decodePair h (fun _ _ => rfl) (fun _ _ => rfl) (BitVec.eq_of_toNat_eq ho)
  next ho => exact readFrom_decodeN h (fun _ => rfl) (fun _ => rfl) (BitVec.eq_of_toNat_eq ho)
  next ho => exact readFrom_decodeB h (fun _ _ => rfl) (fun _ _ => rfl) (BitVec.eq_of_toNat_eq ho)
  next ho => exact readFrom_decodePair h (fun _ _ => rfl) (fun _ _ => rfl) (BitVec.eq_of_toNat_eq ho)
  next ho => exact readFrom_decodeT h (BitVec.eq_of_toNat_eq ho)
  next ho => exact readFrom_decodeN h (fun _ => rfl) (fun _ => rfl) (BitVec.eq_of_toNat_eq ho)
  next ho => exact readFrom_decodeN h (fun _ => rfl) (fun _ => rfl) (BitVec.eq_of_toNat_eq ho)
  next ho => exact readFrom_decodeN h (fun _ => rfl) (fun _ => rfl) (BitVec.eq_of_toNat_eq ho)
  next ho => exact readFrom_decodeD h (BitVec.eq_of_toNat_eq ho)
  next ho => exact readFrom_decodeN h (fun _ => rfl) (fun _ => rfl) (BitVec.eq_of_toNat_eq ho)
  next ho => exact readFrom_decodeMemrd h (BitVec.eq_of_toNat_eq ho)
  next ho => exact readFrom_decodeMemwr h (BitVec.eq_of_toNat_eq ho)
  next ho => exact readFrom_decodeM h (fun _ _ => rfl) (fun _ _ => rfl) (BitVec.eq_of_toNat_eq ho)
  next ho => exact readFrom_decodeM h (fun _ _ => rfl) (fun _ _ => rfl) (BitVec.eq_of_toNat_eq ho)
  next ho => exact readFrom_decodeM h (fun _ _ => rfl) (fun _ _ => rfl) (BitVec.eq_of_toNat_eq ho)
  next ho => exact readFrom_decodeN h (fun _ => rfl) (fun _ => rfl) (BitVec.eq_of_toNat_eq ho)
  next ho => exact readFrom_decodeG h rfl rfl (BitVec.eq_of_toNat_eq ho)
  next ho => exact readFrom_decodeG h rfl rfl (BitVec.eq_of_toNat_eq ho)
  next ho => exact readFrom_decodeG h rfl rfl (BitVec.eq_of_toNat_eq ho)
  next ho => exact readFrom_decodeG h rfl rfl (BitVec.eq_of_toNat_eq ho)
  next ho => exact readFrom_decodeG h rfl rfl (BitVec.eq_of_toNat_eq ho)
  next ho => exact readFrom_decodeG h rfl rfl (BitVec.eq_of_toNat_eq ho)
  next => cases h

theorem readFrom_decode {ws : List Word} {i : Instr} {rest : List Word}
    (h : decode ws = .ok i rest) : ReadFrom i ws rest := by
  cases ws with
  | nil => cases h
  | cons w args => exact readFrom_decodeWord h

/-- Settles O2: each format's fields, put back at their bits, are the word that was read. -/
theorem encodeOfDecodeIsWords : Obligations.EncodeOfDecodeIsWords :=
  fun _ _ _ h => readFrom_decode h

/-- The command's word is the word that was read. -/
theorem commandWord_of_decode {w : Word} {i : Instr} {args rest : List Word}
    (h : decode (w :: args) = .ok i rest) : commandWord i = w :=
  (List.cons.inj (readFrom_decode h).2).1.symm

/-- Settles O3: the six words, decoded. -/
theorem workedEncodingsDecode : Obligations.WorkedEncodingsDecode := by
  unfold Obligations.WorkedEncodingsDecode
  decide

end Sys2Proof
end

section
/-! # Proofs of the encoding's family: the words R103 calls illegal, and the channel checks (R109) -/

namespace Sys2Proof

open Sys2Proof.Safety

/-! ## What each format refuses (R103) -/

/-- A reader that only checks bits refuses exactly when the check fails. -/
theorem rejects_ite_iff {c : Prop} [Decidable c] {i : Instr} {args : List Word} {r : DecodeReject} :
    (∃ why, (if c then .ok i args else .reject r : Decoded) = .reject why) ↔ ¬ c := by
  split <;> simp_all

theorem decodeG_rejects_iff (w : Word) (i : Instr) (args : List Word) :
    (∃ why, decodeG w i args = .reject why) ↔ w.toNat / 2 ^ 6 ≠ 0 := by
  rw [decodeG, rejects_ite_iff, high_zero_iff w 6 26 rfl]

theorem decodeN_rejects_iff (w : Word) (mk : Chan → Instr) (args : List Word) :
    (∃ why, decodeN w mk args = .reject why) ↔ w.toNat / 2 ^ 11 ≠ 0 := by
  rw [decodeN, rejects_ite_iff, high_zero_iff w 11 21 rfl]

theorem decodePair_rejects_iff (w : Word) (mk : Chan → BitVec 2 → Instr) (args : List Word) :
    (∃ why, decodePair w mk args = .reject why) ↔ w.toNat / 2 ^ 13 ≠ 0 := by
  rw [decodePair, rejects_ite_iff, high_zero_iff w 13 19 rfl]

theorem decodeM_rejects_iff (w : Word) (mk : Chan → FlagSet → Instr) (args : List Word) :
    (∃ why, decodeM w mk args = .reject why) ↔ w.toNat / 2 ^ 14 ≠ 0 := by
  rw [decodeM, rejects_ite_iff, high_zero_iff w 14 18 rfl]

theorem decodeB_rejects_iff (w : Word) (mk : Chan → BitVec 4 → Instr) (args : List Word) :
    (∃ why, decodeB w mk args = .reject why) ↔ w.toNat / 2 ^ 15 ≠ 0 := by
  rw [decodeB, rejects_ite_iff, high_zero_iff w 15 17 rfl]

theorem trigactField_eq_three_iff (w : Word) :
    trigactField w = 3 ↔ w.toNat / 2 ^ 18 % 4 = 3 := by
  rw [← BitVec.toNat_inj, trigactField, toNat_field]
  rfl

theorem pairField_eq_three_iff (w : Word) : pairField w = 3 ↔ w.toNat / 2 ^ 11 % 4 = 3 := by
  rw [← BitVec.toNat_inj, pairField, toNat_field]
  rfl

theorem chanField_eq_zero_iff (w : Word) :
    w.extractLsb' 6 5 = 0 ↔ w.toNat / 2 ^ 6 % 32 = 0 := by
  rw [← BitVec.toNat_inj, toNat_field]
  rfl

theorem decodeT_rejects_iff (w : Word) (args : List Word) :
    (∃ why, decodeT w args = .reject why) ↔
      w.toNat / 2 ^ 20 ≠ 0 ∨ w.toNat / 2 ^ 18 % 4 = 3 := by
  rw [← trigactField_eq_three_iff, Ne, ← high_zero_iff w 20 12 rfl]
  unfold decodeT
  split
  · split <;> simp_all
  · simp_all

theorem decodeD_rejects_iff (w : Word) (args : List Word) :
    (∃ why, decodeD w args = .reject why) ↔ w.toNat / 2 ^ 11 ≠ 0 ∨ args.length < 4 := by
  rw [Ne, ← high_zero_iff w 11 21 rfl]
  unfold decodeD
  split
  next hz =>
    match args with
    | [] | [_] | [_, _] | [_, _, _] => simp
    | _ :: _ :: _ :: _ :: _ => simp [hz]
  next hz => simp_all

theorem rejectS_ne_none_iff (w : Word) :
    rejectS w ≠ none ↔
      w.toNat / 2 ^ 13 ≠ 0 ∨ w.toNat / 2 ^ 6 % 32 ≠ 0 ∨ w.toNat / 2 ^ 11 % 4 = 3 := by
  rw [← pairField_eq_three_iff, Ne, Ne, Ne, ← high_zero_iff w 13 19 rfl, ← chanField_eq_zero_iff]
  unfold rejectS
  split
  next => split <;> simp_all
  next hz => exact iff_of_true (by simp) (by tauto)

theorem decodeMemrd_rejects_iff (w : Word) (args : List Word) :
    (∃ why, decodeMemrd w args = .reject why) ↔ rejectS w ≠ none ∨ args.length < 1 := by
  unfold decodeMemrd
  split
  next hr => simp [hr]
  next hr => cases args <;> simp [hr]

theorem decodeMemwr_rejects_iff (w : Word) (args : List Word) :
    (∃ why, decodeMemwr w args = .reject why) ↔ rejectS w ≠ none ∨ args.length < 2 := by
  unfold decodeMemwr
  split
  next hr => simp [hr]
  next hr =>
    match args with
    | [] | [_] => simp [hr]
    | _ :: _ :: _ => simp [hr]

/-- The clauses of R103 are the decoder's refusals and clause (e), which depends on the chip. Case
`h_k` is opcode k of the map of R102; the last is every reserved opcode. -/
theorem illegalWord_iff (p : Params) (w : Word) (args : List Word) :
    illegalWord p w args ↔
      (∃ why, decode (w :: args) = .reject why)
        ∨ ((opcodeOf w).toNat ∈ [0x04, 0x05] ∧ p.hasBurstFifo = false) := by
  change _ ↔ (∃ why, decodeWord w args = .reject why) ∨ _
  unfold decodeWord
  split
  case h_1 ho | h_18 ho | h_19 ho | h_20 ho | h_21 ho | h_22 ho | h_23 ho =>
    simp [decodeG_rejects_iff, illegalWord, ← toNat_opcodeOf, ho]
  case h_3 ho | h_7 ho | h_8 ho | h_9 ho | h_11 ho | h_17 ho =>
    simp [decodeN_rejects_iff, illegalWord, ← toNat_opcodeOf, ho]
  case h_2 ho | h_5 ho => simp [decodePair_rejects_iff, illegalWord, ← toNat_opcodeOf, ho]
  case h_14 ho | h_15 ho | h_16 ho =>
    simp [decodeM_rejects_iff, illegalWord, ← toNat_opcodeOf, ho]
  case h_4 ho => simp [decodeB_rejects_iff, illegalWord, ← toNat_opcodeOf, ho]
  case h_6 ho => simp [decodeT_rejects_iff, illegalWord, ← toNat_opcodeOf, ho]
  case h_10 ho => simp [decodeD_rejects_iff, illegalWord, ← toNat_opcodeOf, ho]
  case h_12 ho =>
    simp [decodeMemrd_rejects_iff, rejectS_ne_none_iff, illegalWord, ← toNat_opcodeOf, ho, or_assoc]
  case h_13 ho =>
    simp [decodeMemwr_rejects_iff, rejectS_ne_none_iff, illegalWord, ← toNat_opcodeOf, ho, or_assoc]
  case h_24 =>
    have hopc : (opcodeOf w).toNat = 0 ∨ 0x18 ≤ (opcodeOf w).toNat := by
      simp only [imp_false] at *
      omega
    refine iff_of_true ?_ (.inl ⟨_, rfl⟩)
    rw [toNat_opcodeOf] at hopc
    exact hopc.imp_right .inl

/-- Settles O5: such a word is not refused, and what is decoded is what was read. -/
theorem legalWordDecodes : Obligations.LegalWordDecodes := by
  intro p w args hlegal
  rw [illegalWord_iff, not_or] at hlegal
  cases hd : decode (w :: args) with
  | ok i rest => exact ⟨i, rest, rfl, commandWord_of_decode hd⟩
  | reject why => exact absurd ⟨why, hd⟩ hlegal.1

end Sys2Proof

namespace Sys2Proof.Machine

open Sys2Proof.Safety

/-! ## Executing a word that R103 calls illegal (R105, R300) -/

/-- The opcodes of R103 (e) are those of SETBURST and SETTHR. -/
theorem needsBurstFifo_of_opcode {i : Instr} (h : (opcodeOf (commandWord i)).toNat ∈ [0x04, 0x05]) :
    needsBurstFifo i = true := by
  cases i with
  | setburst | setthr => rfl
  | init | memrd | memwr => simp [commandWord, fields_wordPair] at h
  | intenset | intenclr | chkclr => simp [commandWord, fields_wordM] at h
  | start => simp [commandWord, fields_wordT] at h
  | split | csenter | csexit | cellput | cellborrow | cellrelease | iret | reset | xferdone | free
  | restart | bind | wait | callback => simp [commandWord, fields_wordN] at h

/-- A command that this chip lacks is illegal (R103 e). -/
theorem exec_without_burstFifo {i : Instr} {s : State} (hi : needsBurstFifo i = true)
    (hs : s.params.hasBurstFifo = false) : exec i s = raise s .illegalCommand (commandWord i) := by
  cases i with
  | setburst => exact if_pos hs
  | setthr => exact if_pos hs
  | _ => cases hi

/-- A context with words to fetch can step. -/
theorem contextEnabled_of_words {s : State} {w : Word} {args : List Word}
    (hw : fetchWords s = w :: args) : contextEnabled s = true := by
  have hpc : s.cur.pc < s.program.length := by
    by_contra hge
    rw [fetchWords, List.drop_eq_nil_of_le (Nat.le_of_not_lt hge)] at hw
    cases hw
  simp [contextEnabled, hpc]

/-- A free context refuses a word that the decoder refuses. -/
theorem contextStep_rejected {s : State} {w : Word} {args : List Word} {why : DecodeReject}
    (hh : s.cur.hold = none) (hw : fetchWords s = w :: args)
    (hd : decode (w :: args) = .reject why) : contextStep s = raise s .illegalCommand w := by
  simp only [contextStep, hh, issueStep, hw, hd]

/-- A free context raises IllegalCommand at an illegal word. -/
theorem contextStep_illegal {s : State} {w : Word} {args : List Word} (hh : s.cur.hold = none)
    (hw : fetchWords s = w :: args) (hill : illegalWord s.params w args) :
    contextStep s = raise s .illegalCommand w := by
  cases hd : decode (w :: args) with
  | reject why => exact contextStep_rejected hh hw hd
  | ok i rest =>
    have hword : commandWord i = w := commandWord_of_decode hd
    rcases (illegalWord_iff _ _ _).1 hill with ⟨why, hr⟩ | ⟨hopc, hfifo⟩
    · rw [hd] at hr
      cases hr
    · have hi : needsBurstFifo i = true := needsBurstFifo_of_opcode (by rwa [hword])
      rw [contextStep_decoded hh (by rwa [hw]), exec_without_burstFifo hi hfifo, hword]

/-- Settles O4: the context's step raises IllegalCommand, and a step that raised latches nothing. -/
theorem illegalWordFaults : Obligations.IllegalWordFaults := by
  intro s w args hf hp hh hw hill
  rw [step_context hf hp (contextEnabled_of_words hw),
    contextStep_illegal (by simpa using hh) (by simpa using hw) (by simpa using hill)]
  rw [raise, settle_next]
  simp [State.withFault, commandFault]

/-! ## The channel checks (R109) -/

/-- A command with the channel checks of R109 in front of its effect. -/
theorem checksFirst_of_onChannel {i : Instr} {s : State} {c : Chan} {tags : List Status}
    {allowed : Status → Bool} {k : StepResult}
    (he : exec i s = onChannel s (commandWord i) c allowed k)
    (hallowed : ∀ t, allowed t = true → t ∈ tags) : checksFirst i s c tags := by
  rw [onChannel_eq] at he
  refine ⟨⟨fun hc => ?_, fun hc ho => ?_, fun hc ho hs => ?_⟩, fun ⟨hc, ho, hs⟩ ht => ?_⟩
  · exact he.trans (if_pos hc)
  · rw [if_neg (Nat.not_le.2 hc), if_pos ho] at he
    exact he
  · rw [if_neg (Nat.not_le.2 hc), if_neg (by simp [ho]), if_pos hs] at he
    exact he
  · have hna : allowed (s.ch c).status = false := by
      by_contra h
      exact ht (hallowed _ (by simpa using h))
    rw [if_neg (Nat.not_le.2 hc), if_neg (by simp [ho]), if_neg (by simp [hs]), if_pos hna] at he
    exact he

theorem mem_of_onlyUninitialized (t : Status) (h : onlyUninitialized t = true) :
    t ∈ [Status.uninitialized] := by simpa [onlyUninitialized] using h

theorem mem_of_onlyReady (t : Status) (h : onlyReady t = true) : t ∈ [Status.ready] := by
  simpa [onlyReady] using h

theorem mem_of_onlyBusy (t : Status) (h : onlyBusy t = true) : t ∈ [Status.busy] := by
  simpa [onlyBusy] using h

theorem mem_of_anyStatus (t : Status) (_ : anyStatus t = true) :
    t ∈ [Status.uninitialized, .ready, .busy] := by cases t <;> simp

/-- START with a legal trigger action runs its checks (R134). -/
theorem exec_start_eq {act : BitVec 2} (h : act ≠ 3) (c : Chan) (src : BitVec 7) (s : State) :
    ∃ k, exec (.start c src act) s = onChannel s (commandWord (.start c src act)) c onlyReady k := by
  cases ha : trigActOfBits act with
  | none => exact absurd ((trigActOfBits_none_iff act).1 ha) h
  | some a => exact ⟨_, by simp only [exec, execStart, ha]; rfl⟩

/-- Settles O10: each command is its effect behind the checks with its rule's tags. -/
theorem channelChecksInOrder : Obligations.ChannelChecksInOrder := by
  intro s i c tags hneeds hwf hfifo
  cases i with
  | split | memrd | memwr | csenter | csexit | cellput | cellborrow | cellrelease | iret =>
    cases hneeds
  | init =>
    cases hneeds
    exact checksFirst_of_onChannel rfl mem_of_onlyUninitialized
  | reset | bind =>
    cases hneeds
    exact checksFirst_of_onChannel rfl mem_of_onlyReady
  | xferdone | free | restart | wait =>
    cases hneeds
    exact checksFirst_of_onChannel rfl mem_of_onlyBusy
  | intenset | intenclr | chkclr | callback =>
    cases hneeds
    exact checksFirst_of_onChannel rfl mem_of_anyStatus
  | setburst | setthr =>
    cases hneeds
    have hchip : ¬ s.params.hasBurstFifo = false := by simp [hfifo rfl]
    exact checksFirst_of_onChannel (if_neg hchip) mem_of_onlyReady
  | start c src act =>
    cases hneeds
    obtain ⟨k, hk⟩ := exec_start_eq (by simpa [Instr.wf] using hwf) c src s
    exact checksFirst_of_onChannel hk mem_of_onlyReady

end Sys2Proof.Machine
end

section
/-! # Proofs of the channel state machine's family (40_channel_state_machine.md) -/

namespace Sys2Proof.Machine

open Sys2Proof.Safety

/-! ## A command whose checks pass (R109) -/

/-- A command on a channel that allows it is its effect. -/
theorem onChannel_allows {s : State} {w : Word} {c : Chan} {tag : Status} {allowed : Status → Bool}
    {k : StepResult} (h : allows s c tag) (ht : allowed tag = true) :
    onChannel s w c allowed k = k := by
  obtain ⟨hc, ho, hs, htag⟩ := h
  exact onChannel_pass hc ho hs (by rw [htag, ht])

/-- What the checks read besides the tag lies in the frame of a command on the channel. -/
theorem allows_of_channelFrame {s t : State} {c : Chan} {tag tag' : Status}
    (hf : channelFrame c s t) (h : allows s c tag) (ht : (t.ch c).status = tag') :
    allows t c tag' := by
  have hctx := channelFrame_ctx hf
  obtain ⟨_, _, hsplit, ⟨hloc, hby, _⟩, _, _, ⟨hp, _⟩, _⟩ := hf
  obtain ⟨hc, ho, hs, _⟩ := h
  exact ⟨by rwa [hp], by rwa [hctx, owner_congr hloc hby], by rwa [hsplit], ht⟩

/-- A logged write of a register of channel c, after which the context goes on. -/
theorem registerWrite_effect {s t : State} {c : Chan} {f : PortField} {v : Word} {x : Channel}
    (ht : t = ((s.logWrite c f v).setCh c x).advance 1) :
    t.ch c = x ∧ t.cur = { s.cur with pc := s.cur.pc + 1 }
      ∧ t.log = s.log ++ [.write c f (.val v)] ∧ channelFrame c s t := by
  subst ht
  exact ⟨by simp, by simp, by simp, channelFrame_advance 1
    (channelFrame_setCh x (channelFrame_logWrite c f v (channelFrame_refl c s)))⟩

/-! ## SPLIT (R120) -/

theorem exec_split_notOwner {s : State} (h : owner s s.ctx = false) :
    exec .split s = raise s .notOwner (commandWord .split) := if_pos h

/-- SPLIT by the owner: `split` is set, and the channels are retagged if it was not. -/
theorem exec_split_owner {s : State} (ho : owner s s.ctx = true) :
    exec .split s = .next (({ s with
      split := true
      chans := if s.split = false then splitChannels s.params s.chans else s.chans } :
        State).advance 1) := by
  cases hs : s.split with
  | false => simp [exec, execSplit, ho, hs]
  | true =>
    have hsame : ({ s with split := true, chans := s.chans } : State) = s := by rw [← hs]
    simp [exec, execSplit, ho, hs, hsame]

/-- Settles O12: the channels that exist are retagged by the first SPLIT only, and the rest of the
block is not among what SPLIT writes. -/
theorem splitCreatesChannelsOnce : Obligations.SplitCreatesChannelsOnce := by
  intro s
  refine ⟨encodedAs_split, fun hno => (exec_split_notOwner hno).trans (raise_eq _ _ _), fun ho =>
    ⟨_, exec_split_owner ho, by simp, fun c => ?_, advance_cur _ 1, by simp,
      advance_ctxOf_ne _ 1 (otherCtx_ne s.ctx), by simp [sameSlot], by simp [sameInterrupts],
      by simp [sameMemory], by simp [sameLaunch], by simp⟩⟩
  rw [advance_ch]
  cases hs : s.split with
  | false => simpa using ch_splitChannels s true c
  | true => simp [State.ch]

/-! ## The software reset: INIT and RESET (R121 to R127) -/

theorem exec_init_allowed {s : State} {c : Chan} (lvl : BitVec 2) (h : allows s c .uninitialized) :
    exec (.init c lvl) s = .next (issueReset s c (.initWait c lvl)) := onChannel_allows h rfl

theorem exec_reset_allowed {s : State} {c : Chan} (h : allows s c .ready) :
    exec (.reset c) s = .next (issueReset s c (.resetWait c)) := onChannel_allows h rfl

@[simp] theorem issueReset_ch (s : State) (c : Chan) (k : Hold) :
    (issueReset s c k).ch c = { s.ch c with swrst := true } := by simp [issueReset]

@[simp] theorem issueReset_cur (s : State) (c : Chan) (k : Hold) :
    (issueReset s c k).cur = { s.cur with hold := some k } := by simp [issueReset]

@[simp] theorem issueReset_log (s : State) (c : Chan) (k : Hold) :
    (issueReset s c k).log = s.log ++ [.write c .swrst (.val 1)] := by simp [issueReset]

theorem channelFrame_issueReset {c : Chan} {s t : State} (k : Hold) (h : channelFrame c s t) :
    channelFrame c s (issueReset t c k) :=
  channelFrame_setHold _ (channelFrame_setCh _ (channelFrame_logWrite _ _ _ h))

/-- Settles O13: both issue steps are `issueReset` behind the channel checks. -/
theorem initAndResetIssueStartsReset : Obligations.InitAndResetIssueStartsReset := by
  intro s c lvl issued
  have hissued : ∀ i k, exec i s = .next (issueReset s c k) → issued i k := fun _ k he =>
    ⟨_, he, issueReset_ch s c k, issueReset_cur s c k, issueReset_log s c k,
      channelFrame_issueReset k (channelFrame_refl c s)⟩
  exact ⟨encodedAs_init c lvl, encodedAs_reset c,
    channelChecksInOrder s (.init c lvl) c _ rfl rfl nofun,
    fun h => hissued _ _ (exec_init_allowed lvl h),
    channelChecksInOrder s (.reset c) c _ rfl rfl nofun,
    fun h => hissued _ _ (exec_reset_allowed h)⟩

/-! ### The end of a hold -/

@[simp] theorem endHold_ch (s : State) (c : Chan) : (endHold s).ch c = s.ch c := by simp [endHold]

@[simp] theorem endHold_cur (s : State) :
    (endHold s).cur = { s.cur with hold := none, pc := s.cur.pc + 1 } := by simp [endHold]

@[simp] theorem endHold_log (s : State) : (endHold s).log = s.log := by simp [endHold]

theorem channelFrame_endHold {c : Chan} {s t : State} (h : channelFrame c s t) :
    channelFrame c s (endHold t) := channelFrame_advance 1 (channelFrame_setHold none h)

/-! ### The polls of SWRST -/

theorem pollInit_waiting {s : State} {c : Chan} (lvl : BitVec 2) (h : (s.ch c).swrst = true) :
    pollInit s c lvl = s.logRead c .swrst 1 := by simp [pollInit, h, bitValue]

theorem pollInit_done {s : State} {c : Chan} (lvl : BitVec 2) (h : (s.ch c).swrst = false) :
    pollInit s c lvl =
      endHold (((s.logRead c .swrst 0).logWrite c .prilvl (lvl.zeroExtend 32)).setCh c
        { s.ch c with prilvl := lvl, status := .ready }) := by simp [pollInit, h, bitValue]

theorem pollReset_waiting {s : State} {c : Chan} (h : (s.ch c).swrst = true) :
    pollReset s c = s.logRead c .swrst 1 := by simp [pollReset, h, bitValue]

theorem pollReset_done {s : State} {c : Chan} (h : (s.ch c).swrst = false) :
    pollReset s c =
      endHold ((s.logRead c .swrst 0).setCh c { s.ch c with status := .uninitialized }) := by
  simp [pollReset, h, bitValue]

theorem channelFrame_pollInit {c : Chan} {s t : State} (lvl : BitVec 2) (h : channelFrame c s t) :
    channelFrame c s (pollInit t c lvl) := by
  cases hw : (t.ch c).swrst with
  | true =>
    rw [pollInit_waiting lvl hw]
    exact channelFrame_logRead _ _ _ h
  | false =>
    rw [pollInit_done lvl hw]
    exact channelFrame_endHold (channelFrame_setCh _ (channelFrame_logWrite _ _ _
      (channelFrame_logRead _ _ _ h)))

theorem channelFrame_pollReset {c : Chan} {s t : State} (h : channelFrame c s t) :
    channelFrame c s (pollReset t c) := by
  cases hw : (t.ch c).swrst with
  | true =>
    rw [pollReset_waiting hw]
    exact channelFrame_logRead _ _ _ h
  | false =>
    rw [pollReset_done hw]
    exact channelFrame_endHold (channelFrame_setCh _ (channelFrame_logRead _ _ _ h))

/-- Settles O14: each poll by the value of SWRST it reads. -/
theorem initAndResetPollSwrst : Obligations.InitAndResetPollSwrst := by
  intro s c lvl again free
  refine ⟨fun hh => ⟨_, contextStep_held hh, channelFrame_pollInit lvl (channelFrame_refl c s),
      fun h1 => ?_, fun h0 => ?_⟩,
    fun hh => ⟨_, contextStep_held hh, channelFrame_pollReset (channelFrame_refl c s),
      fun h1 => ?_, fun h0 => ?_⟩⟩
  · simp [again, pollStep, pollInit_waiting lvl h1]
  · simp [free, pollStep, pollInit_done lvl h0]
  · simp [again, pollStep, pollReset_waiting h1]
  · simp [free, pollStep, pollReset_done h0]

/-! ### A whole INIT or RESET -/

/-- A reset that was issued and that the engine has completed (R240): the port holds the values after
SWRST, and the context polls. -/
theorem issuedReset_completed {s : State} {c : Chan} (k : Hold) :
    (engineRst (issueReset s c k) c).ch c = channelAtReset (s.ch c).status (s.ch c).prilvl
      ∧ (engineRst (issueReset s c k) c).cur.hold = some k
      ∧ channelFrame c s (engineRst (issueReset s c k) c) :=
  ⟨by simp [engineRst, resetChannel_eq], by simp [engineRst],
    channelFrame_setCh _ (channelFrame_issueReset k (channelFrame_refl c s))⟩

/-- INIT from its issue to its end. -/
theorem init_completes {s : State} {c : Chan} (lvl : BitVec 2) (h : allows s c .uninitialized) :
    ∃ s1 s3, exec (.init c lvl) s = .next s1 ∧ contextStep (engineRst s1 c) = .next s3
      ∧ s3.ch c = channelAtReset .ready lvl ∧ channelFrame c s s3 := by
  obtain ⟨hch, hhold, hframe⟩ := issuedReset_completed (s := s) (c := c) (.initWait c lvl)
  refine ⟨_, _, exec_init_allowed lvl h, contextStep_held hhold, ?_,
    channelFrame_pollInit lvl hframe⟩
  have hclear : ((engineRst (issueReset s c (.initWait c lvl)) c).ch c).swrst = false := by
    rw [hch]
    rfl
  rw [pollStep, pollInit_done lvl hclear, endHold_ch, ch_setCh_same, hch]
  rfl

/-- RESET from its issue to its end. -/
theorem reset_completes {s : State} {c : Chan} (h : allows s c .ready) :
    ∃ s1 s3, exec (.reset c) s = .next s1 ∧ contextStep (engineRst s1 c) = .next s3
      ∧ s3.ch c = channelAtReset .uninitialized (s.ch c).prilvl := by
  obtain ⟨hch, hhold, _⟩ := issuedReset_completed (s := s) (c := c) (.resetWait c)
  refine ⟨_, _, exec_reset_allowed h, contextStep_held hhold, ?_⟩
  have hclear : ((engineRst (issueReset s c (.resetWait c)) c).ch c).swrst = false := by
    rw [hch]
    rfl
  rw [pollStep, pollReset_done hclear, endHold_ch, ch_setCh_same, hch]
  rfl

/-- Settles O15: INIT leaves a channel that allows RESET, and RESET keeps the level INIT stored. -/
theorem initThenResetKeepsRegisters : Obligations.InitThenResetKeepsRegisters := by
  intro s c lvl _ h
  obtain ⟨s1, s3, hinit, hpoll, hch3, hframe⟩ := init_completes lvl h
  have hready : allows s3 c .ready := allows_of_channelFrame hframe h (by rw [hch3]; rfl)
  obtain ⟨s4, s6, hreset, hpoll', hch6⟩ := reset_completes hready
  refine ⟨s1, _, s3, s4, _, s6, hinit, rfl, hpoll, hreset, rfl, hpoll', hch3, ?_⟩
  rw [hch6, hch3]
  rfl

/-! ## SETBURST, SETTHR and START (R128 to R135) -/

theorem exec_setburst_allowed {s : State} {c : Chan} (blen : BitVec 4)
    (hp : s.params.hasBurstFifo = true) (h : allows s c .ready) :
    exec (.setburst c blen) s = .next (((s.logWrite c .burstlen (blen.zeroExtend 32)).setCh c
      { s.ch c with burstlen := blen }).advance 1) :=
  (if_neg (by simp [hp])).trans (onChannel_allows h rfl)

theorem exec_setthr_allowed {s : State} {c : Chan} (thr : BitVec 2)
    (hp : s.params.hasBurstFifo = true) (h : allows s c .ready) :
    exec (.setthr c thr) s = .next (((s.logWrite c .threshold (thr.zeroExtend 32)).setCh c
      { s.ch c with threshold := thr }).advance 1) :=
  (if_neg (by simp [hp])).trans (onChannel_allows h rfl)

/-- Settles O16: without the FIFO both are illegal; with it each is one register's write. -/
theorem burstAndThresholdStored : Obligations.BurstAndThresholdStored := by
  intro s c blen thr
  exact ⟨encodedAs_setburst c blen, encodedAs_setthr c thr,
    fun hp => ⟨exec_without_burstFifo rfl hp, exec_without_burstFifo rfl hp⟩,
    fun hp => ⟨channelChecksInOrder s (.setburst c blen) c _ rfl rfl fun _ => hp,
      channelChecksInOrder s (.setthr c thr) c _ rfl rfl fun _ => hp⟩,
    fun hp h => ⟨⟨_, exec_setburst_allowed blen hp h, registerWrite_effect rfl⟩,
      ⟨_, exec_setthr_allowed thr hp h, registerWrite_effect rfl⟩⟩⟩

theorem exec_start_illegal (s : State) (c : Chan) (src : BitVec 7) :
    exec (.start c src 3) s = raise s .illegalCommand (commandWord (.start c src 3)) := rfl

theorem exec_start_allowed {s : State} {c : Chan} (src : BitVec 7) (a : TrigAct)
    (h : allows s c .ready) :
    exec (.start c src (trigActCode a)) s =
      .next (((logStart s c src a).setCh c (startChannel (s.ch c) src a)).advance 1) := by
  simp only [exec, execStart, trigActOfBits_trigActCode]
  exact onChannel_allows h rfl

theorem logStart_log (s : State) (c : Chan) (src : BitVec 7) (a : TrigAct) :
    (logStart s c src a).log = s.log
      ++ [.write c .trigsrc (.val (src.zeroExtend 32)),
          .write c .trigact (.val ((trigActCode a).zeroExtend 32)), .write c .enable (.val 1)]
      ++ (if src = 0 then [.write c .swtrig (.val 1)] else []) := by
  unfold logStart
  dsimp only
  split <;> simp

@[simp] theorem logStart_cur (s : State) (c : Chan) (src : BitVec 7) (a : TrigAct) :
    (logStart s c src a).cur = s.cur := by
  unfold logStart
  dsimp only
  split <;> rfl

theorem channelFrame_logStart (s : State) (c : Chan) (src : BitVec 7) (a : TrigAct) :
    channelFrame c s (logStart s c src a) := by
  unfold logStart
  dsimp only
  split <;> exact channelFrame_refl c s

/-- Settles O17: START's log, its channel, and the one action that is no command. -/
theorem startEnablesChannel : Obligations.StartEnablesChannel := by
  intro s c src act
  refine ⟨encodedAs_start c src act, ?_, fun hact => ?_, ?_⟩
  · rintro rfl
    exact exec_start_illegal s c src
  · exact channelChecksInOrder s (.start c src act) c _ rfl (by simpa [Instr.wf] using hact) nofun
  · rintro a rfl h
    exact ⟨_, exec_start_allowed src a h, by simp [startChannel], by simp, by simp [logStart_log],
      channelFrame_advance 1 (channelFrame_setCh _ (channelFrame_logStart s c src a))⟩

/-! ## XFERDONE, FREE and RESTART (R138 to R150) -/

theorem exec_xferdone_allowed {s : State} {c : Chan} (h : allows s c .busy) :
    exec (.xferdone c) s = .next (((s.logRead c .enable (bitValue (s.ch c).enable)).setRes
      (if (s.ch c).enable then 0 else 1)).advance 1) := onChannel_allows h rfl

/-- Settles O18: XFERDONE reads ENABLE and writes the result alone. -/
theorem xferdoneReadsEnable : Obligations.XferdoneReadsEnable := by
  intro s c
  refine ⟨encodedAs_xferdone c, channelChecksInOrder s (.xferdone c) c _ rfl rfl nofun, fun h =>
    ⟨_, exec_xferdone_allowed h, by simp, ?_, by simp [bitValue], channelFrame_advance 1
      (channelFrame_setRes _ (channelFrame_logRead _ _ _ (channelFrame_refl c s)))⟩⟩
  cases he : (s.ch c).enable <;> simp

theorem exec_free_allowed {s : State} {c : Chan} (h : allows s c .busy) :
    exec (.free c) s = .next (((s.logWrite c .enable 0).setCh c (requestDisable (s.ch c))).setHold
      (some (.freeWait c))) := onChannel_allows h rfl

theorem requestDisable_eq (ch : Channel) :
    requestDisable ch = { ch with disableReq := ch.disableReq || ch.enable } := by
  cases he : ch.enable <;> simp [requestDisable, he]

/-- Settles O19: FREE's issue step is the request behind the channel checks. -/
theorem freeIssueRequestsDisable : Obligations.FreeIssueRequestsDisable := by
  intro s c
  exact ⟨encodedAs_free c, channelChecksInOrder s (.free c) c _ rfl rfl nofun, fun h =>
    ⟨_, exec_free_allowed h, by simp [requestDisable_eq], by simp, by simp,
      channelFrame_setHold _ (channelFrame_setCh _ (channelFrame_logWrite _ _ _
        (channelFrame_refl c s)))⟩⟩

theorem pollFree_waiting {s : State} {c : Chan} (h : (s.ch c).enable = true) :
    pollFree s c = s.logRead c .enable 1 := by simp [pollFree, h, bitValue]

theorem pollFree_done {s : State} {c : Chan} (h : (s.ch c).enable = false) :
    pollFree s c =
      endHold ((s.logRead c .enable 0).setCh c { s.ch c with status := .ready, bound := false }) := by
  simp [pollFree, h, bitValue]

theorem channelFrame_pollFree {c : Chan} {s t : State} (h : channelFrame c s t) :
    channelFrame c s (pollFree t c) := by
  cases hw : (t.ch c).enable with
  | true =>
    rw [pollFree_waiting hw]
    exact channelFrame_logRead _ _ _ h
  | false =>
    rw [pollFree_done hw]
    exact channelFrame_endHold (channelFrame_setCh _ (channelFrame_logRead _ _ _ h))

/-- Settles O20: FREE's poll by the value of ENABLE it reads. -/
theorem freePollReturnsBuffers : Obligations.FreePollReturnsBuffers := by
  intro s c hh
  refine ⟨_, contextStep_held hh, channelFrame_pollFree (channelFrame_refl c s), fun h1 => ?_,
    fun h0 => ?_⟩
  · simp [pollStep, pollFree_waiting h1]
  · simp [pollStep, pollFree_done h0]

theorem exec_restart_allowed {s : State} {c : Chan} (h : allows s c .busy) :
    exec (.restart c) s =
      .next (((s.logWrite c .enable 1).setCh c (restartChannel (s.ch c))).advance 1) :=
  onChannel_allows h rfl

/-- Settles O21: one logged write of ENABLE, and the cases of `restartChannel`. -/
theorem restartResumesOrReruns : Obligations.RestartResumesOrReruns := by
  intro s c
  refine ⟨encodedAs_restart c, channelChecksInOrder s (.restart c) c _ rfl rfl nofun, fun h => ?_⟩
  obtain ⟨t, hexec, ht⟩ : ∃ t, exec (.restart c) s = .next t ∧
      t = ((s.logWrite c .enable 1).setCh c (restartChannel (s.ch c))).advance 1 :=
    ⟨_, exec_restart_allowed h, rfl⟩
  obtain ⟨hch, hcur, hlog, hframe⟩ := registerWrite_effect ht
  refine ⟨t, hexec, fun hs => ?_, fun hs he hb => ?_, fun hs he hb => ?_,
    fun hs he => ?_, hcur, hlog, hframe⟩ <;> rw [hch, restartChannel]
  · rw [if_pos hs]
  · rw [if_neg (by simp [hs]), if_pos he, if_pos hb]
  · rw [if_neg (by simp [hs]), if_pos he, if_neg (by simp [hb])]
  · rw [if_neg (by simp [hs]), if_neg (by simp [he])]

end Sys2Proof.Machine
end

section
/-! # Proofs of the transfer coordinator's family (41_transfer_coordinator.md)

## The memory commands: MEMRD and MEMWR (R171, R176 to R178) -/

namespace Sys2Proof.Machine

open Sys2Proof.Safety

/-! ### The races (R171, R178) -/

/-- The bytes of an end of a channel's transfer, as offsets from its base (R171). -/
theorem inRange_rangeLen_iff (ch : Channel) (base : Word) (inc : Bool) (x : Word) :
    inRange base (rangeLen ch inc) x = true ↔
      ∃ k : Nat, k < 2 ^ (sizeCode ch.dSize).toNat * (if inc = true then ch.dCnt.toNat else 1)
        ∧ x = base + BitVec.ofNat 32 k := by
  rw [inRange_iff, ← rangeLen_eq]
  constructor
  · rintro ⟨k, hk, _, hx⟩
    exact ⟨k, hk, hx⟩
  · rintro ⟨k, hk, hx⟩
    exact ⟨k, hk, hk.trans (rangeLen_lt ch inc), hx⟩

/-- The conditions on the channel of a race, brought together. -/
theorem exists_busyBound_iff (s : State) (n : Nat) (P : Chan → Nat → Prop) :
    (∃ c : Chan, c.toNat < s.params.numChannels ∧ (s.ch c).status = .busy ∧
        ∃ i, i < n ∧ (s.ch c).bound = true ∧ P c i) ↔
      ∃ (c : Chan) (i : Nat), i < n ∧ (c.toNat < s.params.numChannels ∧ (s.ch c).status = .busy
        ∧ (s.ch c).bound = true) ∧ P c i := by
  constructor
  · rintro ⟨c, hc, hbusy, i, hi, hbound, hP⟩
    exact ⟨c, i, hi, ⟨hc, hbusy, hbound⟩, hP⟩
  · rintro ⟨c, i, hi, ⟨hc, hbusy, hbound⟩, hP⟩
    exact ⟨c, hc, hbusy, i, hi, hbound, hP⟩

/-- Settles O25: the ranges by their offsets, and the bound descriptor of both ends taken out. -/
theorem racesAreBusyRanges : Obligations.RacesAreBusyRanges := by
  intro s a n inEnd busyBound
  constructor
  · simp only [raceRead_iff, inDestRange, Bool.and_eq_true, inRange_rangeLen_iff]
    exact exists_busyBound_iff s n fun c i =>
      inEnd (s.ch c).dDst (s.ch c).dDinc (s.ch c) (a + BitVec.ofNat 32 i)
  · simp only [raceWrite_iff, inSourceRange, inDestRange, Bool.and_eq_true, inRange_rangeLen_iff,
      ← and_or_left]
    exact exists_busyBound_iff s n fun c i =>
      inEnd (s.ch c).dSrc (s.ch c).dSinc (s.ch c) (a + BitVec.ofNat 32 i)
        ∨ inEnd (s.ch c).dDst (s.ch c).dDinc (s.ch c) (a + BitVec.ofNat 32 i)

/-! ### The checks before an access (R176, R177) -/

/-- An access of size n at addr: its three faults in order, before its effect. -/
def checkedAccess (s : State) (w addr : Word) (n : Size) (race : Bool) (k : StepResult) :
    StepResult :=
  if aligned addr n = false then raise s .misaligned w
  else if anyByte (isDev s.params) addr (sizeBytes n) = true then raise s .deviceAccess w
  else if race = true then raise s .bufferRace w
  else k

/-- A byte of an access of size n at addr is a device's (R68). -/
abbrev touchesDevice (p : Params) (addr : Word) (n : Size) : Prop :=
  ∃ i : Nat, i < 2 ^ (sizeCode n).toNat ∧ isDev p (addr + BitVec.ofNat 32 i) = true

/-- MEMRD with a legal size is its read behind the checks. -/
theorem exec_memrd_eq (s : State) (n : Size) (addr : Word) :
    exec (.memrd (sizeCode n) addr) s =
      checkedAccess s (commandWord (.memrd (sizeCode n) addr)) addr n
        (raceRead s addr (2 ^ (sizeCode n).toNat))
        (.next ((s.setRes (memRead s.mem addr n)).advance 2)) := by
  simp only [exec, execMemrd, sizeOfBits_sizeCode, checkedAccess, ← sizeBytes_eq]

/-- MEMWR with a legal size is its store behind the checks. -/
theorem exec_memwr_eq (s : State) (n : Size) (addr data : Word) :
    exec (.memwr (sizeCode n) addr data) s =
      checkedAccess s (commandWord (.memwr (sizeCode n) addr data)) addr n
        (raceWrite s addr (2 ^ (sizeCode n).toNat))
        (.next (({ s with mem := memWrite s.mem addr n data } : State).advance 3)) := by
  simp only [exec, execMemwr, sizeOfBits_sizeCode, checkedAccess, ← sizeBytes_eq]

/-- Every size but the reserved one is the number of a size (R98). -/
theorem exists_sizeCode {size : BitVec 2} (h : size ≠ 3) : ∃ n, size = sizeCode n := by
  cases hs : sizeOfBits size with
  | none => exact absurd ((sizeOfBits_none_iff size).1 hs) h
  | some n => exact ⟨n, (sizeOfBits_some hs).symm⟩

/-- A command behind the checks of its access: the first check that fails raises its fault. -/
theorem checkedAccess_inOrder {i : Instr} {s : State} {addr : Word} {n : Size} {race : Bool}
    {k : StepResult} (he : exec i s = checkedAccess s (commandWord i) addr n race k) :
    (addr.toNat % 2 ^ (sizeCode n).toNat ≠ 0 → raises i s .misaligned none)
      ∧ (addr.toNat % 2 ^ (sizeCode n).toNat = 0 → touchesDevice s.params addr n →
          raises i s .deviceAccess none)
      ∧ (addr.toNat % 2 ^ (sizeCode n).toNat = 0 → ¬ touchesDevice s.params addr n → race = true →
          raises i s .bufferRace none)
      ∧ (addr.toNat % 2 ^ (sizeCode n).toNat = 0 → ¬ touchesDevice s.params addr n → race = false →
          exec i s = k) := by
  rw [touchesDevice, ← sizeBytes_eq, ← anyByte_iff, sizeBytes_eq, ← aligned_iff]
  rw [checkedAccess, sizeBytes_eq] at he
  refine ⟨fun hmis => ?_, fun hal hdev => ?_, fun hal hdev hrace => ?_, fun hal hdev hrace => ?_⟩
  · exact he.trans (if_pos (by rwa [← Bool.not_eq_true, aligned_iff]))
  · exact he.trans ((if_neg (by simp [hal])).trans (if_pos hdev))
  · exact he.trans ((if_neg (by simp [hal])).trans ((if_neg hdev).trans (if_pos hrace)))
  · exact he.trans ((if_neg (by simp [hal])).trans ((if_neg hdev).trans (if_neg (by simp [hrace]))))

/-! ### The bytes read and stored (R61) -/

theorem extractLsb'_memRead (m : Memory) (a : Word) (n : Size) {i : Nat} (hi : i < 4) :
    (memRead m a n).extractLsb' (8 * i) 8 =
      if i < 2 ^ (sizeCode n).toNat then readByte m (a + BitVec.ofNat 32 i).toNat else 0 := by
  simp only [memRead, wordOfBytes_byte _ i hi, readBytes_length, readBytes_getElem, sizeBytes_eq,
    dite_eq_ite]

theorem readByte_memWrite_at (m : Memory) (a v : Word) (n : Size) {i : Nat}
    (hi : i < 2 ^ (sizeCode n).toNat) :
    readByte (memWrite m a n v) (a + BitVec.ofNat 32 i).toNat = v.extractLsb' (8 * i) 8 := by
  have hmax : sizeBytes n ≤ 4294967296 := by cases n <;> decide
  rw [← sizeBytes_eq] at hi
  rw [memWrite, readByte_writeBytes_at _ _ _ _ (by rwa [bytesOfWord_length])
    (by rwa [bytesOfWord_length]), bytesOfWord_getElem]

theorem readByte_memWrite_other (m : Memory) (a v : Word) (n : Size) {b : Nat}
    (h : ∀ i, i < 2 ^ (sizeCode n).toNat → b ≠ (a + BitVec.ofNat 32 i).toNat) :
    readByte (memWrite m a n v) b = readByte m b :=
  readByte_writeBytes_other _ _ _ _ (by rwa [bytesOfWord_length, sizeBytes_eq])

/-! ### The two commands -/

/-- Settles O26: the checks in order, and the bytes of `memRead`. -/
theorem memrdReadsOrFaults : Obligations.MemrdReadsOrFaults := by
  intro s size addr
  refine ⟨encodedAs_memrd size addr, ?_, fun hsize => ?_⟩
  · rintro rfl
    rfl
  · obtain ⟨n, rfl⟩ := exists_sizeCode hsize
    obtain ⟨hmis, hdev, hrace, hpass⟩ := checkedAccess_inOrder (exec_memrd_eq s n addr)
    exact ⟨hmis, hdev, hrace, fun hal hnd hnr => ⟨_, memRead s.mem addr n, hpass hal hnd hnr,
      fun i hi => extractLsb'_memRead s.mem addr n hi, by simp,
      memoryFrame_advance 2 (memoryFrame_setRes _ (memoryFrame_refl s)), by simp [sameMemory]⟩⟩

/-- Settles O27: the checks in order, and the bytes of `memWrite`. -/
theorem memwrWritesOrFaults : Obligations.MemwrWritesOrFaults := by
  intro s size addr data
  refine ⟨encodedAs_memwr size addr data, ?_, fun hsize => ?_⟩
  · rintro rfl
    rfl
  · obtain ⟨n, rfl⟩ := exists_sizeCode hsize
    obtain ⟨hmis, hdev, hrace, hpass⟩ := checkedAccess_inOrder (exec_memwr_eq s n addr data)
    refine ⟨hmis, hdev, hrace, fun hal hnd hnr => ⟨_, hpass hal hnd hnr, fun i hi => ?_,
      fun b hb => ?_, advance_cur _ 3,
      memoryFrame_advance 3 (memoryFrame_mem _ (memoryFrame_refl s))⟩⟩ <;> rw [advance_mem]
    · exact readByte_memWrite_at s.mem addr data n hi
    · exact readByte_memWrite_other s.mem addr data n hb

end Sys2Proof.Machine
end

section
/-! # Proofs of the transfer coordinator's family: BIND and WAIT (R170 to R173) -/

namespace Sys2Proof.Machine

open Sys2Proof.Safety

/-! ## BIND (R100, R170) -/

/-- The count and control words that no descriptor has (R100), over their bits as numbers. -/
abbrev badDescriptorWords (cnt ctl : Word) : Prop :=
  cnt.toNat / 65536 ≠ 0 ∨ cnt.toNat % 65536 = 0 ∨ ctl.toNat / 16 ≠ 0 ∨ ctl.toNat % 4 = 3

/-- The descriptor of four words, with its beat size given (R100). -/
def descriptorOfSize (src dst cnt ctl : Word) (size : Size) : Descriptor :=
  ⟨src, dst, cnt.extractLsb' 0 16, size, ctl.getLsbD 2, ctl.getLsbD 3⟩

theorem badWords_iff (cnt ctl : Word) :
    badDescriptorWords cnt ctl ↔
      (cnt.extractLsb' 16 16 ≠ 0 ∨ cnt.extractLsb' 0 16 = 0 ∨ ctl.extractLsb' 4 28 ≠ 0)
        ∨ ctl.extractLsb' 0 2 = 3 := by
  rw [Ne, high_zero_iff cnt 16 16 rfl, Ne, high_zero_iff ctl 4 28 rfl, ← BitVec.toNat_inj,
    ← BitVec.toNat_inj, toNat_field, toNat_field]
  simp [badDescriptorWords, or_assoc]

/-- Bad words form no descriptor. -/
theorem descriptorOf_of_bad {cnt ctl : Word} (src dst : Word) (h : badDescriptorWords cnt ctl) :
    descriptorOf src dst cnt ctl = none := by
  unfold descriptorOf
  rcases (badWords_iff cnt ctl).1 h with hwords | hsize
  · exact if_pos hwords
  · rw [(sizeOfBits_none_iff _).2 hsize, ite_self]

/-- Any other words form the descriptor of their fields. -/
theorem descriptorOf_of_good {cnt ctl : Word} (src dst : Word) (h : ¬ badDescriptorWords cnt ctl) :
    ∃ size, (sizeCode size).toNat = ctl.toNat % 4
      ∧ descriptorOf src dst cnt ctl = some (descriptorOfSize src dst cnt ctl size) := by
  rw [badWords_iff, not_or] at h
  obtain ⟨hwords, hsize⟩ := h
  obtain ⟨size, hcode⟩ := exists_sizeCode hsize
  refine ⟨size, by rw [← hcode, toNat_field]; simp, ?_⟩
  unfold descriptorOf
  rw [if_neg hwords, hcode, sizeOfBits_sizeCode]
  rfl

theorem isAligned_eq_false_iff (d : Descriptor) :
    d.isAligned = false ↔
      d.src.toNat % 2 ^ (sizeCode d.size).toNat ≠ 0
        ∨ d.dst.toNat % 2 ^ (sizeCode d.size).toNat ≠ 0 := by
  rw [← Bool.not_eq_true, Descriptor.isAligned, Bool.and_eq_true, aligned_iff, aligned_iff,
    not_and_or]

theorem exec_bind_bad {s : State} {c : Chan} {cnt ctl : Word} (src dst : Word)
    (h : allows s c .ready) (hbad : badDescriptorWords cnt ctl) :
    exec (.bind c src dst cnt ctl) s =
      raise s .badDescriptor (commandWord (.bind c src dst cnt ctl)) := by
  simp only [exec, execBind, descriptorOf_of_bad src dst hbad]
  exact onChannel_allows h rfl

theorem exec_bind_good {s : State} {c : Chan} {cnt ctl : Word} (src dst : Word)
    (h : allows s c .ready) (hgood : ¬ badDescriptorWords cnt ctl) :
    ∃ size, (sizeCode size).toNat = ctl.toNat % 4 ∧ exec (.bind c src dst cnt ctl) s =
      if src.toNat % 2 ^ (ctl.toNat % 4) ≠ 0 ∨ dst.toNat % 2 ^ (ctl.toNat % 4) ≠ 0 then
        raise s .misaligned (commandWord (.bind c src dst cnt ctl))
      else .next (((s.logDesc c src dst cnt ctl).setCh c
        (bindChannel (s.ch c) (descriptorOfSize src dst cnt ctl size))).advance 5) := by
  obtain ⟨size, hcode, hd⟩ := descriptorOf_of_good src dst hgood
  refine ⟨size, hcode, ?_⟩
  simp only [exec, execBind, hd, isAligned_eq_false_iff, ← hcode]
  exact onChannel_allows h rfl

/-- Settles O22: bad words, or a descriptor whose addresses are checked before it is stored. -/
theorem bindChecksAndWritesDescriptor : Obligations.BindChecksAndWritesDescriptor := by
  intro s c src dst cnt ctl
  refine ⟨encodedAs_bind c src dst cnt ctl, channelChecksInOrder s (.bind c src dst cnt ctl) c _ rfl
    rfl nofun, fun h => ⟨exec_bind_bad src dst h, fun hgood hmis => ?_, fun hgood hal => ?_⟩⟩
  · obtain ⟨_, _, hexec⟩ := exec_bind_good src dst h hgood
    exact hexec.trans (if_pos hmis)
  · obtain ⟨size, hcode, hexec⟩ := exec_bind_good src dst h hgood
    exact ⟨_, size, hexec.trans (if_neg hal), hcode, by simp [bindChannel, descriptorOfSize],
      by simp, by simp, channelFrame_advance 5 (channelFrame_setCh _ (channelFrame_logDesc _ _ _ _ _
        (channelFrame_refl c s)))⟩

/-! ## WAIT (R172, R173) -/

theorem exec_wait_allowed {s : State} {c : Chan} (h : allows s c .busy) :
    exec (.wait c) s =
      if (s.ch c).bound = false then raise s .notBound (commandWord (.wait c))
      else .next (s.setHold (some (.waitPoll c))) := onChannel_allows h rfl

theorem pollWait_waiting {s : State} {c : Chan} (h : (s.ch c).enable = true) :
    pollWait s c = s.logRead c .enable 1 := by simp [pollWait, h, bitValue]

theorem pollWait_done {s : State} {c : Chan} (h : (s.ch c).enable = false) :
    pollWait s c =
      ((s.logRead c .enable 0).logWrite c .enable 0).setHold (some (.freeWait c)) := by
  simp [pollWait, h, bitValue]

@[simp] theorem pollWait_ch (s : State) (c d : Chan) : (pollWait s c).ch d = s.ch d := by
  unfold pollWait
  dsimp only
  split <;> simp

theorem channelFrame_pollWait {c : Chan} {s t : State} (h : channelFrame c s t) :
    channelFrame c s (pollWait t c) := by
  cases hw : (t.ch c).enable with
  | true =>
    rw [pollWait_waiting hw]
    exact channelFrame_logRead _ _ _ h
  | false =>
    rw [pollWait_done hw]
    exact channelFrame_setHold _ (channelFrame_logWrite _ _ _ (channelFrame_logRead _ _ _ h))

/-- Settles O23: the issue step by the binding, the poll by the value of ENABLE it reads; the poll
that reads 0 is followed by FREE's. -/
theorem waitParksThenTurnsIntoFree : Obligations.WaitParksThenTurnsIntoFree := by
  intro s c
  refine ⟨encodedAs_wait c, channelChecksInOrder s (.wait c) c _ rfl rfl nofun,
    fun h => ⟨fun hb => ?_, fun hb => ?_⟩, fun hh => ⟨pollWait s c, contextStep_held hh,
      channelFrame_pollWait (channelFrame_refl c s), pollWait_ch s c c, fun h1 => ?_, fun h0 => ?_⟩⟩
  · exact (exec_wait_allowed h).trans (if_pos hb)
  · exact ⟨_, (exec_wait_allowed h).trans (if_neg (by simp [hb])), by simp, by simp, by simp,
      channelFrame_setHold _ (channelFrame_refl c s)⟩
  · simp [pollWait_waiting h1]
  · have hdone := pollWait_done h0
    have hhold : (pollWait s c).cur.hold = some (.freeWait c) := by simp [hdone]
    have hfree := pollFree_done (s := pollWait s c) (c := c) (by simpa using h0)
    refine ⟨by simp [hdone], by simp [hdone], pollFree (pollWait s c) c, contextStep_held hhold,
      channelFrame_pollFree (channelFrame_refl c _), ?_, ?_, ?_⟩ <;> rw [hfree]
    · simp
    · simp [hdone]
    · simp

end Sys2Proof.Machine
end

section
/-! # Proofs of the interrupt flags' family (42_interrupt_flag_decoder.md) -/

namespace Sys2Proof.Machine

open Sys2Proof.Safety

/-! ## A command that is legal in every tag (R109) -/

/-- A command that is legal in every tag is its effect once the other checks pass. -/
theorem onChannel_anyStatus {s : State} {w : Word} {c : Chan} {k : StepResult} (h : allowsAny s c) :
    onChannel s w c anyStatus k = k := by
  obtain ⟨hc, ho, hs⟩ := h
  exact onChannel_pass hc ho hs rfl

/-! ## INTENSET and INTENCLR (R190, R191) -/

theorem exec_intenset_allowed {s : State} {c : Chan} (mask : FlagSet) (h : allowsAny s c) :
    exec (.intenset c mask) s = .next (((s.logWrite c .intenset (flagsValue mask)).setCh c
      { s.ch c with inten := (s.ch c).inten ||| mask }).advance 1) := onChannel_anyStatus h

theorem exec_intenclr_allowed {s : State} {c : Chan} (mask : FlagSet) (h : allowsAny s c) :
    exec (.intenclr c mask) s = .next (((s.logWrite c .intenclr (flagsValue mask)).setCh c
      { s.ch c with inten := clearFlags (s.ch c).inten mask }).advance 1) := onChannel_anyStatus h

/-- Settles O29: both are one logged register write behind the channel checks. -/
theorem interruptEnablesSetAndCleared : Obligations.InterruptEnablesSetAndCleared := by
  intro s c mask
  exact ⟨encodedAs_intenset c mask, encodedAs_intenclr c mask,
    (channelChecksInOrder s (.intenset c mask) c _ rfl rfl nofun).1,
    (channelChecksInOrder s (.intenclr c mask) c _ rfl rfl nofun).1,
    fun h => ⟨⟨_, exec_intenset_allowed mask h, registerWrite_effect rfl⟩,
      ⟨_, exec_intenclr_allowed mask h, registerWrite_effect rfl⟩⟩⟩

/-! ## One step that reads INTFLAG and clears flags of it (R192, R195) -/

/-- INTFLAG is read, the flags r are cleared by writing 1 to them, and RES takes a result. -/
def readAndClear (s : State) (c : Chan) (r : FlagSet) (res : Word) : State :=
  ((((s.logRead c .intflag (flagsValue (s.ch c).intflag)).logWrite c .intflag
    (flagsValue r)).setCh c { s.ch c with intflag := clearFlags (s.ch c).intflag r }).setRes
      res).advance 1

theorem readAndClear_effect {s t : State} {c : Chan} {r : FlagSet} {res : Word}
    (ht : t = readAndClear s c r res) :
    t.ch c = { s.ch c with intflag := (s.ch c).intflag &&& ~~~r }
      ∧ t.cur = { s.cur with res := res, pc := s.cur.pc + 1 }
      ∧ t.log = s.log ++ [.read c .intflag (.val ((s.ch c).intflag.zeroExtend 32)),
          .write c .intflag (.val (r.zeroExtend 32))]
      ∧ channelFrame c s t := by
  subst ht
  exact ⟨by simp [readAndClear, clearFlags], by simp [readAndClear],
    by simp [readAndClear, flagsValue], channelFrame_advance 1 (channelFrame_setRes res
      (channelFrame_setCh _ (channelFrame_logWrite _ _ _ (channelFrame_logRead _ _ _
        (channelFrame_refl c s)))))⟩

/-! ## CHKCLR (R192, R193) -/

theorem exec_chkclr_allowed {s : State} {c : Chan} (mask : FlagSet) (h : allowsAny s c) :
    exec (.chkclr c mask) s = .next (readAndClear s c ((s.ch c).intflag &&& mask)
      (flagsValue ((s.ch c).intflag &&& mask))) := onChannel_anyStatus h

/-- Clearing the requested flags that are set leaves what clearing all requested flags leaves. -/
theorem and_not_requested (f mask : FlagSet) : f &&& ~~~(f &&& mask) = f &&& ~~~mask := by
  rw [BitVec.not_and, BitVec.and_or_distrib_left, BitVec.and_not_self]
  exact BitVec.zero_or

/-- Settles O30: CHKCLR reads INTFLAG and clears the requested flags that are set. -/
theorem chkclrReturnsWhatItClears : Obligations.ChkclrReturnsWhatItClears := by
  intro s c mask
  refine ⟨encodedAs_chkclr c mask, (channelChecksInOrder s (.chkclr c mask) c _ rfl rfl nofun).1,
    fun h => ⟨_, exec_chkclr_allowed mask h, ?_⟩⟩
  rw [← and_not_requested]
  exact readAndClear_effect rfl

/-! ## CALLBACK (R194, R195) -/

/-- A report that clears its flag. -/
theorem exec_callback_clears {s : State} {c : Chan} {report : CallbackStatus} {r : FlagSet}
    (h : allowsAny s c) (hd : decodeFlags (s.ch c).intflag = (report, some r)) :
    exec (.callback c) s = .next (readAndClear s c r (callbackCode report)) := by
  simp only [exec, execCallback, hd]
  exact onChannel_anyStatus h

/-- A report that clears no flag. -/
theorem exec_callback_keeps {s : State} {c : Chan} {report : CallbackStatus}
    (h : allowsAny s c) (hd : decodeFlags (s.ch c).intflag = (report, none)) :
    exec (.callback c) s =
      .next (((s.logRead c .intflag (flagsValue (s.ch c).intflag)).setRes
        (callbackCode report)).advance 1) := by
  simp only [exec, execCallback, hd]
  exact onChannel_anyStatus h

theorem decodeFlags_tcmpl {f : FlagSet} (h1 : f.getLsbD 1 = true) :
    decodeFlags f = (.transferComplete, some flagTcmpl) := if_pos h1

theorem decodeFlags_terr {f : FlagSet} (h1 : f.getLsbD 1 = false) (h0 : f.getLsbD 0 = true) :
    decodeFlags f = (.transferError, some flagTerr) := by
  rw [decodeFlags, if_neg (Bool.eq_false_iff.1 h1), if_pos h0]

theorem decodeFlags_susp {f : FlagSet} (h1 : f.getLsbD 1 = false) (h0 : f.getLsbD 0 = false)
    (h2 : f.getLsbD 2 = true) : decodeFlags f = (.transferSuspended, some flagSusp) := by
  rw [decodeFlags, if_neg (Bool.eq_false_iff.1 h1), if_neg (Bool.eq_false_iff.1 h0), if_pos h2]

theorem decodeFlags_zero : decodeFlags 0 = (.transferError, none) := rfl

/-- Settles O31: each report is the decoder's, and a report's flag is cleared in the step that read
INTFLAG. -/
theorem callbackReportsInOrder : Obligations.CallbackReportsInOrder := by
  intro s c
  refine ⟨encodedAs_callback c, (channelChecksInOrder s (.callback c) c _ rfl rfl nofun).1,
    fun h => ?_⟩
  intro f report
  have hclears : ∀ status r, decodeFlags f = (status, some r) →
      report (callbackCode status) (some r) := fun _ _ hd =>
    ⟨_, exec_callback_clears h hd, readAndClear_effect rfl⟩
  refine ⟨fun h1 => hclears _ _ (decodeFlags_tcmpl h1),
    fun h1 h0 => hclears _ _ (decodeFlags_terr h1 h0),
    fun h1 h0 h2 => hclears _ _ (decodeFlags_susp h1 h0 h2), fun hf => ?_⟩
  have hd : decodeFlags (s.ch c).intflag = (.transferError, none) :=
    (congrArg decodeFlags hf).trans decodeFlags_zero
  have hkeep : f &&& ~~~0 = f := BitVec.and_allOnes
  refine ⟨_, exec_callback_keeps h hd, ?_, by simp [callbackCode], by simp [flagsValue, f],
    channelFrame_advance 1 (channelFrame_setRes _ (channelFrame_logRead _ _ _
      (channelFrame_refl c s)))⟩
  rw [Option.getD_none, hkeep]
  simp [f]

end Sys2Proof.Machine
end

section
/-! # Proofs of the shared controller registry's family (43_shared_controller_registry.md) -/

namespace Sys2Proof.Machine

open Sys2Proof.Safety

/-! ## Who holds the controller (R222, R225, R226) -/

/-- A borrow lies inside an open section of its holder (R45 d), and a section keeps the mask set
(R45 e). -/
theorem primask_of_borrowed {s : State} {x : Ctx} (hborrow : borrowInv s) (hmask : maskInv s)
    (hx : s.borrowedBy = some x) : s.primask = true := by
  obtain ⟨hpos, hle⟩ := hborrow x hx
  have hopen : (s.ctxOf x).csStack ≠ [] := List.ne_nil_of_length_pos (hpos.trans hle)
  exact (hmask x).1 hopen

/-- An interrupt is taken only with the mask clear (R313). -/
theorem primask_of_entryEnabled {s : State} {v : VecNum} (h : pickEnabled s (.entry v) = true) :
    s.primask = false := by
  simp only [pickEnabled, entryEnabled, Bool.and_eq_true, Bool.not_eq_true'] at h
  obtain ⟨_, ⟨⟨⟨_, hclear⟩, _⟩, _⟩, _⟩ := h
  exact hclear

/-- Settles O59: a borrow keeps the mask set, an entry needs it clear, and a context that does not
run holds no borrow. -/
theorem borrowHolderExcludesOther : Obligations.BorrowHolderExcludesOther := by
  rintro s ⟨_, hborrow, hmask, ⟨hnoHandler, hinHandler⟩, hhold, _⟩
  refine ⟨fun hb => ⟨primask_of_borrowed hborrow hmask hb, ?_⟩, fun hb hn => ?_, fun hh => ?_, ?_⟩
  · by_contra hn
    exact (hinHandler hn).2 hb
  · obtain ⟨_, _, hfree⟩ := hnoHandler hn
    exact hfree hb
  · obtain ⟨k, hk⟩ := Option.ne_none_iff_exists'.1 hh
    exact (hhold .main k hk).1
  · rintro ⟨_, v, rfl, he⟩
    refine Option.eq_none_iff_forall_ne_some.2 fun x hx => ?_
    have hset := primask_of_borrowed hborrow hmask hx
    rw [primask_of_entryEnabled he] at hset
    cases hset

/-- Settles O11: the two owners of one state are one context. -/
theorem oneOwner : Obligations.OneOwner := fun s x =>
  ⟨owner_iff s x, fun ⟨hmain, hisr⟩ => nomatch owner_unique hmain hisr⟩

/-! ## The critical sections (R210, R212) -/

/-- A section is opened or closed, after which the context goes on. -/
theorem sectionWrite_effect {s t : State} {l : List Bool} {m : Bool}
    (ht : t = ({ s.setCsStack l with primask := m } : State).advance 1) :
    t.primask = m ∧ t.isrActive = s.isrActive
      ∧ t.cur = { s.cur with csStack := l, pc := s.cur.pc + 1 }
      ∧ sameSlot s t ∧ registryFrame s t := by
  subst ht
  have hcur : ({ s.setCsStack l with primask := m } : State).cur = { s.cur with csStack := l } :=
    setCsStack_cur s l
  have hctx : ({ s.setCsStack l with primask := m } : State).ctx = s.ctx := setCsStack_ctx s l
  exact ⟨by simp, by simp, by rw [advance_cur, hcur], by simp [sameSlot],
    registryFrame_advance 1 hctx
      (registryFrame_slot _ _ _ m (registryFrame_setCsStack l rfl (registryFrame_refl s)))⟩

/-- Settles O32: CSENTER is one write of the sections and the mask. -/
theorem csenterSavesMask : Obligations.CsenterSavesMask := fun _ =>
  ⟨encodedAs_csenter, _, rfl, sectionWrite_effect rfl⟩

/-- With no section open, CSEXIT has none to close. -/
theorem exec_csexit_noSection {s : State} (h : s.cur.csStack = []) :
    exec .csexit s = raise s .csUnderflow (commandWord .csexit) := by
  simp only [exec, execCsexit, h, List.getLast?_nil]

/-- With a section open, CSEXIT closes it unless its borrow is still held. -/
theorem exec_csexit_section {s : State} {rest : List Bool} {saved : Bool}
    (h : s.cur.csStack = rest ++ [saved]) :
    exec .csexit s =
      if s.borrowedBy = some s.ctx ∧ s.cur.csStack.length = s.borrowDepth then
        raise s .borrowOutlivesCS (commandWord .csexit)
      else .next (({ s.setCsStack rest with primask := saved } : State).advance 1) := by
  simp only [exec, execCsexit, h, List.getLast?_concat, List.dropLast_concat]

/-- Settles O33: CSEXIT faults, or is one write of the sections and the mask. -/
theorem csexitRestoresMask : Obligations.CsexitRestoresMask := fun _ =>
  ⟨encodedAs_csexit, exec_csexit_noSection, fun _ _ hcs =>
    ⟨fun hb => (exec_csexit_section hcs).trans (if_pos hb), fun hb =>
      ⟨_, (exec_csexit_section hcs).trans (if_neg hb), sectionWrite_effect rfl⟩⟩⟩

/-! ## The slot (R215, R217, R220) -/

/-- The controller moves or a borrow begins or ends, after which the context goes on. -/
theorem slotWrite_effect {s t : State} {l : CtrlLoc} {b : Option Ctx} {d : Nat}
    (ht : t = ({ s with ctrlLoc := l, borrowedBy := b, borrowDepth := d } : State).advance 1) :
    t.ctrlLoc = l ∧ t.borrowedBy = b ∧ t.borrowDepth = d
      ∧ t.cur = { s.cur with pc := s.cur.pc + 1 } ∧ sameInterrupts s t ∧ registryFrame s t := by
  subst ht
  exact ⟨by simp, by simp, by simp, advance_cur _ 1, by simp [sameInterrupts],
    registryFrame_advance 1 rfl (registryFrame_slot l b d s.primask (registryFrame_refl s))⟩

/-- Settles O34: the two checks of R215 in order, then one write of the slot. -/
theorem cellputMovesController : Obligations.CellputMovesController := by
  refine fun s => ⟨encodedAs_cellput, fun hcs => if_pos hcs,
    fun hcs hno => (if_neg hcs).trans (if_pos hno), fun hcs hx hl => ?_⟩
  have hown : ¬ (s.ctx ≠ .main ∨ s.ctrlLoc ≠ .main) := by simp [hx, hl]
  exact ⟨_, (if_neg hcs).trans (if_neg hown), slotWrite_effect rfl⟩

/-- Settles O35: the three checks of R217 in order, then one write of the slot. -/
theorem cellborrowTakesSlot : Obligations.CellborrowTakesSlot := fun _ =>
  ⟨encodedAs_cellborrow, fun hcs => if_pos hcs,
    fun hcs hl => (if_neg hcs).trans (if_pos hl),
    fun hcs hl hb => (if_neg hcs).trans ((if_neg (not_not.2 hl)).trans (if_pos hb)),
    fun hcs hl hb => ⟨_, (if_neg hcs).trans ((if_neg (not_not.2 hl)).trans (if_neg (not_not.2 hb))),
      slotWrite_effect rfl⟩⟩

/-- Settles O36: the check of R220, then one write of the slot. -/
theorem cellreleaseEndsBorrow : Obligations.CellreleaseEndsBorrow := fun _ =>
  ⟨encodedAs_cellrelease, fun hb => if_pos hb,
    fun hb => ⟨_, if_neg (not_not.2 hb), slotWrite_effect rfl⟩⟩

/-! ## IRET (R227) -/

/-- Settles O37: the three checks of R227 in order, then the return, which writes `isr_active`
alone. -/
theorem iretReturnsToMain : Obligations.IretReturnsToMain := by
  refine fun s => ⟨encodedAs_iret, fun hx => if_pos (by simp [hx]),
    fun hx hb => (if_neg (not_not.2 hx)).trans (if_pos hb),
    fun hx hb hcs => (if_neg (not_not.2 hx)).trans ((if_neg hb).trans (if_pos hcs)),
    fun hx hb hcs => ?_⟩
  have hret : exec .iret s = .next (returnFromInterrupt s) :=
    (if_neg (not_not.2 hx)).trans ((if_neg hb).trans (if_neg (not_not.2 hcs)))
  exact ⟨_, hret, by simp [sameSlot, sameChannels, sameMemory, sameLaunch]⟩

end Sys2Proof.Machine
end

section
/-! # Proofs of the DMA engine's family (44_dma_engine_agent.md) -/

namespace Sys2Proof.Machine

open Sys2Proof.Safety

/-! ## The preconditions (R240 to R253) -/

/-- Only a machine without a fault has an enabled pick (R300). -/
theorem fault_none_of_pickEnabled {s : State} {p : Pick} (he : pickEnabled s p = true) :
    s.fault = none := by
  simp only [pickEnabled, Bool.and_eq_true, Option.isNone_iff_eq_none] at he
  exact he.1

theorem engineReady_iff (s : State) (c : Chan) :
    engineReady s c = true ↔ c.toNat < s.params.numChannels ∧ s.params.clockReady = true := by
  simp [engineReady, chanValid]

theorem takesTriggers_iff (ch : Channel) :
    takesTriggers ch = true ↔
      ch.enable = true ∧ ch.suspended = false ∧ ch.disableReq = false := by
  simp [takesTriggers, and_assoc]

theorem pickEnabled_eRst_iff (s : State) (c : Chan) :
    pickEnabled s (.eRst c) = true ↔
      s.fault = none ∧ c.toNat < s.params.numChannels ∧ s.params.clockReady = true
        ∧ (s.ch c).swrst = true := by
  simp [pickEnabled, rstEnabled, engineReady_iff, and_assoc]

theorem pickEnabled_eSwt_iff (s : State) (c : Chan) :
    pickEnabled s (.eSwt c) = true ↔
      s.fault = none ∧ c.toNat < s.params.numChannels ∧ s.params.clockReady = true
        ∧ (s.ch c).enable = true ∧ (s.ch c).suspended = false ∧ (s.ch c).disableReq = false
        ∧ (s.ch c).swtrig = true := by
  simp [pickEnabled, swtEnabled, engineReady_iff, takesTriggers_iff, and_assoc]

theorem pickEnabled_ePtrig_iff (s : State) (c : Chan) :
    pickEnabled s (.ePtrig c) = true ↔
      s.fault = none ∧ c.toNat < s.params.numChannels ∧ s.params.clockReady = true
        ∧ (s.ch c).enable = true ∧ (s.ch c).suspended = false ∧ (s.ch c).disableReq = false
        ∧ (s.ch c).trigsrc ≠ 0 := by
  simp [pickEnabled, ptrigEnabled, engineReady_iff, takesTriggers_iff, and_assoc]

theorem pickEnabled_eErr_iff (s : State) (c : Chan) :
    pickEnabled s (.eErr c) = true ↔
      s.fault = none ∧ c.toNat < s.params.numChannels ∧ s.params.clockReady = true
        ∧ s.params.mayError = true ∧ (s.ch c).enable = true ∧ (s.ch c).auth ≠ 0 := by
  simp [pickEnabled, errEnabled, engineReady_iff, and_assoc]

theorem pickEnabled_eSusp_iff (s : State) (c : Chan) :
    pickEnabled s (.eSusp c) = true ↔
      s.fault = none ∧ c.toNat < s.params.numChannels ∧ s.params.clockReady = true
        ∧ s.params.maySuspend = true ∧ (s.ch c).enable = true ∧ (s.ch c).suspended = false
        ∧ (s.ch c).disableReq = false ∧ (s.ch c).burstLeft = 0 := by
  simp [pickEnabled, suspEnabled, engineReady_iff, takesTriggers_iff, and_assoc]

theorem pickEnabled_eDack_iff (s : State) (c : Chan) :
    pickEnabled s (.eDack c) = true ↔
      s.fault = none ∧ c.toNat < s.params.numChannels ∧ s.params.clockReady = true
        ∧ (s.ch c).disableReq = true ∧ (s.ch c).burstLeft = 0 := by
  simp [pickEnabled, dackEnabled, engineReady_iff, and_assoc]

/-- Every engine step needs the clock (R253). -/
theorem clockReady_of_pickEnabled {s : State} {c : Chan} {p : Pick} (hp : p ∈ enginePicks c)
    (he : pickEnabled s p = true) : s.params.clockReady = true := by
  simp only [enginePicks, List.mem_cons, List.not_mem_nil, or_false] at hp
  rcases hp with rfl | rfl | rfl | rfl | rfl | rfl | rfl
  all_goals
    simp only [pickEnabled_eRst_iff, pickEnabled_eSwt_iff, pickEnabled_ePtrig_iff,
      pickEnabled_eBeat_iff, pickEnabled_eErr_iff, pickEnabled_eSusp_iff,
      pickEnabled_eDack_iff] at he
    obtain ⟨_, _, hclock, _⟩ := he
    exact hclock

/-- Settles O46: the scheduler's idle pick, and the clock that every engine step needs. -/
theorem noClockNoEngineStep : Obligations.NoClockNoEngineStep := by
  refine fun s => ⟨fun p => agentStep_disabled, fun hclock c p hp => ?_⟩
  have hdis : pickEnabled s p = false := by
    by_contra he
    have hready := clockReady_of_pickEnabled hp (by simpa using he)
    rw [hclock] at hready
    cases hready
  exact ⟨hdis, agentStep_disabled hdis⟩

/-! ## The frame of every engine step (R256) -/

theorem engineFrame_refl (c : Chan) (s : State) : engineFrame c s s := by
  simpa only [setCh_self] using engineFrame_setCh s c (s.ch c) rfl

/-- Settles O47: an engine step that is not enabled changes nothing; an enabled one has the one form
of `engine_effect`, with or without the latches of R311. -/
theorem engineStepsLeaveContexts : Obligations.EngineStepsLeaveContexts := by
  intro s t c p hp h
  rcases agentStep_cases h with ⟨_, rfl⟩ | ⟨_, u, hu, rfl⟩
  · exact engineFrame_refl c t
  · obtain ⟨x, m, d, f, heffect, hx⟩ := engine_effect s c p hp
    obtain rfl := Host.Outcome.next.inj (heffect.symm.trans hu)
    have hframe := engineFrame_write s c x m d f hx
    split
    · exact hframe
    · exact engineFrame_latchPending hframe

/-! ## The steps that write only their channel (R240, R249, R250, R252) -/

/-- Settles O38: E_RST writes the reset channel. -/
theorem engineResetClearsChannel : Obligations.EngineResetClearsChannel := fun s c =>
  ⟨pickEnabled_eRst_iff s c, fun he => by
    rw [← resetChannel_eq]
    exact engine_writes_channel he rfl rfl⟩

/-- Settles O43: E_ERR writes the failed channel. -/
theorem environmentErrorStopsChannel : Obligations.EnvironmentErrorStopsChannel := fun s c =>
  ⟨pickEnabled_eErr_iff s c, fun he => by
    rw [← failChannel_eq]
    exact engine_writes_channel he (failChannel_status _) rfl⟩

/-- Stopping a channel sets no flag (R241, R252). -/
theorem stopChannel_eq (ch : Channel) : stopChannel ch = stoppedWith 0 ch := by
  simp [stopChannel, stoppedWith]

/-- Settles O45: E_DACK writes the stopped channel. -/
theorem disableAcknowledgedAtBoundary : Obligations.DisableAcknowledgedAtBoundary := fun s c =>
  ⟨pickEnabled_eDack_iff s c, fun he => by
    rw [← stopChannel_eq]
    exact engine_writes_channel he (stopChannel_status _) rfl⟩

/-- The engine steps a suspended channel does not take (R251). -/
theorem suspended_false_of_pickEnabled {s : State} {c : Chan} {p : Pick}
    (hp : p ∈ [Pick.eSwt c, .ePtrig c, .eBeat c, .eSusp c]) (he : pickEnabled s p = true) :
    (s.ch c).suspended = false := by
  simp only [List.mem_cons, List.not_mem_nil, or_false] at hp
  rcases hp with rfl | rfl | rfl | rfl
  · obtain ⟨_, _, _, _, hsusp, _⟩ := (pickEnabled_eSwt_iff s c).1 he
    exact hsusp
  · obtain ⟨_, _, _, _, hsusp, _⟩ := (pickEnabled_ePtrig_iff s c).1 he
    exact hsusp
  · obtain ⟨_, _, _, _, hsusp, _⟩ := (pickEnabled_eBeat_iff s c).1 he
    exact hsusp
  · obtain ⟨_, _, _, _, _, hsusp, _⟩ := (pickEnabled_eSusp_iff s c).1 he
    exact hsusp

/-- Settles O44: E_SUSP writes two fields of its channel, and the four steps that R251 excludes each
need a channel that is not suspended. -/
theorem suspendKeepsTransfer : Obligations.SuspendKeepsTransfer := by
  refine fun s c => ⟨pickEnabled_eSusp_iff s c, fun he => engine_writes_channel he rfl rfl,
    fun hsusp p hp => ?_⟩
  by_contra he
  have hnot := suspended_false_of_pickEnabled hp (by simpa using he)
  rw [hsusp] at hnot
  cases hnot

/-! ## Triggers (R241 to R244) -/

/-- A trigger releases at least one beat while beats remain (R244). -/
theorem releaseBeats_pos (p : Params) {ch : Channel} (hr : ch.rem ≠ 0) :
    1 ≤ (releaseBeats p ch).toNat := by
  have hpos : ch.rem.toNat ≠ 0 := fun e => hr (BitVec.eq_of_toNat_eq e)
  have := burstBeats_bounds p ch
  rw [toNat_releaseBeats]
  split <;> omega

/-- A channel that takes a trigger is enabled (R242, R243). -/
theorem enable_of_trigger {s : State} {c : Chan}
    (he : pickEnabled s (.eSwt c) = true ∨ pickEnabled s (.ePtrig c) = true) :
    (s.ch c).enable = true := by
  simp only [pickEnabled, Bool.and_eq_true] at he
  rcases he with ⟨_, he⟩ | ⟨_, he⟩
  · exact enable_of_swtEnabled he
  · exact enable_of_ptrigEnabled he

/-- Settles O39: k(c) by the trigger action; beats remain in a bound channel that is enabled, by
R45. -/
theorem releaseSizeByTrigact : Obligations.ReleaseSizeByTrigact := by
  refine ⟨fun p ch => ⟨fun ha => ?_, fun ha => ?_, fun ha => ?_, fun hr hz => ?_⟩,
    fun s c hinv hbound he => ?_⟩
  · simp [toNat_releaseBeats, ha]
  · simp [toNat_releaseBeats, ha, burstBeats_eq]
  · simp [releaseBeats, ha]
  · have hpos := releaseBeats_pos p hr
    rw [hz] at hpos
    cases hpos
  · obtain ⟨hchan, _⟩ := hinv
    obtain ⟨_, _, _, _, hrem⟩ := hchan c
    exact releaseBeats_pos _ (hrem hbound (.inr (enable_of_trigger he)))

theorem triggerChannel_unbound (p : Params) {ch : Channel} (hb : ch.bound = false) :
    triggerChannel p ch = stoppedWith 0b001 ch := if_pos hb

theorem triggerChannel_released (p : Params) {ch : Channel} (hb : ch.bound = true)
    (ha : ch.auth = 0) : triggerChannel p ch = { ch with auth := releaseBeats p ch } :=
  (if_neg (by simp [hb])).trans (if_pos ha)

theorem triggerChannel_held (p : Params) {ch : Channel} (hb : ch.bound = true)
    (ha : ch.auth ≠ 0) : triggerChannel p ch = { ch with trigPend := true } :=
  (if_neg (by simp [hb])).trans (if_neg ha)

/-- The effect of a trigger, whichever pick takes it, on its channel as `before` the trigger
(R241). -/
theorem trigger_effect {s : State} {c : Chan} {p : Pick} {before : Channel}
    (he : pickEnabled s p = true) (htag : before.status = (s.ch c).status)
    (h : pickEffect s p = .next (s.setCh c (triggerChannel s.params before))) :
    ∃ t, agentStep p s = .next t
      ∧ (before.bound = false → t.ch c = stoppedWith 0b001 before)
      ∧ (before.bound = true → before.auth = 0 →
          t.ch c = { before with auth := releaseBeats s.params before })
      ∧ (before.bound = true → before.auth ≠ 0 → t.ch c = { before with trigPend := true })
      ∧ engineFrame c s t ∧ sameMemory s t ∧ t.drawIdx = s.drawIdx ∧ t.fault = none := by
  obtain ⟨t, ht, hch, hframe⟩ :=
    engine_writes_channel he ((triggerChannel_status _ _).trans htag) h
  exact ⟨t, ht, fun hb => hch.trans (triggerChannel_unbound _ hb),
    fun hb ha => hch.trans (triggerChannel_released _ hb ha),
    fun hb ha => hch.trans (triggerChannel_held _ hb ha), hframe⟩

/-- Settles O40: both triggers are `Trigger(c)`, E_SWT's after SWTRIG is cleared. -/
theorem triggerReleasesOrFails : Obligations.TriggerReleasesOrFails := by
  intro s c soft
  cases soft with
  | false => exact ⟨pickEnabled_ePtrig_iff s c, fun he => trigger_effect he rfl rfl⟩
  | true => exact ⟨pickEnabled_eSwt_iff s c, fun he => trigger_effect he rfl rfl⟩

/-! ## A beat that moves its bytes (R245, R247, R248) -/

/-- The channel when a beat has moved its bytes, before the end of the transfer or of the released
beats is looked at (R245). -/
def movedChannel (p : Params) (ch : Channel) : Channel :=
  { ch with
    curSrc := if ch.dSinc then ch.curSrc + BitVec.ofNat 32 (sizeBytes ch.dSize) else ch.curSrc
    curDst := if ch.dDinc then ch.curDst + BitVec.ofNat 32 (sizeBytes ch.dSize) else ch.curDst
    rem := ch.rem - 1
    auth := ch.auth - 1
    burstLeft := burstAtBeat p ch - 1 }

/-- The last beat sets TCMPL and stops the channel (R247). -/
theorem afterBeat_last {p : Params} {ch : Channel} (hr : (movedChannel p ch).rem = 0) :
    afterBeat p ch = stoppedWith 0b010 (movedChannel p ch) := if_pos hr

/-- A held trigger is taken when the released beats run out (R248). -/
theorem afterBeat_takesHeld {p : Params} {ch : Channel} (hr : (movedChannel p ch).rem ≠ 0)
    (ha : (movedChannel p ch).auth = 0) (ht : ch.trigPend = true) :
    afterBeat p ch =
      { movedChannel p ch with
        trigPend := false, auth := releaseBeats p (movedChannel p ch) } :=
  (if_neg hr).trans (if_pos ⟨ha, ht⟩)

theorem afterBeat_continues {p : Params} {ch : Channel} (hr : (movedChannel p ch).rem ≠ 0)
    (h : (movedChannel p ch).auth ≠ 0 ∨ ch.trigPend = false) :
    afterBeat p ch = movedChannel p ch := by
  have hn : ¬ ((movedChannel p ch).auth = 0 ∧ ch.trigPend = true) := by
    rintro ⟨ha, ht⟩
    rcases h with h | h
    · exact h ha
    · rw [ht] at h
      cases h
  exact (if_neg hr).trans (if_neg hn)

/-- A burst with released beats is not empty (R245). -/
theorem burstAtBeat_pos (p : Params) {ch : Channel} (ha : ch.auth ≠ 0) :
    1 ≤ (burstAtBeat p ch).toNat := by
  have hpos : ch.auth.toNat ≠ 0 := fun e => ha (BitVec.eq_of_toNat_eq e)
  have := burstBeats_bounds p ch
  rw [toNat_burstAtBeat]
  split
  · omega
  next hl =>
    have : ch.burstLeft.toNat ≠ 0 := fun e => hl (BitVec.eq_of_toNat_eq e)
    omega

/-- The beats left in the burst after a beat, counted as numbers (R245). -/
theorem burstAtBeat_sub_one (p : Params) {ch : Channel} (ha : ch.auth ≠ 0) :
    burstAtBeat p ch - 1 = BitVec.ofNat 5 ((burstAtBeat p ch).toNat - 1) := by
  rw [← toNat_sub_one _ (burstAtBeat_pos p ha), BitVec.ofNat_toNat, BitVec.setWidth_eq]

/-- `movedChannel` with the burst counted as a number, which does not wrap where beats are released
(R27, R245). -/
theorem movedChannel_eq (p : Params) {ch : Channel} (ha : ch.auth ≠ 0) :
    movedChannel p ch =
      { movedChannel p ch with
        burstLeft := BitVec.ofNat 5
          ((if ch.burstLeft = 0 then
              min (if p.hasBurstFifo = true then ch.burstlen.toNat + 1 else 1) ch.auth.toNat
            else ch.burstLeft.toNat) - 1) } := by
  rw [← burstBeats_eq, ← toNat_burstAtBeat, ← burstAtBeat_sub_one p ha]
  rfl

/-- The step of a beat that moves its bytes: with both ends accessible and no code byte written, it
writes its channel, `Mem` and the draw counter (R245). -/
theorem beat_moves {s : State} {c : Chan} (he : pickEnabled s (.eBeat c) = true)
    (hacc : beatAccessible s.params (s.ch c) = true)
    (hmiss : beatHitsCode s.params (s.ch c) = false) :
    let loaded := beatLoad s.params s.mem s.drawIdx (s.ch c).curSrc (sizeBytes (s.ch c).dSize)
    ∃ t, agentStep (.eBeat c) s = .next t ∧ t.ch c = afterBeat s.params (s.ch c)
      ∧ t.mem = beatStore s.params s.mem (s.ch c).curDst loaded.1 ∧ t.drawIdx = loaded.2
      ∧ engineFrame c s t ∧ t.fault = none := by
  intro loaded
  have hfault := fault_none_of_pickEnabled he
  have hbeat : engineBeat s c =
      { s.setCh c (afterBeat s.params (s.ch c)) with
        mem := beatStore s.params s.mem (s.ch c).curDst loaded.1, drawIdx := loaded.2 } := by
    simp [engineBeat, hacc, hmiss, loaded]
  have hstep := agentStep_enabled he (congrArg Host.Outcome.next hbeat)
  rw [if_neg (by simp [hfault])] at hstep
  refine ⟨_, hstep, ?_, by simp, by simp, engineFrame_latchPending ?_, by simp [hfault]⟩
  · rw [latchPending_ch]
    exact ch_setCh_same s c _
  · exact engineFrame_write s c _ _ _ s.fault (afterBeat_status _ _)

/-- A byte of a beat's destination that is no device byte holds the byte read at the source: a fresh
draw, or the byte of `Mem` (R68, R245). -/
theorem readByte_beatStore_beatLoad (p : Params) (m : Memory) (k : Nat) (src dst : Word) {n i : Nat}
    (hn : n ≤ 4294967296) (hi : i < n) (hd : isDev p (dst + BitVec.ofNat 32 i) = false) :
    readByte (beatStore p m dst (beatLoad p m k src n).1) (dst + BitVec.ofNat 32 i).toNat =
      if isDev p (src + BitVec.ofNat 32 i) = true then
        Config.freeByte
          (k + ((List.range i).filter fun j => isDev p (src + BitVec.ofNat 32 j)).length)
      else readByte m (src + BitVec.ofNat 32 i).toNat := by
  have hlen := beatLoad_length p m k src n
  rw [readByte_beatStore_at p m dst _ i (by omega) (by omega) hd, beatLoad_getElem]

/-- R77: a beat whose every code byte is a device byte hits no code. -/
theorem beatHitsCode_eq_false {p : Params} {ch : Channel}
    (h : ∀ i < 2 ^ (sizeCode ch.dSize).toNat, isCode p (ch.curDst + BitVec.ofNat 32 i) = true →
      isDev p (ch.curDst + BitVec.ofNat 32 i) = true) :
    beatHitsCode p ch = false := by
  rw [← Bool.not_eq_true, beatHitsCode_iff]
  rintro ⟨i, hi, hcode, hdev⟩
  rw [h i hi hcode] at hdev
  cases hdev

/-- Settles O41: the bytes by the laws of a beat's load and store, the channel by the three ends of a
beat. -/
theorem beatMovesBytes : Obligations.BeatMovesBytes := by
  intro s c he ch n srcAt dstAt dev drawn bl burst moved hsrc hdst hcode
  obtain ⟨_, _, _, _, _, hauth, _⟩ := (pickEnabled_eBeat_iff s c).1 he
  have hsize : sizeBytes ch.dSize = n := sizeBytes_eq _
  have hn : n ≤ 4294967296 := by
    rw [← hsize]
    cases ch.dSize <;> decide
  have hmoved : movedChannel s.params ch = moved := by
    rw [movedChannel_eq s.params hauth, movedChannel, hsize]
  obtain ⟨t, ht, hch, hmem, hdraw, hframe, hfault⟩ :=
    beat_moves he ((beatAccessible_iff _ _).2 ⟨hsrc, hdst⟩) (beatHitsCode_eq_false hcode)
  rw [hsize] at hmem hdraw
  rw [← hmoved]
  refine ⟨t, ht, fun i hi hd => ?_, fun a ha => ?_, fun hr => hch.trans (afterBeat_last hr),
    fun hr ha hp => hch.trans (afterBeat_takesHeld hr ha hp),
    fun hr h => hch.trans (afterBeat_continues hr h), ?_, hframe, hfault⟩
  · rw [hmem]
    exact readByte_beatStore_beatLoad _ _ _ _ _ hn hi hd
  · rw [hmem]
    refine readByte_beatStore_other _ _ _ _ _ fun i hi => ha i ?_
    rwa [beatLoad_length] at hi
  · rw [hdraw, beatLoad_draws]

/-! ## A software reset completes (R240, R254) -/

theorem agentStep_params {p : Pick} {s t : State} (h : agentStep p s = .next t) :
    t.params = s.params := by
  rcases agentStep_cases h with ⟨_, rfl⟩ | ⟨_, u, hu, rfl⟩
  · rfl
  · obtain ⟨hparams, _⟩ := pickEffect_params_log hu
    split
    · exact hparams
    · rw [latchPending_params, hparams]

/-- The launch parameters are the same all along a run (R46). -/
theorem isRun_params {picks : Nat → Pick} {run : Nat → State} (hrun : isRun picks run) (n k : Nat) :
    (run (n + k)).params = (run n).params := by
  induction k with
  | zero => rfl
  | succ k ih => exact (agentStep_params (hrun (n + k))).trans ih

/-- Once E_RST is taken, SWRST reads 0 (R240). -/
theorem swrst_after_eRst {s t : State} {c : Chan} (he : pickEnabled s (.eRst c) = true)
    (h : agentStep (.eRst c) s = .next t) : (t.ch c).swrst = false := by
  obtain ⟨_, heffect⟩ := engineResetClearsChannel s c
  obtain ⟨u, hu, hch, _⟩ := heffect he
  obtain rfl := Host.Outcome.next.inj (h.symm.trans hu)
  rw [hch]
  rfl

/-- Settles O60: while SWRST stays 1, E_RST stays enabled, so a fair run takes it. -/
theorem fairRunCompletesReset : Obligations.FairRunCompletesReset := by
  intro picks run n c hrun hfair hfault hc hclock
  by_contra hnone
  have hset : ∀ m, n ≤ m → ((run m).ch c).swrst = true := fun m hm => by
    by_contra hclear
    exact hnone ⟨m, hm, by simpa using hclear⟩
  have hready : ∀ m, n ≤ m → pickEnabled (run m) (.eRst c) = true := by
    intro m hm
    obtain ⟨k, rfl⟩ := Nat.exists_eq_add_of_le hm
    rw [pickEnabled_eRst_iff, isRun_params hrun]
    exact ⟨hfault _, hc, hclock, hset _ hm⟩
  obtain ⟨m, hm, hpick⟩ := hfair (.eRst c) rfl n hready
  have hstep := hrun m
  rw [hpick] at hstep
  exact hnone ⟨m + 1, by omega, swrst_after_eRst (hready m hm) hstep⟩

end Sys2Proof.Machine
end

section
/-! # Proofs of the exceptions' family (60_exceptions.md) -/

namespace Sys2Proof.Machine

open Sys2Proof.Safety

/-! ## Faults and the end of a program (R300, R304) -/

/-- Settles O8: an enabled pick needs a machine without a fault. -/
theorem faultStopsEveryAgent : Obligations.FaultStopsEveryAgent := by
  refine fun s r hr => ⟨step_faulted hr, fun p => ?_⟩
  by_contra he
  have hnone : s.fault = none := fault_none_of_pickEnabled (by simpa using he)
  rw [hr] at hnone
  cases hnone

/-- Main ends at its program's end: it has no step there (R304, R315). -/
theorem contextEnabled_main_at_end {s : State} (hx : s.isrActive = none)
    (hh : s.cur.hold = none) (hpc : s.program.length ≤ s.cur.pc) : contextEnabled s = false := by
  obtain ⟨hctx, _⟩ := running_main hx
  simp [contextEnabled, hctx, hh, hpc]

/-- A free context at its program's end has nothing to fetch (R304). -/
theorem contextStep_at_end {s : State} (hh : s.cur.hold = none)
    (hpc : s.program.length ≤ s.cur.pc) : contextStep s = raise s .noIret 0 := by
  have hw : fetchWords s = [] := List.drop_eq_nil_of_le hpc
  simp only [contextStep, hh, issueStep, hw]

/-- Settles O9: Main has no step at its program's end; a handler always has one, and with nothing
to fetch it raises NoIret. -/
theorem programEndStopsOrFaults : Obligations.ProgramEndStopsOrFaults := by
  refine fun s hf hh hpc => ⟨fun hx => agentStep_disabled ?_, fun hx => ?_⟩
  · simp [pickEnabled, contextEnabled_main_at_end hx hh hpc]
  · obtain ⟨v, hv⟩ := Option.ne_none_iff_exists'.1 hx
    obtain ⟨hctx, hcur, _⟩ := running_isr hv
    have he : pickEnabled s .context = true := by simp [pickEnabled, contextEnabled, hf, hctx]
    rw [agentStep_enabled he (contextStep_at_end hh hpc)]
    simp [State.withFault, commandFault, hctx, hcur]

/-! ## The entry (R313) -/

theorem pickEnabled_entry_iff (s : State) (v : VecNum) :
    pickEnabled s (.entry v) = true ↔
      s.fault = none ∧ s.isrActive = none ∧ s.primask = false ∧ v.val ≤ s.params.numVectors
        ∧ s.nvicPend[v] = true ∧ s.params.vecEn[v] = true := by
  simp [pickEnabled, entryEnabled, vectorValid, and_assoc]

/-- The entry clears the latch of its own vector and no other (R311, R313). -/
theorem takeInterrupt_nvicPend (s : State) (v w : VecNum) :
    (takeInterrupt s v).nvicPend[w] = if w = v then false else s.nvicPend[w] := by
  simp only [takeInterrupt, Fin.getElem_fin, Vector.getElem_set, Fin.ext_iff, eq_comm]

/-- Settles O50: the enabled entry is `takeInterrupt`; the latches that follow it leave the vector
that is now active clear. -/
theorem entryStartsHandler : Obligations.EntryStartsHandler := by
  intro s v hf hx hmask hv hpend hen
  have he := (pickEnabled_entry_iff s v).2 ⟨hf, hx, hmask, hv, hpend, hen⟩
  have hclear : (latchPending (takeInterrupt s v)).nvicPend[v] = false := by
    rw [latchPending_nvicPend, takeInterrupt_nvicPend]
    simp
  have hstep := agentStep_enabled he rfl
  rw [if_neg (by simp [hf])] at hstep
  exact ⟨_, hstep, by simp, hclear,
    by simp [hf, sameChannels, sameSlot, sameMemory, sameLaunch]⟩

/-! ## Who changes the active vector (R313, R314, R227) -/

/-- Of the commands' effects only IRET's changes the active vector, to none (R227). -/
theorem issueEffect_isrActive {i : Instr} {s u : State} (e : IssueEffect i s u) :
    u.isrActive = s.isrActive ∨ u.isrActive = none := by
  cases e with
  | iret => exact .inr rfl
  | hold => exact .inl (by simp)
  | csenter | csexit => exact .inl (setCsStack_isrActive s _)
  | same | channel | start | split | cellput | cellborrow | cellrelease => exact .inl rfl

theorem pollEffect_isrActive {k : Hold} {s u : State} (e : PollEffect k s u) :
    u.isrActive = s.isrActive := by
  cases e with
  | waits => rfl
  | waitToFree | initEnds | resetEnds | freeEnds => simp

/-- A context makes no vector active. -/
theorem contextStep_isrActive {s t : State} (h : contextStep s = .next t) :
    t.isrActive = s.isrActive ∨ t.isrActive = none := by
  rcases contextStep_effect h with ⟨_, u, _, he, hu⟩ | ⟨_, _, u, _, _, he, hu⟩ | hu <;>
    rw [hu.isrActive]
  · exact .inl (pollEffect_isrActive he)
  · exact issueEffect_isrActive he
  · exact .inl rfl

/-- An effect that makes a vector active is the entry of that vector. -/
theorem pickEffect_isrActive {s t : State} {p : Pick} (h : pickEffect s p = .next t) :
    (t.isrActive = s.isrActive ∨ t.isrActive = none)
      ∨ ∃ v, p = .entry v ∧ t.isrActive = some v := by
  rcases pickEffect_cases h with ⟨_, hc⟩ | ⟨v, rfl, rfl⟩ | ⟨_, _, _, _, _, _, rfl, _⟩
  · exact .inl (contextStep_isrActive hc)
  · exact .inr ⟨v, rfl, rfl⟩
  · exact .inl (.inl rfl)

/-- Settles O51: a step that makes a vector active is an enabled entry of it. -/
theorem entryOnlyWhenUnmasked : Obligations.EntryOnlyWhenUnmasked := by
  intro s t h hne hsome
  rcases step_effect h with rfl | ⟨he, u, hu, ht⟩
  · exact absurd (dropPick_isrActive s).symm hne
  have htu : t.isrActive = u.isrActive := by rcases ht with rfl | rfl <;> simp
  rw [htu] at hne hsome ⊢
  rcases pickEffect_isrActive hu with (hsame | hnone) | ⟨v, hp, hv⟩
  · exact absurd (hsame.trans (dropPick_isrActive s)).symm hne
  · exact absurd hnone hsome
  · rw [hp] at he
    obtain ⟨_, hx, hmask, hvec, hpend, hen⟩ := (pickEnabled_entry_iff s v).1 he
    exact ⟨hx, hmask, v, hp, hv, hpend, hen, hvec⟩

/-! ## The pending latches (R310, R311) -/

/-- The vector exists, is not active and has a high line: its latch is set at the end of a step
(R310, R311). -/
def latchDue (s : State) (v : VecNum) : Prop :=
  v.val ≤ s.params.numVectors ∧ s.isrActive ≠ some v
    ∧ ∃ c : Chan, c.toNat < s.params.numChannels ∧ v.val = routeOf s.params c
      ∧ (s.ch c).intflag &&& (s.ch c).inten ≠ 0

theorem latchPending_nvicPend_iff (s : State) (v : VecNum) :
    (latchPending s).nvicPend[v] = true ↔ s.nvicPend[v] = true ∨ latchDue s v := by
  rw [latchPending_nvicPend, latchDue, Bool.or_eq_true, Bool.and_eq_true, Bool.and_eq_true,
    vectorLine_iff]
  simp only [vectorValid, decide_eq_true_eq, and_assoc, eq_comm (a := v.val)]

/-- The latches do not change what is due. -/
theorem latchDue_latchPending (s : State) (v : VecNum) :
    latchDue (latchPending s) v ↔ latchDue s v := by
  simp [latchDue]

/-- Before the latches follow the lines, only the entry of a vector touches that vector's latch, and
it clears it. -/
theorem pickEffect_nvicPend {s t : State} {p : Pick} (h : pickEffect s p = .next t) (v : VecNum) :
    t.nvicPend[v] = s.nvicPend[v] ∨ (p = .entry v ∧ t.nvicPend[v] = false) := by
  rcases pickEffect_cases h with ⟨_, hc⟩ | ⟨w, rfl, rfl⟩ | ⟨_, _, _, _, _, _, rfl, _⟩
  · obtain ⟨hk, _⟩ := contextStep_cases hc
    exact .inl (by rw [hk.nvicPend])
  · rw [takeInterrupt_nvicPend]
    split
    next e => exact .inr ⟨by rw [e], rfl⟩
    · exact .inl rfl
  · exact .inl rfl

/-- A latch at the end of an agent's step: it was set before, or it is due. -/
theorem agentStep_nvicPend {p : Pick} {s t : State} (h : agentStep p s = .next t) {v : VecNum}
    (hv : t.nvicPend[v] = true) : s.nvicPend[v] = true ∨ latchDue t v := by
  rcases agentStep_cases h with ⟨_, rfl⟩ | ⟨_, u, hu, ht⟩
  · exact .inl hv
  have hkept : u.nvicPend[v] = true → s.nvicPend[v] = true := fun hset => by
    rcases pickEffect_nvicPend hu v with e | ⟨_, e⟩
    · rwa [e] at hset
    · rw [e] at hset
      cases hset
  split at ht <;> subst ht
  · exact .inl (hkept hv)
  · rw [latchDue_latchPending]
    exact ((latchPending_nvicPend_iff u v).1 hv).imp_left hkept

/-- Every due latch is set at the end of an enabled step that raised no fault. -/
theorem agentStep_latches {p : Pick} {s t : State} (h : agentStep p s = .next t)
    (he : pickEnabled s p = true) (hf : t.fault = none) {v : VecNum} (hdue : latchDue t v) :
    t.nvicPend[v] = true := by
  rcases agentStep_cases h with ⟨hdis, _⟩ | ⟨_, u, _, ht⟩
  · rw [he] at hdis
    cases hdis
  split at ht <;> subst ht
  next hsome => simp [hf] at hsome
  · exact (latchPending_nvicPend_iff u v).2 (.inr ((latchDue_latchPending u v).1 hdue))

/-- A latch is cleared only by the entry of its vector. -/
theorem agentStep_clears_latch {p : Pick} {s t : State} (h : agentStep p s = .next t)
    {v : VecNum} (hs : s.nvicPend[v] = true) (ht : t.nvicPend[v] = false) : p = .entry v := by
  rcases agentStep_cases h with ⟨_, rfl⟩ | ⟨_, u, hu, rfl⟩
  · rw [hs] at ht
    cases ht
  have hclear : u.nvicPend[v] = false := by
    split at ht
    · exact ht
    · by_contra hset
      have := (latchPending_nvicPend_iff u v).2 (.inl (by simpa using hset))
      rw [ht] at this
      cases this
  rcases pickEffect_nvicPend hu v with e | ⟨hp, _⟩
  · rw [e, hs] at hclear
    cases hclear
  · exact hp

/-- Settles O49: the three facts about a latch at the end of an agent's step. -/
theorem latchFollowsLine : Obligations.LatchFollowsLine := by
  refine fun s t p h => ⟨fun he hf v c hv hx hc hroute hline => ?_, fun v hs ht => ?_,
    fun v => agentStep_clears_latch h⟩
  · exact agentStep_latches h he hf ⟨hv, hx, c, hc, hroute, hline⟩
  · rcases agentStep_nvicPend h ht with hset | hdue
    · rw [hs] at hset
      cases hset
    · exact hdue

end Sys2Proof.Machine
end
